-- ==== Sys2Proof/Word.lean ====
section
/-! DEFINITION. The unsigned value types of the block (00_scope.md R12): u8, u16 and u32. No value of the spec is signed. -/

namespace Sys2Proof

/-- `u8` (R12): one byte of the link or of a request. -/
abbrev Byte := BitVec 8

/-- `u16` (R12): a page index of the extended erase, a sentinel code, a page-list count field. -/
abbrev U16 := BitVec 16

/-- `u32` (R12): a target address or a count operand. -/
abbrev U32 := BitVec 32

end Sys2Proof
end

