-- ==== Sys2Proof/Config.lean ====
section
/-! DEFINITION. What an implementation fixes and the spec leaves OPEN: the value of POLL_BUDGET (00_scope.md R9, 10_state.md R25). -/

namespace Sys2Proof

/-- POLL_BUDGET less one. The spec gives no value (92_eei_decisions.md D14: OPEN), so this has none either (log entry 7). -/
opaque Config.pollBudgetLessOne : Nat

/-- `POLL_BUDGET` as configured before the first request: any natural number that is at least 1 (R9). -/
def Config.pollBudget : Nat := Config.pollBudgetLessOne + 1

end Sys2Proof
end

