-- ==== Sys2Proof/Syntax.lean ====
section
/-! DEFINITION. The instructions: one constructor per row of opcode_table.json (30_encoding.md R100), 31 block
operations (R80, operands of R83) and 13 wire rows (ten command frames, the sync byte, ACK and NACK). -/

namespace Sys2Proof

/-- An instruction of the block. -/
inductive Instr where
  -- frame builders (41_codec_builders.md)
  | cmdFrame (op : Byte)
  | addrFrame (addr : U32)
  | lenFrame (count : U32)
  | payloadFrame (lenByte : Byte) (data : List Byte)
  | pageListFrame (pages : List U16)
  | specialEraseFrame (code : U16)
  | wpPageFrame (pages : List Byte)
  -- frame validators (42_codec_validators.md)
  | checkComplement (frame : List Byte)
  | checkXor (frame : List Byte)
  | decodeCmdFrame (frame : List Byte)
  | decodeAddrFrame (frame : List Byte)
  | decodeLenFrame (frame : List Byte)
  | decodePayloadFrame (frame : List Byte)
  | decodePageListFrame (frame : List Byte)
  | decodeSpecialEraseFrame (frame : List Byte)
  -- handshake primitives (43_handshake.md)
  | autobaudInit
  | sendCommand (op : Byte)
  | awaitAck
  | pollAwaitAck
  | sendFrame (frame : List Byte)
  -- transactions (44_sequencer.md)
  | txnGet
  | txnGetRps
  | txnGetId
  | txnReadChunk (addr : U32) (count : U32)
  | txnWriteChunk (addr : U32) (data : List Byte)
  | txnErasePages (pages : List U16)
  | txnEraseSpecial (code : U16)
  | txnWriteProtect (pages : List Byte)
  | txnWriteUnprotect
  | txnReadoutProtect
  | txnReadoutUnprotect
  -- wire rows: command frames the block puts on the link (R88)
  | wireGet
  | wireGetRps
  | wireGetId
  | wireReadMemory
  | wireWriteMemory
  | wireExtendedErase
  | wireWriteProtect
  | wireWriteUnprotect
  | wireReadoutProtect
  | wireReadoutUnprotect
  -- wire rows: the sync byte (R87) and the two response bytes (R95)
  | wireSync
  | wireAck
  | wireNack
  deriving DecidableEq, Repr

/-- Where the bytes of an instruction travel (R100: requests and link frames have decoders of their own). -/
inductive Channel where
  /-- the request port of the caller (R81) -/
  | request
  /-- the link, from the block to the device (R87, R88) -/
  | toDevice
  /-- the link, from the device to the block (R95) -/
  | fromDevice
  deriving DecidableEq, Repr

end Sys2Proof
end

