-- ==== Sys2Proof/WellFormed.lean ====
section
/-! DEFINITION. Well-formed instructions: those a request can spell. A sequence operand travels after a 4-byte element
count (30_encoding.md R83), so it has fewer than 2^32 elements. Legal ranges of operands are NOT checked here: an
out-of-range operand can be presented and is answered by the operation (R83). -/

namespace Sys2Proof

/-- A sequence whose element count fits the 4-byte count of its encoding (R83). -/
abbrev fitsCount {α : Type} (xs : List α) : Prop := xs.length < 2 ^ 32

/-- The instruction has an encoding (R83). -/
def Instr.WellFormed : Instr → Prop
  | .cmdFrame _ => True
  | .addrFrame _ => True
  | .lenFrame _ => True
  | .payloadFrame _ data => fitsCount data
  | .pageListFrame pages => fitsCount pages
  | .specialEraseFrame _ => True
  | .wpPageFrame pages => fitsCount pages
  | .checkComplement frame => fitsCount frame
  | .checkXor frame => fitsCount frame
  | .decodeCmdFrame frame => fitsCount frame
  | .decodeAddrFrame frame => fitsCount frame
  | .decodeLenFrame frame => fitsCount frame
  | .decodePayloadFrame frame => fitsCount frame
  | .decodePageListFrame frame => fitsCount frame
  | .decodeSpecialEraseFrame frame => fitsCount frame
  | .autobaudInit => True
  | .sendCommand _ => True
  | .awaitAck => True
  | .pollAwaitAck => True
  | .sendFrame frame => fitsCount frame
  | .txnGet => True
  | .txnGetRps => True
  | .txnGetId => True
  | .txnReadChunk _ _ => True
  | .txnWriteChunk _ data => fitsCount data
  | .txnErasePages pages => fitsCount pages
  | .txnEraseSpecial _ => True
  | .txnWriteProtect pages => fitsCount pages
  | .txnWriteUnprotect => True
  | .txnReadoutProtect => True
  | .txnReadoutUnprotect => True
  | .wireGet => True
  | .wireGetRps => True
  | .wireGetId => True
  | .wireReadMemory => True
  | .wireWriteMemory => True
  | .wireExtendedErase => True
  | .wireWriteProtect => True
  | .wireWriteUnprotect => True
  | .wireReadoutProtect => True
  | .wireReadoutUnprotect => True
  | .wireSync => True
  | .wireAck => True
  | .wireNack => True

end Sys2Proof
end

