-- ==== Sys2Proof/Decode.lean ====
section
/-! DEFINITION. The decoders of the three channels, total on any bytes, and after them the encoder, both written from
30_encoding.md R82, R83 (requests), R87, R88 (command frames and the sync byte) and R95 (responses). The byte-order
helpers they use stand here too (20_memory.md R53, 30_encoding.md R98). -/

namespace Sys2Proof

/-! ## Byte order (R53, R98) -/

/-- `be16(v) = [v[15:8], v[7:0]]` (R53). -/
def be16 (v : U16) : List Byte := [v.extractLsb' 8 8, v.extractLsb' 0 8]

/-- `be32(v) = [v[31:24], v[23:16], v[15:8], v[7:0]]` (R53). -/
def be32 (v : U32) : List Byte :=
  [v.extractLsb' 24 8, v.extractLsb' 16 8, v.extractLsb' 8 8, v.extractLsb' 0 8]

/-- `from_be16(b0, b1)` (R98). -/
def fromBe16 (b0 b1 : Byte) : U16 := (b0.zeroExtend 16 <<< 8) ||| b1.zeroExtend 16

/-- `from_be32(b0, b1, b2, b3)` (R98). -/
def fromBe32 (b0 b1 b2 b3 : Byte) : U32 :=
  (b0.zeroExtend 32 <<< 24) ||| (b1.zeroExtend 32 <<< 16) ||| (b2.zeroExtend 32 <<< 8) ||| b3.zeroExtend 32

/-- The complement of a byte, `cpl(b) = b ^ 0xFF` (00_scope.md R15). -/
def cpl (b : Byte) : Byte := b ^^^ 0xFF

/-! ## Operand readers: the operand and the bytes after it, or none where it is cut short (R83, R84) -/

/-- A `u8` operand. -/
def readU8 : List Byte → Option (Byte × List Byte)
  | b :: rest => some (b, rest)
  | _ => none

/-- A `u16` operand, 2 bytes big-endian. -/
def readU16 : List Byte → Option (U16 × List Byte)
  | b0 :: b1 :: rest => some (fromBe16 b0 b1, rest)
  | _ => none

/-- A `u32` operand, 4 bytes big-endian. -/
def readU32 : List Byte → Option (U32 × List Byte)
  | b0 :: b1 :: b2 :: b3 :: rest => some (fromBe32 b0 b1 b2 b3, rest)
  | _ => none

/-- The first `n` bytes and the rest, or none where there are fewer. -/
def takeBytes (n : Nat) (bs : List Byte) : Option (List Byte × List Byte) :=
  if bs.length < n then none else some (bs.take n, bs.drop n)

/-- A `bytes` or `seq<u8>` operand: a 4-byte element count, then the bytes. -/
def readBytes (bs : List Byte) : Option (List Byte × List Byte) :=
  match readU32 bs with
  | some (n, rest) => takeBytes n.toNat rest
  | none => none

/-- Bytes taken two by two as big-endian values; an odd last byte is left out. -/
def pairs16 : List Byte → List U16
  | b0 :: b1 :: rest => fromBe16 b0 b1 :: pairs16 rest
  | _ => []

/-- A `seq<u16>` operand: a 4-byte element count, then each element as 2 bytes. -/
def readU16s (bs : List Byte) : Option (List U16 × List Byte) :=
  match readU32 bs with
  | some (n, rest) =>
    match takeBytes (2 * n.toNat) rest with
    | some (body, rest') => some (pairs16 body, rest')
    | none => none
  | none => none

/-! ## The request decoder (R82, R83, R84) -/

/-- The operation of an `OPSEL` byte with its operands read from the bytes after it (R82, R83). None where the byte
selects no operation or an operand is cut short (R84). -/
def decodeOperation (opsel : Byte) (bs : List Byte) : Option (Instr × List Byte) :=
  match opsel.toNat with
  | 0x10 => (readU8 bs).map fun x => (.cmdFrame x.1, x.2)
  | 0x11 => (readU32 bs).map fun x => (.addrFrame x.1, x.2)
  | 0x12 => (readU32 bs).map fun x => (.lenFrame x.1, x.2)
  | 0x13 => (readU8 bs).bind fun x => (readBytes x.2).map fun y => (.payloadFrame x.1 y.1, y.2)
  | 0x14 => (readU16s bs).map fun x => (.pageListFrame x.1, x.2)
  | 0x15 => (readU16 bs).map fun x => (.specialEraseFrame x.1, x.2)
  | 0x16 => (readBytes bs).map fun x => (.wpPageFrame x.1, x.2)
  | 0x20 => (readBytes bs).map fun x => (.checkComplement x.1, x.2)
  | 0x21 => (readBytes bs).map fun x => (.checkXor x.1, x.2)
  | 0x22 => (readBytes bs).map fun x => (.decodeCmdFrame x.1, x.2)
  | 0x23 => (readBytes bs).map fun x => (.decodeAddrFrame x.1, x.2)
  | 0x24 => (readBytes bs).map fun x => (.decodeLenFrame x.1, x.2)
  | 0x25 => (readBytes bs).map fun x => (.decodePayloadFrame x.1, x.2)
  | 0x26 => (readBytes bs).map fun x => (.decodePageListFrame x.1, x.2)
  | 0x27 => (readBytes bs).map fun x => (.decodeSpecialEraseFrame x.1, x.2)
  | 0x30 => some (.autobaudInit, bs)
  | 0x31 => (readU8 bs).map fun x => (.sendCommand x.1, x.2)
  | 0x32 => some (.awaitAck, bs)
  | 0x33 => some (.pollAwaitAck, bs)
  | 0x34 => (readBytes bs).map fun x => (.sendFrame x.1, x.2)
  | 0x40 => some (.txnGet, bs)
  | 0x41 => some (.txnGetRps, bs)
  | 0x42 => some (.txnGetId, bs)
  | 0x43 => (readU32 bs).bind fun x => (readU32 x.2).map fun y => (.txnReadChunk x.1 y.1, y.2)
  | 0x44 => (readU32 bs).bind fun x => (readBytes x.2).map fun y => (.txnWriteChunk x.1 y.1, y.2)
  | 0x45 => (readU16s bs).map fun x => (.txnErasePages x.1, x.2)
  | 0x46 => (readU16 bs).map fun x => (.txnEraseSpecial x.1, x.2)
  | 0x47 => (readBytes bs).map fun x => (.txnWriteProtect x.1, x.2)
  | 0x48 => some (.txnWriteUnprotect, bs)
  | 0x49 => some (.txnReadoutProtect, bs)
  | 0x4A => some (.txnReadoutUnprotect, bs)
  | _ => none

/-- The first request of the bytes at the request port, and the bytes after it. -/
def decodeRequest : List Byte → Option (Instr × List Byte)
  | opsel :: rest => decodeOperation opsel rest
  | [] => none

/-! ## The decoders of the link (R87, R88, R95, R100) -/

/-- The command a byte names (10_state.md R37), as the row of its command frame. -/
def commandRow (op : Byte) : Option Instr :=
  match op.toNat with
  | 0x00 => some .wireGet
  | 0x01 => some .wireGetRps
  | 0x02 => some .wireGetId
  | 0x11 => some .wireReadMemory
  | 0x31 => some .wireWriteMemory
  | 0x44 => some .wireExtendedErase
  | 0x63 => some .wireWriteProtect
  | 0x73 => some .wireWriteUnprotect
  | 0x82 => some .wireReadoutProtect
  | 0x92 => some .wireReadoutUnprotect
  | _ => none

/-- A whole frame of the block on the link: the sync byte alone (R87) or a command frame (R88). Any other frame is no
row of the table. -/
def decodeToDevice : List Byte → Option Instr
  | [b] => if b = 0x7F then some .wireSync else none
  | [op, check] => if check = cpl op then commandRow op else none
  | _ => none

/-- One byte of the device: ACK or NACK (R95). Any other byte is no row of the table. -/
def decodeFromDevice : List Byte → Option Instr
  | [b] => if b = 0x79 then some .wireAck else if b = 0x1F then some .wireNack else none
  | _ => none

/-- The instruction the bytes of a channel spell, and the bytes after it. -/
def decode (c : Channel) (bs : List Byte) : Option (Instr × List Byte) :=
  match c with
  | .request => decodeRequest bs
  | .toDevice => (decodeToDevice bs).map fun i => (i, [])
  | .fromDevice => (decodeFromDevice bs).map fun i => (i, [])

/-! ## The encoder -/

/-- A `bytes` or `seq<u8>` operand as bytes (R83). -/
def writeBytes (xs : List Byte) : List Byte := be32 (BitVec.ofNat 32 xs.length) ++ xs

/-- A `seq<u16>` operand as bytes (R83). -/
def writeU16s (xs : List U16) : List Byte := be32 (BitVec.ofNat 32 xs.length) ++ xs.flatMap be16

/-- The selector of a block operation (R82); for a wire row, its first byte on the link. -/
def selector : Instr → Byte
  | .cmdFrame _ => 0x10
  | .addrFrame _ => 0x11
  | .lenFrame _ => 0x12
  | .payloadFrame _ _ => 0x13
  | .pageListFrame _ => 0x14
  | .specialEraseFrame _ => 0x15
  | .wpPageFrame _ => 0x16
  | .checkComplement _ => 0x20
  | .checkXor _ => 0x21
  | .decodeCmdFrame _ => 0x22
  | .decodeAddrFrame _ => 0x23
  | .decodeLenFrame _ => 0x24
  | .decodePayloadFrame _ => 0x25
  | .decodePageListFrame _ => 0x26
  | .decodeSpecialEraseFrame _ => 0x27
  | .autobaudInit => 0x30
  | .sendCommand _ => 0x31
  | .awaitAck => 0x32
  | .pollAwaitAck => 0x33
  | .sendFrame _ => 0x34
  | .txnGet => 0x40
  | .txnGetRps => 0x41
  | .txnGetId => 0x42
  | .txnReadChunk _ _ => 0x43
  | .txnWriteChunk _ _ => 0x44
  | .txnErasePages _ => 0x45
  | .txnEraseSpecial _ => 0x46
  | .txnWriteProtect _ => 0x47
  | .txnWriteUnprotect => 0x48
  | .txnReadoutProtect => 0x49
  | .txnReadoutUnprotect => 0x4A
  | .wireGet => 0x00
  | .wireGetRps => 0x01
  | .wireGetId => 0x02
  | .wireReadMemory => 0x11
  | .wireWriteMemory => 0x31
  | .wireExtendedErase => 0x44
  | .wireWriteProtect => 0x63
  | .wireWriteUnprotect => 0x73
  | .wireReadoutProtect => 0x82
  | .wireReadoutUnprotect => 0x92
  | .wireSync => 0x7F
  | .wireAck => 0x79
  | .wireNack => 0x1F

/-- The bytes of an instruction on its channel (R83, R87, R88, R95). -/
def encode : Instr → List Byte
  | .cmdFrame x => [0x10] ++ [x]
  | .addrFrame x => [0x11] ++ be32 x
  | .lenFrame x => [0x12] ++ be32 x
  | .payloadFrame x y => [0x13] ++ [x] ++ writeBytes y
  | .pageListFrame x => [0x14] ++ writeU16s x
  | .specialEraseFrame x => [0x15] ++ be16 x
  | .wpPageFrame x => [0x16] ++ writeBytes x
  | .checkComplement x => [0x20] ++ writeBytes x
  | .checkXor x => [0x21] ++ writeBytes x
  | .decodeCmdFrame x => [0x22] ++ writeBytes x
  | .decodeAddrFrame x => [0x23] ++ writeBytes x
  | .decodeLenFrame x => [0x24] ++ writeBytes x
  | .decodePayloadFrame x => [0x25] ++ writeBytes x
  | .decodePageListFrame x => [0x26] ++ writeBytes x
  | .decodeSpecialEraseFrame x => [0x27] ++ writeBytes x
  | .autobaudInit => [0x30]
  | .sendCommand x => [0x31] ++ [x]
  | .awaitAck => [0x32]
  | .pollAwaitAck => [0x33]
  | .sendFrame x => [0x34] ++ writeBytes x
  | .txnGet => [0x40]
  | .txnGetRps => [0x41]
  | .txnGetId => [0x42]
  | .txnReadChunk x y => [0x43] ++ be32 x ++ be32 y
  | .txnWriteChunk x y => [0x44] ++ be32 x ++ writeBytes y
  | .txnErasePages x => [0x45] ++ writeU16s x
  | .txnEraseSpecial x => [0x46] ++ be16 x
  | .txnWriteProtect x => [0x47] ++ writeBytes x
  | .txnWriteUnprotect => [0x48]
  | .txnReadoutProtect => [0x49]
  | .txnReadoutUnprotect => [0x4A]
  | .wireGet => [0x00, 0xFF]
  | .wireGetRps => [0x01, 0xFE]
  | .wireGetId => [0x02, 0xFD]
  | .wireReadMemory => [0x11, 0xEE]
  | .wireWriteMemory => [0x31, 0xCE]
  | .wireExtendedErase => [0x44, 0xBB]
  | .wireWriteProtect => [0x63, 0x9C]
  | .wireWriteUnprotect => [0x73, 0x8C]
  | .wireReadoutProtect => [0x82, 0x7D]
  | .wireReadoutUnprotect => [0x92, 0x6D]
  | .wireSync => [0x7F]
  | .wireAck => [0x79]
  | .wireNack => [0x1F]

/-- The channel an instruction travels on (R100). -/
def channel : Instr → Channel
  | .cmdFrame _ => .request
  | .addrFrame _ => .request
  | .lenFrame _ => .request
  | .payloadFrame _ _ => .request
  | .pageListFrame _ => .request
  | .specialEraseFrame _ => .request
  | .wpPageFrame _ => .request
  | .checkComplement _ => .request
  | .checkXor _ => .request
  | .decodeCmdFrame _ => .request
  | .decodeAddrFrame _ => .request
  | .decodeLenFrame _ => .request
  | .decodePayloadFrame _ => .request
  | .decodePageListFrame _ => .request
  | .decodeSpecialEraseFrame _ => .request
  | .autobaudInit => .request
  | .sendCommand _ => .request
  | .awaitAck => .request
  | .pollAwaitAck => .request
  | .sendFrame _ => .request
  | .txnGet => .request
  | .txnGetRps => .request
  | .txnGetId => .request
  | .txnReadChunk _ _ => .request
  | .txnWriteChunk _ _ => .request
  | .txnErasePages _ => .request
  | .txnEraseSpecial _ => .request
  | .txnWriteProtect _ => .request
  | .txnWriteUnprotect => .request
  | .txnReadoutProtect => .request
  | .txnReadoutUnprotect => .request
  | .wireGet => .toDevice
  | .wireGetRps => .toDevice
  | .wireGetId => .toDevice
  | .wireReadMemory => .toDevice
  | .wireWriteMemory => .toDevice
  | .wireExtendedErase => .toDevice
  | .wireWriteProtect => .toDevice
  | .wireWriteUnprotect => .toDevice
  | .wireReadoutProtect => .toDevice
  | .wireReadoutUnprotect => .toDevice
  | .wireSync => .toDevice
  | .wireAck => .fromDevice
  | .wireNack => .fromDevice

/-! ## Words as the opcode table numbers them -/

/-- The channel and the bytes of a word of the opcode table (R100). A 16-bit word is a command frame, its first byte in
bits 15:8 (log entry 21). An 8-bit word is the sync byte, a response byte, or an `OPSEL` with every operand byte after
it 0: eight of them, as many as the longest request of zero operands has. No row has another width. -/
def tableBytes (nbits w : Nat) : Channel × List Byte :=
  if nbits = 16 then (.toDevice, [BitVec.ofNat 8 (w / 256), BitVec.ofNat 8 w])
  else if nbits ≠ 8 then (.request, [])
  else if w = 0x7F then (.toDevice, [BitVec.ofNat 8 w])
  else if w = 0x79 ∨ w = 0x1F then (.fromDevice, [BitVec.ofNat 8 w])
  else (.request, BitVec.ofNat 8 w :: List.replicate 8 0)

/-- The instruction the decoder reads from a word of the opcode table. -/
def decodeTableWord (nbits w : Nat) : Option Instr :=
  (decode (tableBytes nbits w).1 (tableBytes nbits w).2).map Prod.fst

end Sys2Proof
end

