-- ==== Sys2Proof/Machine/State.lean ====
section
/-! DEFINITION. The state of the block as plain data (10_state.md), the result record (30_encoding.md R81, R85, R86),
the handshake sites (44_sequencer.md R211), the link events (10_state.md R31), what the outside does (00_scope.md R16,
20_memory.md R50 to R52, 60_exceptions.md R289), and the state after reset (10_state.md R40). -/

namespace Sys2Proof.Machine

/-! ## Results (R81) -/

/-- Status of a result (30_encoding.md R85). -/
inductive Status where
  | ok
  | transportFailure
  | protocolViolation
  | deviceProtected
  | invalidArgument
  | badChecksum
  | unknownOpcode
  | refused
  /-- only the caller-side expansions of 45_caller_sequences.md produce it -/
  | partiallyApplied
  deriving DecidableEq, Repr

/-- Reason of a result (30_encoding.md R86). -/
inductive Reason where
  | none
  | txFail
  | rxFail
  | pollBudgetExhausted
  | unexpectedByte
  | nackNotExpected
  | initNoAck
  | initReadFailed
  | badLength
  | nackGated
  | range
  | misaligned
  | reservedSentinel
  | badAddress
  | badFrameLength
  | notSentinel
  | notSynced
  | alreadySynced
  | busy
  | illegalOp
  | unknownCommand
  | checksumMismatch
  | notACommand
  /-- `Partial` (0x70), caller-side only -/
  | partWritten
  deriving DecidableEq, Repr

/-- Handshake and data sites of a transaction (44_sequencer.md R211). -/
inductive Site where
  | cmdGated
  | cmdUngated
  | addr
  | len
  | payload
  | eraseFinal
  | wpPages
  | trail
  | lenByte
  | data
  deriving DecidableEq, Repr

/-- The three outcomes of a response byte (43_handshake.md R183). -/
inductive Response where
  | ack
  | nack
  | other
  deriving DecidableEq, Repr

/-- The return value of an operation that completes (41 to 44; R217). -/
inductive Value where
  /-- a builder's frame (R121) -/
  | frame (bytes : List Byte)
  /-- CHECK_COMPLEMENT and CHECK_XOR (R151, R154) -/
  | bool (b : Bool)
  /-- DECODE_CMD_FRAME (R152) -/
  | command (op : Byte)
  /-- DECODE_LEN_FRAME (R153): a count in [1,256], in u32 -/
  | count (n : U32)
  /-- DECODE_ADDR_FRAME (R155) -/
  | address (a : U32)
  /-- DECODE_PAYLOAD_FRAME (R156) -/
  | payload (lenByte : Byte) (data : List Byte) (consistent : Bool)
  /-- DECODE_PAGE_LIST_FRAME (R157) -/
  | pages (ps : List U16)
  /-- DECODE_SPECIAL_ERASE_FRAME (R158) -/
  | code (c : U16)
  /-- `OK(ACK)` and `OK(NACK)` of the handshake primitives (R181, R182, R186) -/
  | response (r : Response)
  /-- TXN_GET (R212) -/
  | bootloader (version : Byte) (opcodes : List Byte)
  /-- TXN_GET_RPS (R213) -/
  | counters (disable enable : Byte)
  /-- TXN_GET_ID (R214) -/
  | identity (bytes : List Byte)
  /-- TXN_READ_CHUNK (R215) -/
  | data (bytes : List Byte)
  deriving DecidableEq, Repr

/-- The result record (R81). -/
structure Result where
  status : Status
  reason : Reason
  info : Option Byte
  site : Option Site
  value : Option Value
  deriving DecidableEq, Repr

/-- A result as the caller gets it: with the selector of the request it answers (log entry 15). -/
structure Answer where
  opsel : Byte
  result : Result
  deriving DecidableEq, Repr

/-! ## The link (R16, R31) -/

/-- Answer of the transport to a `TX` (R16). -/
inductive TxOutcome where
  | ok
  | fail
  deriving DecidableEq, Repr

/-- Answer of the transport to an `RX` (R16). -/
inductive RxOutcome where
  | ok (bytes : List Byte)
  | fail
  deriving DecidableEq, Repr

/-- One link event (10_state.md R31). -/
inductive Event where
  /-- `Tx(s, TxOk)` or `Tx(s, TxFail)` -/
  | tx (frame : List Byte) (outcome : TxOutcome)
  /-- `Rx(n, RxOk(s))` or `Rx(n, RxFail)` -/
  | rx (n : Nat) (outcome : RxOutcome)
  deriving DecidableEq, Repr

/-! ## What the outside does -/

/-- One act of the caller, the transport or the device (log entry 1). -/
inductive Input where
  /-- bytes at the request port, or bytes seen to pass on the link in one direction -/
  | port (c : Channel) (bytes : List Byte)
  /-- the transport answers a write (R16) -/
  | txAnswer (o : TxOutcome)
  /-- the transport fails a read (R51) -/
  | readFails
  /-- the caller configures POLL_BUDGET (R25, R314 step 6) -/
  | setPollBudget (n : Nat)
  /-- the caller writes CTRLSTAT (R24) -/
  | writeCtrlstat (b : Byte)
  /-- the caller opens a session, which resets the block; only between calls (R310) -/
  | newSession
  deriving DecidableEq, Repr

/-! ## The state -/

/-- The state of the block. -/
structure State where
  /-- `SYNC` (R22) -/
  sync : Bool
  /-- `BUSY` (R23) -/
  busy : Bool
  /-- `POLL_BUDGET` (R25), a configuration input -/
  pollBudget : Nat
  /-- `TXN` (R26): the selector of the operation in flight -/
  txn : Byte
  /-- `SPC` (R27): index of the current step -/
  spc : Nat
  /-- `NVAR` (R28): the latched length byte; where it is undefined, its old value (log entries 6 and 25) -/
  nvar : Byte
  /-- `ATT` (R29): failed read attempts of the current poll; where it is undefined, its old value (log entries 6 and 25) -/
  att : Nat
  /-- `RXBUF` (R30): response bytes collected -/
  rxbuf : List Byte
  /-- `HIST` (R31): the link events, oldest first -/
  hist : List Event
  /-- the model's own: the request in flight with its operands (R81; log entry 18) -/
  cur : Option Instr
  /-- the model's own: POLL_BUDGET as it was at acceptance (R25; log entry 7) -/
  budget : Nat
  /-- the model's own: results given to the caller, oldest first (R81; log entry 15) -/
  results : List Answer
  /-- the oracle's answers to writes, already held by the transport, next first (R52; log entry 3) -/
  txq : List TxOutcome
  /-- the oracle's bytes and failed reads, already held by the transport, next first; `none` is a failed read (R52,
  R278; log entry 3) -/
  rxq : List (Option Byte)
  /-- what the outside does next, first first (log entries 1 and 16) -/
  inputs : List Input
  deriving DecidableEq, Repr

/-- Why the machine stops. -/
inductive Fault where
  /-- Raised by `step` where an operation waits for an answer of the transport and the outside does nothing more: the
  block is stuck at that step with BUSY = 1 (44_sequencer.md R227, 93_implementation_defined.md I15). Safe. -/
  | transportSilent
  deriving DecidableEq, Repr

/-- What the model does not run. -/
inductive Refusal where
  /-- An instruction with no meaning yet, raised by `exec` alone. Safe. -/
  | notModelled (mnemonic : String)
  /-- Raised by `step` where the caller configures POLL_BUDGET = 0, which 00_scope.md R9 rules out. Safe. -/
  | pollBudgetZero
  /-- Raised by `step` where the caller opens a session while BUSY = 1: there is no reset then, and an exchange runs to its
  conclusion (70_reset_and_hazards.md R310, R322). Safe. -/
  | sessionWhileBusy
  deriving DecidableEq, Repr

/-- The machine after a block reset (R40, R310). SYNC, BUSY, RXBUF and HIST are the spec's; TXN, SPC, NVAR and ATT,
which the spec leaves undefined there, are DESIGN CHOICE zeros (log entry 6); POLL_BUDGET is the configured value. -/
def State.reset : State where
  sync := false
  busy := false
  pollBudget := Config.pollBudget
  txn := 0
  spc := 0
  nvar := 0
  att := 0
  rxbuf := []
  hist := []
  cur := none
  budget := 0
  results := []
  txq := []
  rxq := []
  inputs := []

end Sys2Proof.Machine
end

