-- ==== Sys2Proof/Machine/Flags.lean ====
section
/-! DEFINITION. The flags and the encodings of results: CTRLSTAT (10_state.md R24), the classification of a response
byte (43_handshake.md R183), the codes of statuses, reasons and sites (30_encoding.md R85, R86; 44_sequencer.md R211),
and the checksums (00_scope.md R14, R15). -/

namespace Sys2Proof.Machine

/-- `CTRLSTAT`, the caller's view of the flags: bit 0 SYNC, bit 1 BUSY, bits 7:2 read as 0 (R24). -/
def State.ctrlstat (s : State) : Byte :=
  (if s.sync then 0x01 else 0x00) ||| (if s.busy then 0x02 else 0x00)

/-- A caller's write to CTRLSTAT has no effect: the register is read-only to the caller (R24; log entry 20). -/
def State.writeCtrlstat (_ : Byte) (s : State) : State := s

/-- `classify` (R183). The whole byte is compared. -/
def classify (b : Byte) : Response :=
  if b = 0x79 then .ack else if b = 0x1F then .nack else .other

/-- Status codes (R85). -/
def Status.code : Status → Byte
  | .ok => 0x00
  | .transportFailure => 0x01
  | .protocolViolation => 0x02
  | .deviceProtected => 0x03
  | .invalidArgument => 0x04
  | .badChecksum => 0x05
  | .unknownOpcode => 0x06
  | .refused => 0x07
  | .partiallyApplied => 0x08

/-- Reason codes (R86). -/
def Reason.code : Reason → Byte
  | .none => 0x00
  | .txFail => 0x01
  | .rxFail => 0x02
  | .pollBudgetExhausted => 0x03
  | .unexpectedByte => 0x10
  | .nackNotExpected => 0x11
  | .initNoAck => 0x12
  | .initReadFailed => 0x13
  | .badLength => 0x14
  | .nackGated => 0x20
  | .range => 0x30
  | .misaligned => 0x31
  | .reservedSentinel => 0x32
  | .badAddress => 0x33
  | .badFrameLength => 0x34
  | .notSentinel => 0x35
  | .notSynced => 0x40
  | .alreadySynced => 0x41
  | .busy => 0x42
  | .illegalOp => 0x43
  | .unknownCommand => 0x44
  | .checksumMismatch => 0x50
  | .notACommand => 0x60
  | .partWritten => 0x70

/-- The status each reason belongs to (R86, third column). -/
def Reason.status : Reason → Status
  | .none => .ok
  | .txFail => .transportFailure
  | .rxFail => .transportFailure
  | .pollBudgetExhausted => .transportFailure
  | .unexpectedByte => .protocolViolation
  | .nackNotExpected => .protocolViolation
  | .initNoAck => .protocolViolation
  | .initReadFailed => .protocolViolation
  | .badLength => .protocolViolation
  | .nackGated => .deviceProtected
  | .range => .invalidArgument
  | .misaligned => .invalidArgument
  | .reservedSentinel => .invalidArgument
  | .badAddress => .invalidArgument
  | .badFrameLength => .invalidArgument
  | .notSentinel => .invalidArgument
  | .notSynced => .refused
  | .alreadySynced => .refused
  | .busy => .refused
  | .illegalOp => .refused
  | .unknownCommand => .refused
  | .checksumMismatch => .badChecksum
  | .notACommand => .unknownOpcode
  | .partWritten => .partiallyApplied

/-- Site ids (R211). -/
def Site.code : Site → Byte
  | .cmdGated => 0x01
  | .cmdUngated => 0x02
  | .addr => 0x03
  | .len => 0x04
  | .payload => 0x05
  | .eraseFinal => 0x06
  | .wpPages => 0x07
  | .trail => 0x08
  | .lenByte => 0x09
  | .data => 0x0A

/-- An error result: its status is that of its reason, and it carries no value (R81, R86). -/
def Result.err (r : Reason) (info : Option Byte) (site : Option Site) : Result :=
  { status := r.status, reason := r, info := info, site := site, value := none }

/-- A successful result (R81, R85). -/
def Result.done (v : Option Value) : Result :=
  { status := .ok, reason := .none, info := none, site := none, value := v }

/-- `nack_meaning(s)` (R211): the reason of a NACK at a site. The two data sites read no handshake, so no step asks for
their row; it is written as a NACK with no meaning. -/
def Site.nackReason : Site → Reason
  | .cmdGated => .nackGated
  | .cmdUngated => .nackNotExpected
  | .addr => .badAddress
  | .len => .nackGated
  | .payload => .nackNotExpected
  | .eraseFinal => .nackNotExpected
  | .wpPages => .nackNotExpected
  | .trail => .nackNotExpected
  | .lenByte => .nackNotExpected
  | .data => .nackNotExpected

/-- The result of a NACK at a site; `info` is the byte 0x1F (R211, R272 to R274). -/
def nackMeaning (s : Site) : Result := .err s.nackReason (some 0x1F) (some s)

/-- `xorfold(s)`: the exclusive-or of every byte, from 0x00 (R14). -/
def xorfold (bs : List Byte) : Byte := bs.foldl (· ^^^ ·) 0

/-- A frame body with its XOR checksum after it (R99). -/
def withXor (body : List Byte) : List Byte := body ++ [xorfold body]

end Sys2Proof.Machine
end

