-- ==== Sys2Proof/Machine/Operands.lean ====
section
/-! DEFINITION. The operand checks and the frames made from operands, as 41_codec_builders.md gives them; the builders,
the validators and the transactions share them. A check answers the reason it fails with, or none. -/

namespace Sys2Proof.Machine

/-- The ten command opcodes (10_state.md R37). -/
def commandSet : List Byte := [0x00, 0x01, 0x02, 0x11, 0x31, 0x44, 0x63, 0x73, 0x82, 0x92]

/-- The three erase sentinels: mass, bank 1, bank 2 (10_state.md R38). -/
def sentinels : List U16 := [0xFFFF, 0xFFFE, 0xFFFD]

/-- `MAX_CHUNK` (10_state.md R36). -/
abbrev maxChunk : Nat := 256

/-! ## Checks -/

/-- `n < 1 or n > 256` is out of range (R123, R124, R127, R215, R219). -/
def rangeCheck (n : Nat) : Option Reason :=
  if n < 1 ∨ maxChunk < n then some .range else none

/-- The checks of a page list, in the order R125 writes them. -/
def pageListCheck (pages : List U16) : Option Reason :=
  if pages.length = 0 then some .range
  else if 65536 < pages.length then some .range
  else if 65533 ≤ pages.length then some .reservedSentinel
  else if pages.any (sentinels.contains ·) then some .reservedSentinel
  else none

/-- A special-erase code is one of the sentinels (R126). -/
def specialCheck (code : U16) : Option Reason :=
  if sentinels.contains code then none else some .notSentinel

/-- A write chunk starts at a multiple of 4 (20_memory.md R57), and then has 1 to 256 bytes (R219). -/
def writeChunkCheck (addr : U32) (data : List Byte) : Option Reason :=
  if addr.toNat % 4 ≠ 0 then some .misaligned else rangeCheck data.length

/-- A frame to send is not empty (R185). -/
def nonEmptyCheck (frame : List Byte) : Option Reason :=
  if frame.length = 0 then some .range else none

/-! ## Frames (30_encoding.md R88 to R94) -/

/-- Command frame (R88, R120). -/
def commandFrame (op : Byte) : List Byte := [op, cpl op]

/-- Address frame (R89, R122). -/
def addressFrame (addr : U32) : List Byte := withXor (be32 addr)

/-- The u8 that encodes a count in [1,256] (R97). -/
def countByte (n : Nat) : Byte := BitVec.ofNat 8 (n - 1)

/-- Length frame (R90, R123). -/
def lengthFrame (count : U32) : List Byte := [countByte count.toNat, cpl (countByte count.toNat)]

/-- Payload frame (R91, R124). -/
def payloadBytes (lenByte : Byte) (data : List Byte) : List Byte := withXor (lenByte :: data)

/-- Page-list frame (R92, R125). -/
def pageListBytes (pages : List U16) : List Byte :=
  withXor (be16 (BitVec.ofNat 16 (pages.length - 1)) ++ pages.flatMap be16)

/-- Special-erase frame (R93, R126): two code bytes and their exclusive-or. -/
def specialEraseBytes (code : U16) : List Byte := withXor (be16 code)

/-- Write-protect page frame (R94, R127). -/
def wpPageBytes (pages : List Byte) : List Byte := withXor (countByte pages.length :: pages)

end Sys2Proof.Machine
end

