-- ==== Sys2Proof/Machine/Ops.lean ====
section
/-! DEFINITION. The named operations every meaning is made of: answering a request, admission and completion
(43_handshake.md R184), the result entry (60_exceptions.md R280), the link primitives TX and RX (00_scope.md R16), and
the step language of the sequencer (44_sequencer.md R210). -/

namespace Sys2Proof.Machine

/-! ## Answering and completion -/

/-- The caller gets the result `r` of the request with selector `opsel`; nothing else changes. -/
def State.answer (opsel : Byte) (r : Result) (s : State) : State :=
  { s with results := s.results ++ [⟨opsel, r⟩] }

/-- The end of an accepted operation, with any result, OK or error (R184, R280): SYNC is cleared by a protocol
violation, BUSY is cleared, and the caller gets the result. This is how the block takes an error: it saves nothing
elsewhere and has no vector (R280), and there is no operation that returns from one (R281). -/
def State.finish (r : Result) (s : State) : State :=
  { s with
    sync := if r.status = .protocolViolation then false else s.sync
    busy := false
    cur := none
    results := s.results ++ [⟨s.txn, r⟩] }

/-- Acceptance of a link operation (R184); POLL_BUDGET is latched (R25). NVAR and ATT are not written: their old values stay
until a LEN step or a poll of the operation writes them, where the spec leaves them undefined (R28, R29; DESIGN CHOICE, log
entry 25). -/
def State.accept (i : Instr) (s : State) : State :=
  { s with busy := true, txn := selector i, spc := 0, rxbuf := [], cur := some i, budget := s.pollBudget }

/-- What an operation asks of SYNC before it is accepted (R180, R216). -/
inductive SyncDuty where
  /-- INIT: SYNC = 0 -/
  | unsynced
  /-- every other link operation: SYNC = 1 -/
  | synced
  deriving DecidableEq, Repr

/-- The admission checks on the flags, BUSY first (R184, R279). -/
def State.admission (duty : SyncDuty) (s : State) : Option Reason :=
  if s.busy then some .busy
  else match duty with
    | .unsynced => if s.sync then some .alreadySynced else none
    | .synced => if s.sync then none else some .notSynced

/-! ## Link primitives -/

/-- Append a link event (R31). -/
def State.log (e : Event) (s : State) : State := { s with hist := s.hist ++ [e] }

/-- What the oracle answers to `RX(n)`: `n` bytes, or a failure, or nothing yet; with the queue after it. A failed read
takes the bytes before the failure with it (log entry 3). -/
inductive RxGot where
  | ok (bytes : List Byte) (rest : List (Option Byte))
  | fail (rest : List (Option Byte))
  | nothing
  deriving DecidableEq, Repr

/-- `RX(n)` against the queue of the oracle (R16, R51, R52). -/
def takeRx : Nat → List (Option Byte) → RxGot
  | 0, q => .ok [] q
  | _ + 1, [] => .nothing
  | _ + 1, none :: q => .fail q
  | n + 1, some b :: q =>
    match takeRx n q with
    | .ok bs rest => .ok (b :: bs) rest
    | .fail rest => .fail rest
    | .nothing => .nothing

/-- How far a step got: it completed, it ended the operation with a result, or it waits for the oracle. -/
inductive Progress where
  | completed (s : State)
  | ended (r : Result) (s : State)
  | waiting (s : State)
  deriving DecidableEq, Repr

/-- `TX(f)`; a failure ends the operation with TRANSPORT_FAILURE(TxFail) and the site (R16, R210). -/
def txStep (frame : List Byte) (site : Option Site) (s : State) : Progress :=
  match s.txq with
  | [] => .waiting s
  | .ok :: q => .completed ({ s with txq := q }.log (.tx frame .ok))
  | .fail :: q => .ended (.err .txFail none site) ({ s with txq := q }.log (.tx frame .fail))

/-- `RX(n)` with what to do on failure and on `n` bytes (R16). -/
def rxStep (n : Nat) (onFail : Result) (onBytes : List Byte → State → Progress) (s : State) : Progress :=
  match takeRx n s.rxq with
  | .ok bs rest => onBytes bs ({ s with rxq := rest }.log (.rx n (.ok bs)))
  | .fail rest => .ended onFail ({ s with rxq := rest }.log (.rx n .fail))
  | .nothing => .waiting s

/-- `RX(1)`: the byte it got. -/
def rxByte (onFail : Result) (onByte : Byte → State → Progress) (s : State) : Progress :=
  rxStep 1 onFail (fun bs s' => match bs with | b :: _ => onByte b s' | [] => .waiting s') s

/-- The bounded poll (R186, R210): a failed read counts in ATT, and the read that brings ATT to the budget ends the
operation; the first byte that arrives ends the poll. The list is the queue of the oracle. -/
def pollLoop (exhausted : Result) (onByte : Byte → State → Progress) : List (Option Byte) → State → Progress
  | [], s => .waiting s
  | none :: q, s =>
    let s' := { s with rxq := q, att := s.att + 1 }.log (.rx 1 .fail)
    if s'.att = s'.budget then .ended exhausted s' else pollLoop exhausted onByte q s'
  | some b :: q, s => onByte b ({ s with rxq := q }.log (.rx 1 (.ok [b])))

/-- A response byte at a handshake site of a transaction (R210, R211). -/
def ackByte (site : Site) (b : Byte) (s : State) : Progress :=
  match classify b with
  | .ack => .completed s
  | .nack => .ended (nackMeaning site) s
  | .other => .ended (.err .unexpectedByte (some b) (some site)) s

/-- A response byte read by a handshake primitive: ACK and NACK are values (R181, R182, R186). -/
def responseByte (b : Byte) (s : State) : Progress :=
  match classify b with
  | .ack => .ended (.done (some (.response .ack))) s
  | .nack => .ended (.done (some (.response .nack))) s
  | .other => .ended (.err .unexpectedByte (some b) none) s

/-- The byte INIT reads: anything but ACK is a violation (R180). -/
def initByte (b : Byte) (s : State) : Progress :=
  if b = 0x79 then .completed { s with sync := true } else .ended (.err .initNoAck (some b) none) s

/-! ## The step language (R210) -/

/-- How many bytes a DATA step reads. -/
inductive DataCount where
  /-- a fixed count -/
  | fixed (n : Nat)
  /-- `NVAR - 1` (R212) -/
  | nvarLessOne
  /-- `NVAR + 1` (R214) -/
  | nvarPlusOne
  deriving DecidableEq, Repr

/-- One step of a step list: those of R210, the length check of R212, and the reads of the handshake primitives (R180
to R186; log entry 12). -/
inductive Micro where
  | tx (frame : List Byte) (site : Option Site)
  | ack (site : Site)
  | poll (site : Site)
  | len
  | rejectZeroLen
  | data (n : DataCount)
  | initAck
  | response
  | pollResponse
  deriving DecidableEq, Repr

/-- The count of a DATA step, in natural numbers. -/
def DataCount.bytes (n : DataCount) (s : State) : Nat :=
  match n with
  | .fixed k => k
  | .nvarLessOne => s.nvar.toNat - 1
  | .nvarPlusOne => s.nvar.toNat + 1

/-- A DATA step: no read at all for a count of 0 (R210). -/
def dataStep (n : Nat) (s : State) : Progress :=
  if n = 0 then .completed s
  else rxStep n (.err .rxFail none (some .data)) (fun bs s' => .completed { s' with rxbuf := s'.rxbuf ++ bs }) s

/-- One step, from the point it has reached (R210). -/
def perform (m : Micro) (s : State) : Progress :=
  match m with
  | .tx f site => txStep f site s
  | .ack site => rxByte (.err .rxFail none (some site)) (ackByte site) s
  | .poll site => pollLoop (.err .pollBudgetExhausted none (some site)) (ackByte site) s.rxq s
  | .len => rxByte (.err .rxFail none (some .lenByte)) (fun b s' => .completed { s' with nvar := b }) s
  | .rejectZeroLen =>
    if s.nvar = 0 then .ended (.err .badLength (some 0x00) (some .lenByte)) s else .completed s
  | .data n => dataStep (n.bytes s) s
  | .initAck => rxByte (.err .initReadFailed none none) initByte s
  | .response => rxByte (.err .rxFail none none) responseByte s
  | .pollResponse => pollLoop (.err .pollBudgetExhausted none none) responseByte s.rxq s

/-- The start of a step: a poll sets ATT to 0 (R29, R186). Any other step leaves ATT's old count, undefined there (R29;
DESIGN CHOICE, log entry 25). -/
def State.enter (m : Micro) (s : State) : State :=
  match m with
  | .poll _ => { s with att := 0 }
  | .pollResponse => { s with att := 0 }
  | _ => s

/-- `spc <- spc + 1` (R27). -/
def State.nextStep (s : State) : State := { s with spc := s.spc + 1 }

/-- What an operation returns from the bytes it collected when its last step completes. -/
inductive ValueKind where
  | nothing
  | bootloader
  | counters
  | identity
  | data
  deriving DecidableEq, Repr

/-- The value made from RXBUF (R212 to R215, R217). -/
def ValueKind.value (k : ValueKind) (rxbuf : List Byte) : Option Value :=
  match k, rxbuf with
  | .nothing, _ => none
  | .bootloader, version :: opcodes => some (.bootloader version opcodes)
  | .counters, _ :: disable :: enable :: _ => some (.counters disable enable)
  | .identity, bs => some (.identity bs)
  | .data, bs => some (.data bs)
  | _, _ => none

/-- A link operation: its step list and what it returns. -/
structure Plan where
  steps : List Micro
  kind : ValueKind
  deriving DecidableEq, Repr

/-- Run steps from the start of the first, as far as the oracle answers. After the last step the operation returns OK. -/
def runSteps (k : ValueKind) : List Micro → State → State
  | [], s => s.finish (.done (k.value s.rxbuf))
  | m :: ms, s =>
    match perform m (s.enter m) with
    | .completed s' => runSteps k ms s'.nextStep
    | .ended r s' => s'.finish r
    | .waiting s' => s'

/-- Go on with the operation from the step SPC points at, in the middle of which it waits. -/
def Plan.resume (p : Plan) (s : State) : State :=
  match p.steps.drop s.spc with
  | [] => s
  | m :: ms =>
    match perform m s with
    | .completed s' => runSteps p.kind ms s'.nextStep
    | .ended r s' => s'.finish r
    | .waiting s' => s'

/-! ## Requests -/

/-- A codec operation: it answers at once, whatever SYNC and BUSY are, and changes nothing else (R20, R121, R150). -/
def State.codec (i : Instr) (r : Result) (s : State) : State := s.answer (selector i) r

/-- A link operation (R184, R216, R279): the flags first, then the operation's own checks, each answered with nothing
else changed; then acceptance and the steps. -/
def State.request (i : Instr) (duty : SyncDuty) (check : Option Result) (p : Plan) (s : State) : State :=
  match s.admission duty with
  | some r => s.answer (selector i) (.err r none none)
  | none =>
    match check with
    | some r => s.answer (selector i) r
    | none => runSteps p.kind p.steps (s.accept i)

/-- A failed argument check as a result (R216, R274): INVALID_ARGUMENT with its reason and nothing else. -/
def checked (r : Option Reason) : Option Result := r.map fun x => .err x none none

end Sys2Proof.Machine
end

