-- ==== Sys2Proof/Machine/Builders.lean ====
section
/-! DEFINITION. The frame builders (41_codec_builders.md R120 to R127). -/

namespace Sys2Proof.Machine

/-- A builder's result: INVALID_ARGUMENT with the failed check's reason, else the frame (R121). -/
def built (check : Option Reason) (frame : List Byte) : Result :=
  match check with
  | some r => .err r none none
  | none => .done (some (.frame frame))

/-- CMD_FRAME (R120): total; every `op` is accepted. -/
def execCmdFrame (op : Byte) (s : State) : Host.Outcome State Fault Refusal :=
  .next (s.codec (.cmdFrame op) (built none (commandFrame op)))

/-- ADDR_FRAME (R122): every address is accepted. -/
def execAddrFrame (addr : U32) (s : State) : Host.Outcome State Fault Refusal :=
  .next (s.codec (.addrFrame addr) (built none (addressFrame addr)))

/-- LEN_FRAME (R123). -/
def execLenFrame (count : U32) (s : State) : Host.Outcome State Fault Refusal :=
  .next (s.codec (.lenFrame count) (built (rangeCheck count.toNat) (lengthFrame count)))

/-- PAYLOAD_FRAME (R124): the length byte is not checked against the data. -/
def execPayloadFrame (lenByte : Byte) (data : List Byte) (s : State) : Host.Outcome State Fault Refusal :=
  .next (s.codec (.payloadFrame lenByte data) (built (rangeCheck data.length) (payloadBytes lenByte data)))

/-- PAGE_LIST_FRAME (R125). -/
def execPageListFrame (pages : List U16) (s : State) : Host.Outcome State Fault Refusal :=
  .next (s.codec (.pageListFrame pages) (built (pageListCheck pages) (pageListBytes pages)))

/-- SPECIAL_ERASE_FRAME (R126). -/
def execSpecialEraseFrame (code : U16) (s : State) : Host.Outcome State Fault Refusal :=
  .next (s.codec (.specialEraseFrame code) (built (specialCheck code) (specialEraseBytes code)))

/-- WP_PAGE_FRAME (R127). -/
def execWpPageFrame (pages : List Byte) (s : State) : Host.Outcome State Fault Refusal :=
  .next (s.codec (.wpPageFrame pages) (built (rangeCheck pages.length) (wpPageBytes pages)))

end Sys2Proof.Machine
end

