-- ==== Sys2Proof/Machine/Handshake.lean ====
section
/-! DEFINITION. The handshake primitives (43_handshake.md R180 to R186): step lists and meanings. The spec writes them
as pseudocode without step numbers; the numbers are the model's (log entry 12). -/

namespace Sys2Proof.Machine

/-- INIT's steps (R180): the sync byte alone (R87), then its answer. -/
def planInit : Plan := ⟨[.tx [0x7F] none, .initAck], .nothing⟩

/-- SEND_COMMAND's steps (R181). -/
def planSendCommand (op : Byte) : Plan := ⟨[.tx (commandFrame op) none, .response], .nothing⟩

/-- AWAIT_ACK's step (R182). -/
def planAwaitAck : Plan := ⟨[.response], .nothing⟩

/-- POLL_AWAIT_ACK's step (R186). -/
def planPollAwaitAck : Plan := ⟨[.pollResponse], .nothing⟩

/-- SEND_FRAME's step (R185). -/
def planSendFrame (frame : List Byte) : Plan := ⟨[.tx frame none], .nothing⟩

/-- SEND_COMMAND's own check (R181): an opcode outside the command set is refused, and `info` is the opcode. -/
def commandCheck (op : Byte) : Option Result :=
  if commandSet.contains op then none else some (.err .unknownCommand (some op) none)

/-- INIT (R180). -/
def execInit (s : State) : Host.Outcome State Fault Refusal :=
  .next (s.request .autobaudInit .unsynced none planInit)

/-- SEND_COMMAND (R181). -/
def execSendCommand (op : Byte) (s : State) : Host.Outcome State Fault Refusal :=
  .next (s.request (.sendCommand op) .synced (commandCheck op) (planSendCommand op))

/-- AWAIT_ACK (R182). -/
def execAwaitAck (s : State) : Host.Outcome State Fault Refusal :=
  .next (s.request .awaitAck .synced none planAwaitAck)

/-- POLL_AWAIT_ACK (R186). -/
def execPollAwaitAck (s : State) : Host.Outcome State Fault Refusal :=
  .next (s.request .pollAwaitAck .synced none planPollAwaitAck)

/-- SEND_FRAME (R185): the frame is sent as given. -/
def execSendFrame (frame : List Byte) (s : State) : Host.Outcome State Fault Refusal :=
  .next (s.request (.sendFrame frame) .synced (checked (nonEmptyCheck frame)) (planSendFrame frame))

end Sys2Proof.Machine
end

