-- ==== Sys2Proof/Machine/Sequencer.lean ====
section
/-! DEFINITION. The transactions (44_sequencer.md R212 to R225): step lists as the rules number them, and meanings. -/

namespace Sys2Proof.Machine

/-- The command frame and its handshake, with which every transaction begins (R210). -/
def openTxn (op : Byte) (site : Site) : List Micro := [.tx (commandFrame op) (some site), .ack site]

/-- TXN_GET's steps (R212). -/
def planTxnGet : Plan :=
  ⟨openTxn 0x00 .cmdUngated ++ [.len, .rejectZeroLen, .data (.fixed 1), .data .nvarLessOne, .ack .trail], .bootloader⟩

/-- TXN_GET_RPS's steps (R213). -/
def planTxnGetRps : Plan :=
  ⟨openTxn 0x01 .cmdUngated ++ [.data (.fixed 1), .data (.fixed 1), .data (.fixed 1), .ack .trail], .counters⟩

/-- TXN_GET_ID's steps (R214). -/
def planTxnGetId : Plan :=
  ⟨openTxn 0x02 .cmdUngated ++ [.len, .data .nvarPlusOne, .ack .trail], .identity⟩

/-- TXN_READ_CHUNK's steps (R215). -/
def planTxnReadChunk (addr : U32) (count : U32) : Plan :=
  ⟨openTxn 0x11 .cmdGated ++
    [.tx (addressFrame addr) (some .addr), .ack .addr, .tx (lengthFrame count) (some .len), .ack .len,
      .data (.fixed count.toNat)], .data⟩

/-- TXN_WRITE_CHUNK's steps (R219). -/
def planTxnWriteChunk (addr : U32) (data : List Byte) : Plan :=
  ⟨openTxn 0x31 .cmdGated ++
    [.tx (addressFrame addr) (some .addr), .ack .addr,
      .tx (payloadBytes (countByte data.length) data) (some .payload), .ack .payload], .nothing⟩

/-- TXN_ERASE_PAGES's steps (R220). -/
def planTxnErasePages (pages : List U16) : Plan :=
  ⟨openTxn 0x44 .cmdGated ++ [.tx (pageListBytes pages) (some .eraseFinal), .poll .eraseFinal], .nothing⟩

/-- TXN_ERASE_SPECIAL's steps (R221). -/
def planTxnEraseSpecial (code : U16) : Plan :=
  ⟨openTxn 0x44 .cmdGated ++ [.tx (specialEraseBytes code) (some .eraseFinal), .poll .eraseFinal], .nothing⟩

/-- TXN_WRITE_PROTECT's steps (R222). -/
def planTxnWriteProtect (pages : List Byte) : Plan :=
  ⟨openTxn 0x63 .cmdGated ++ [.tx (wpPageBytes pages) (some .wpPages), .ack .wpPages], .nothing⟩

/-- TXN_WRITE_UNPROTECT's steps (R223). -/
def planTxnWriteUnprotect : Plan := ⟨openTxn 0x73 .cmdGated ++ [.ack .trail], .nothing⟩

/-- TXN_READOUT_PROTECT's steps (R224). -/
def planTxnReadoutProtect : Plan := ⟨openTxn 0x82 .cmdGated ++ [.ack .trail], .nothing⟩

/-- TXN_READOUT_UNPROTECT's steps (R225): the one protection command whose first NACK is a violation. -/
def planTxnReadoutUnprotect : Plan := ⟨openTxn 0x92 .cmdUngated ++ [.ack .trail], .nothing⟩

/-- TXN_GET (R212). -/
def execTxnGet (s : State) : Host.Outcome State Fault Refusal :=
  .next (s.request .txnGet .synced none planTxnGet)

/-- TXN_GET_RPS (R213). -/
def execTxnGetRps (s : State) : Host.Outcome State Fault Refusal :=
  .next (s.request .txnGetRps .synced none planTxnGetRps)

/-- TXN_GET_ID (R214). -/
def execTxnGetId (s : State) : Host.Outcome State Fault Refusal :=
  .next (s.request .txnGetId .synced none planTxnGetId)

/-- TXN_READ_CHUNK (R215). -/
def execTxnReadChunk (addr : U32) (count : U32) (s : State) : Host.Outcome State Fault Refusal :=
  .next (s.request (.txnReadChunk addr count) .synced (checked (rangeCheck count.toNat)) (planTxnReadChunk addr count))

/-- TXN_WRITE_CHUNK (R219). -/
def execTxnWriteChunk (addr : U32) (data : List Byte) (s : State) : Host.Outcome State Fault Refusal :=
  .next (s.request (.txnWriteChunk addr data) .synced (checked (writeChunkCheck addr data))
    (planTxnWriteChunk addr data))

/-- TXN_ERASE_PAGES (R220). -/
def execTxnErasePages (pages : List U16) (s : State) : Host.Outcome State Fault Refusal :=
  .next (s.request (.txnErasePages pages) .synced (checked (pageListCheck pages)) (planTxnErasePages pages))

/-- TXN_ERASE_SPECIAL (R221). -/
def execTxnEraseSpecial (code : U16) (s : State) : Host.Outcome State Fault Refusal :=
  .next (s.request (.txnEraseSpecial code) .synced (checked (specialCheck code)) (planTxnEraseSpecial code))

/-- TXN_WRITE_PROTECT (R222). -/
def execTxnWriteProtect (pages : List Byte) (s : State) : Host.Outcome State Fault Refusal :=
  .next (s.request (.txnWriteProtect pages) .synced (checked (rangeCheck pages.length)) (planTxnWriteProtect pages))

/-- TXN_WRITE_UNPROTECT (R223). -/
def execTxnWriteUnprotect (s : State) : Host.Outcome State Fault Refusal :=
  .next (s.request .txnWriteUnprotect .synced none planTxnWriteUnprotect)

/-- TXN_READOUT_PROTECT (R224). -/
def execTxnReadoutProtect (s : State) : Host.Outcome State Fault Refusal :=
  .next (s.request .txnReadoutProtect .synced none planTxnReadoutProtect)

/-- TXN_READOUT_UNPROTECT (R225). -/
def execTxnReadoutUnprotect (s : State) : Host.Outcome State Fault Refusal :=
  .next (s.request .txnReadoutUnprotect .synced none planTxnReadoutUnprotect)

end Sys2Proof.Machine
end

