-- ==== Sys2Proof/Machine/Link.lean ====
section
/-! DEFINITION. What passes on the link while the block runs: frames of the block that the transport has put on the
link, the transport's answers, bytes of the device; and the meanings of the wire rows (30_encoding.md R87, R88, R95,
R100), each the event its row spells. An operation that waits for the oracle goes on as soon as the answer is there. -/

namespace Sys2Proof.Machine

/-- The step list of each link operation; the codec operations and the wire rows have none. -/
def planOf : Instr → Plan
  | .cmdFrame _ => ⟨[], .nothing⟩
  | .addrFrame _ => ⟨[], .nothing⟩
  | .lenFrame _ => ⟨[], .nothing⟩
  | .payloadFrame _ _ => ⟨[], .nothing⟩
  | .pageListFrame _ => ⟨[], .nothing⟩
  | .specialEraseFrame _ => ⟨[], .nothing⟩
  | .wpPageFrame _ => ⟨[], .nothing⟩
  | .checkComplement _ => ⟨[], .nothing⟩
  | .checkXor _ => ⟨[], .nothing⟩
  | .decodeCmdFrame _ => ⟨[], .nothing⟩
  | .decodeAddrFrame _ => ⟨[], .nothing⟩
  | .decodeLenFrame _ => ⟨[], .nothing⟩
  | .decodePayloadFrame _ => ⟨[], .nothing⟩
  | .decodePageListFrame _ => ⟨[], .nothing⟩
  | .decodeSpecialEraseFrame _ => ⟨[], .nothing⟩
  | .autobaudInit => planInit
  | .sendCommand a => planSendCommand a
  | .awaitAck => planAwaitAck
  | .pollAwaitAck => planPollAwaitAck
  | .sendFrame a => planSendFrame a
  | .txnGet => planTxnGet
  | .txnGetRps => planTxnGetRps
  | .txnGetId => planTxnGetId
  | .txnReadChunk a b => planTxnReadChunk a b
  | .txnWriteChunk a b => planTxnWriteChunk a b
  | .txnErasePages a => planTxnErasePages a
  | .txnEraseSpecial a => planTxnEraseSpecial a
  | .txnWriteProtect a => planTxnWriteProtect a
  | .txnWriteUnprotect => planTxnWriteUnprotect
  | .txnReadoutProtect => planTxnReadoutProtect
  | .txnReadoutUnprotect => planTxnReadoutUnprotect
  | .wireGet => ⟨[], .nothing⟩
  | .wireGetRps => ⟨[], .nothing⟩
  | .wireGetId => ⟨[], .nothing⟩
  | .wireReadMemory => ⟨[], .nothing⟩
  | .wireWriteMemory => ⟨[], .nothing⟩
  | .wireExtendedErase => ⟨[], .nothing⟩
  | .wireWriteProtect => ⟨[], .nothing⟩
  | .wireWriteUnprotect => ⟨[], .nothing⟩
  | .wireReadoutProtect => ⟨[], .nothing⟩
  | .wireReadoutUnprotect => ⟨[], .nothing⟩
  | .wireSync => ⟨[], .nothing⟩
  | .wireAck => ⟨[], .nothing⟩
  | .wireNack => ⟨[], .nothing⟩

/-- The operation in flight, if any, goes on with the answers the oracle has given. -/
def State.resume (s : State) : State :=
  if s.busy then
    match s.cur with
    | some i => (planOf i).resume s
    | none => s
  else s

/-- The step SPC points at, where an operation is in flight. -/
def State.currentStep (s : State) : Option Micro :=
  if s.busy then s.cur.bind fun i => (planOf i).steps[s.spc]? else none

/-- The frame the block is writing: that of the TX step it waits in (R16, R66). -/
def State.writing (s : State) : Option (List Byte) :=
  match s.currentStep with
  | some (.tx f _) => some f
  | _ => none

/-- The transport answers a write (R16). -/
def State.txAnswered (o : TxOutcome) (s : State) : State := { s with txq := s.txq ++ [o] }.resume

/-- A whole frame of the block has passed on the link, so its write is done (R61). Only the block writes frames, so one
it is not writing changes nothing (log entry 14). -/
def State.frameSent (f : List Byte) (s : State) : State :=
  if s.writing = some f then s.txAnswered .ok else s

/-- Bytes of the device arrive. They are what the next reads get, now or later (R278, R323). -/
def State.bytesArrive (bs : List Byte) (s : State) : State := { s with rxq := s.rxq ++ bs.map some }.resume

/-- The transport fails a read (R51). -/
def State.readFails (s : State) : State := { s with rxq := s.rxq ++ [none] }.resume

/-- Wire row GET: its command frame passes on the link (R88, R100; R212). -/
def execWireGet (s : State) : Host.Outcome State Fault Refusal := .next (s.frameSent (commandFrame 0x00))

/-- Wire row GET_RPS: its command frame passes on the link (R88, R100; R213). -/
def execWireGetRps (s : State) : Host.Outcome State Fault Refusal := .next (s.frameSent (commandFrame 0x01))

/-- Wire row GET_ID: its command frame passes on the link (R88, R100; R214). -/
def execWireGetId (s : State) : Host.Outcome State Fault Refusal := .next (s.frameSent (commandFrame 0x02))

/-- Wire row READ_MEMORY: its command frame passes on the link (R88, R100; R215). -/
def execWireReadMemory (s : State) : Host.Outcome State Fault Refusal := .next (s.frameSent (commandFrame 0x11))

/-- Wire row WRITE_MEMORY: its command frame passes on the link (R88, R100; R219). -/
def execWireWriteMemory (s : State) : Host.Outcome State Fault Refusal := .next (s.frameSent (commandFrame 0x31))

/-- Wire row EXTENDED_ERASE: its command frame passes on the link (R88, R100; R220, R221). -/
def execWireExtendedErase (s : State) : Host.Outcome State Fault Refusal := .next (s.frameSent (commandFrame 0x44))

/-- Wire row WRITE_PROTECT: its command frame passes on the link (R88, R100; R222). -/
def execWireWriteProtect (s : State) : Host.Outcome State Fault Refusal := .next (s.frameSent (commandFrame 0x63))

/-- Wire row WRITE_UNPROTECT: its command frame passes on the link (R88, R100; R223). -/
def execWireWriteUnprotect (s : State) : Host.Outcome State Fault Refusal := .next (s.frameSent (commandFrame 0x73))

/-- Wire row READOUT_PROTECT: its command frame passes on the link (R88, R100; R224). -/
def execWireReadoutProtect (s : State) : Host.Outcome State Fault Refusal := .next (s.frameSent (commandFrame 0x82))

/-- Wire row READOUT_UNPROTECT: its command frame passes on the link (R88, R100; R225). -/
def execWireReadoutUnprotect (s : State) : Host.Outcome State Fault Refusal := .next (s.frameSent (commandFrame 0x92))

/-- Wire row SYNC: the sync byte passes on the link, alone (R87; R180). -/
def execWireSync (s : State) : Host.Outcome State Fault Refusal := .next (s.frameSent [0x7F])

/-- Wire row ACK: the device answers 0x79 (R95; R183). -/
def execWireAck (s : State) : Host.Outcome State Fault Refusal := .next (s.bytesArrive [0x79])

/-- Wire row NACK: the device answers 0x1F (R95; R183). -/
def execWireNack (s : State) : Host.Outcome State Fault Refusal := .next (s.bytesArrive [0x1F])

end Sys2Proof.Machine
end

