-- ==== Sys2Proof/Machine/Validators.lean ====
section
/-! DEFINITION. The frame validators (42_codec_validators.md R150 to R158). Each runs its checks in the order of R150:
length, checksum, content. -/

namespace Sys2Proof.Machine

/-- `BadFrameLength` (R150 item 1). -/
def badLength : Result := .err .badFrameLength none none

/-- `ChecksumMismatch` (R150 item 2). -/
def badSum : Result := .err .checksumMismatch none none

/-- CHECK_COMPLEMENT's result (R151). -/
def complementResult : List Byte → Result
  | [b0, b1] => .done (some (.bool (b1 = cpl b0)))
  | _ => badLength

/-- CHECK_XOR's result (R154). -/
def xorResult (frame : List Byte) : Result :=
  if frame.length = 0 then badLength
  else .done (some (.bool (frame.getLast? = some (xorfold frame.dropLast))))

/-- DECODE_CMD_FRAME's result (R152). -/
def cmdFrameResult : List Byte → Result
  | [b0, b1] =>
    if b1 ≠ cpl b0 then badSum
    else if commandSet.contains b0 then .done (some (.command b0))
    else .err .notACommand (some b0) none
  | _ => badLength

/-- DECODE_ADDR_FRAME's result (R155). -/
def addrFrameResult : List Byte → Result
  | [b0, b1, b2, b3, b4] =>
    if xorfold [b0, b1, b2, b3, b4] ≠ 0 then badSum else .done (some (.address (fromBe32 b0 b1 b2 b3)))
  | _ => badLength

/-- DECODE_LEN_FRAME's result (R153). -/
def lenFrameResult : List Byte → Result
  | [b0, b1] => if b1 ≠ cpl b0 then badSum else .done (some (.count (b0.zeroExtend 32 + 1)))
  | _ => badLength

/-- DECODE_PAYLOAD_FRAME's result (R156). -/
def payloadFrameResult (frame : List Byte) : Result :=
  if frame.length < 3 ∨ 258 < frame.length then badLength
  else if xorfold frame ≠ 0 then badSum
  else match frame with
    | b0 :: rest => .done (some (.payload b0 rest.dropLast (b0.toNat + 1 = rest.dropLast.length)))
    | [] => badLength

/-- The pages of a page-list frame of good length and checksum, checked as R157 writes it; `n` is the decoded count. -/
def pagesResult (n : Nat) (pages : List U16) : Result :=
  if 65533 ≤ n then .err .reservedSentinel none none
  else if pages.any (sentinels.contains ·) then .err .reservedSentinel none none
  else .done (some (.pages pages))

/-- DECODE_PAGE_LIST_FRAME's result (R157). -/
def pageListFrameResult (frame : List Byte) : Result :=
  if frame.length < 5 then badLength
  else match frame with
    | b0 :: b1 :: rest =>
      let n := (fromBe16 b0 b1).toNat + 1
      if frame.length ≠ 2 * n + 3 then badLength
      else if xorfold frame ≠ 0 then badSum
      else pagesResult n (pairs16 rest.dropLast)
    | _ => badLength

/-- DECODE_SPECIAL_ERASE_FRAME's result (R158). -/
def specialFrameResult : List Byte → Result
  | [b0, b1, b2] =>
    if xorfold [b0, b1, b2] ≠ 0 then badSum
    else if sentinels.contains (fromBe16 b0 b1) then .done (some (.code (fromBe16 b0 b1)))
    else .err .notSentinel none none
  | _ => badLength

/-- CHECK_COMPLEMENT (R151). -/
def execCheckComplement (frame : List Byte) (s : State) : Host.Outcome State Fault Refusal :=
  .next (s.codec (.checkComplement frame) (complementResult frame))

/-- CHECK_XOR (R154). -/
def execCheckXor (frame : List Byte) (s : State) : Host.Outcome State Fault Refusal :=
  .next (s.codec (.checkXor frame) (xorResult frame))

/-- DECODE_CMD_FRAME (R152). -/
def execDecodeCmdFrame (frame : List Byte) (s : State) : Host.Outcome State Fault Refusal :=
  .next (s.codec (.decodeCmdFrame frame) (cmdFrameResult frame))

/-- DECODE_ADDR_FRAME (R155). -/
def execDecodeAddrFrame (frame : List Byte) (s : State) : Host.Outcome State Fault Refusal :=
  .next (s.codec (.decodeAddrFrame frame) (addrFrameResult frame))

/-- DECODE_LEN_FRAME (R153). -/
def execDecodeLenFrame (frame : List Byte) (s : State) : Host.Outcome State Fault Refusal :=
  .next (s.codec (.decodeLenFrame frame) (lenFrameResult frame))

/-- DECODE_PAYLOAD_FRAME (R156). -/
def execDecodePayloadFrame (frame : List Byte) (s : State) : Host.Outcome State Fault Refusal :=
  .next (s.codec (.decodePayloadFrame frame) (payloadFrameResult frame))

/-- DECODE_PAGE_LIST_FRAME (R157). -/
def execDecodePageListFrame (frame : List Byte) (s : State) : Host.Outcome State Fault Refusal :=
  .next (s.codec (.decodePageListFrame frame) (pageListFrameResult frame))

/-- DECODE_SPECIAL_ERASE_FRAME (R158). -/
def execDecodeSpecialEraseFrame (frame : List Byte) (s : State) : Host.Outcome State Fault Refusal :=
  .next (s.codec (.decodeSpecialEraseFrame frame) (specialFrameResult frame))

end Sys2Proof.Machine
end

