-- ==== Sys2Proof/Machine/Dispatch.lean ====
section
/-! DEFINITION. One arm per constructor of Instr, each a direct call of its meaning. -/

namespace Sys2Proof.Machine

def exec (i : Instr) (s : State) : Host.Outcome State Fault Refusal :=
  match i with
  | .cmdFrame a => Sys2Proof.Machine.execCmdFrame a s
  | .addrFrame a => Sys2Proof.Machine.execAddrFrame a s
  | .lenFrame a => Sys2Proof.Machine.execLenFrame a s
  | .payloadFrame a b => Sys2Proof.Machine.execPayloadFrame a b s
  | .pageListFrame a => Sys2Proof.Machine.execPageListFrame a s
  | .specialEraseFrame a => Sys2Proof.Machine.execSpecialEraseFrame a s
  | .wpPageFrame a => Sys2Proof.Machine.execWpPageFrame a s
  | .checkComplement a => Sys2Proof.Machine.execCheckComplement a s
  | .checkXor a => Sys2Proof.Machine.execCheckXor a s
  | .decodeCmdFrame a => Sys2Proof.Machine.execDecodeCmdFrame a s
  | .decodeAddrFrame a => Sys2Proof.Machine.execDecodeAddrFrame a s
  | .decodeLenFrame a => Sys2Proof.Machine.execDecodeLenFrame a s
  | .decodePayloadFrame a => Sys2Proof.Machine.execDecodePayloadFrame a s
  | .decodePageListFrame a => Sys2Proof.Machine.execDecodePageListFrame a s
  | .decodeSpecialEraseFrame a => Sys2Proof.Machine.execDecodeSpecialEraseFrame a s
  | .autobaudInit => Sys2Proof.Machine.execInit s
  | .sendCommand a => Sys2Proof.Machine.execSendCommand a s
  | .awaitAck => Sys2Proof.Machine.execAwaitAck s
  | .pollAwaitAck => Sys2Proof.Machine.execPollAwaitAck s
  | .sendFrame a => Sys2Proof.Machine.execSendFrame a s
  | .txnGet => Sys2Proof.Machine.execTxnGet s
  | .txnGetRps => Sys2Proof.Machine.execTxnGetRps s
  | .txnGetId => Sys2Proof.Machine.execTxnGetId s
  | .txnReadChunk a b => Sys2Proof.Machine.execTxnReadChunk a b s
  | .txnWriteChunk a b => Sys2Proof.Machine.execTxnWriteChunk a b s
  | .txnErasePages a => Sys2Proof.Machine.execTxnErasePages a s
  | .txnEraseSpecial a => Sys2Proof.Machine.execTxnEraseSpecial a s
  | .txnWriteProtect a => Sys2Proof.Machine.execTxnWriteProtect a s
  | .txnWriteUnprotect => Sys2Proof.Machine.execTxnWriteUnprotect s
  | .txnReadoutProtect => Sys2Proof.Machine.execTxnReadoutProtect s
  | .txnReadoutUnprotect => Sys2Proof.Machine.execTxnReadoutUnprotect s
  | .wireGet => Sys2Proof.Machine.execWireGet s
  | .wireGetRps => Sys2Proof.Machine.execWireGetRps s
  | .wireGetId => Sys2Proof.Machine.execWireGetId s
  | .wireReadMemory => Sys2Proof.Machine.execWireReadMemory s
  | .wireWriteMemory => Sys2Proof.Machine.execWireWriteMemory s
  | .wireExtendedErase => Sys2Proof.Machine.execWireExtendedErase s
  | .wireWriteProtect => Sys2Proof.Machine.execWireWriteProtect s
  | .wireWriteUnprotect => Sys2Proof.Machine.execWireWriteUnprotect s
  | .wireReadoutProtect => Sys2Proof.Machine.execWireReadoutProtect s
  | .wireReadoutUnprotect => Sys2Proof.Machine.execWireReadoutUnprotect s
  | .wireSync => Sys2Proof.Machine.execWireSync s
  | .wireAck => Sys2Proof.Machine.execWireAck s
  | .wireNack => Sys2Proof.Machine.execWireNack s

end Sys2Proof.Machine
end

