-- ==== Sys2Proof/Machine/Fetch.lean ====
section
/-! DEFINITION. Taking the next input apart: the instruction its bytes spell, what an input that is no row of the
opcode table does, and how a word of the table is presented (30_encoding.md R81, R84, R100). -/

namespace Sys2Proof.Machine

/-- What is left of the bytes of a channel after an instruction: nothing, or an input that holds the rest. -/
def leftOver (c : Channel) (bs : List Byte) : List Input := if bs.isEmpty then [] else [.port c bs]

/-- The instruction an input spells, and what is left of the input. None for every input that is no instruction. -/
def fetch : Input → Option (Instr × List Input)
  | .port c bs => (decode c bs).map fun x => (x.1, leftOver c x.2)
  | _ => none

/-- Bytes at the request port that spell no request: `REFUSED(IllegalOp)` with `info = OPSEL`, for an unassigned
selector and for operands cut short, whatever the flags (R84, R279). The rest of the input is dropped; an input of no
bytes is no request (log entry 9). -/
def State.illegalRequest (bs : List Byte) (s : State) : State :=
  match bs with
  | [] => s
  | opsel :: _ => s.answer opsel (.err .illegalOp (some opsel) none)

/-- A block reset (R310): SYNC, BUSY, RXBUF and HIST take their values of R40; the spec leaves TXN, SPC, NVAR and ATT
undefined and POLL_BUDGET, the transport and the device untouched (R312; log entry 13). It comes to an idle block alone. -/
def State.blockReset (s : State) : State :=
  { s with sync := false, busy := false, rxbuf := [], hist := [], cur := none }

/-- An input that spells no instruction. A new session while BUSY = 1 is no act the spec allows (R310, R322; log entry
13). -/
def outside (inp : Input) (s : State) : Host.Outcome State Fault Refusal :=
  match inp with
  | .port .request bs => .next (s.illegalRequest bs)
  | .port .toDevice bs => .next (s.frameSent bs)
  | .port .fromDevice bs => .next (s.bytesArrive bs)
  | .txAnswer o => .next (s.txAnswered o)
  | .readFails => .next s.readFails
  | .setPollBudget n => if n = 0 then .refused .pollBudgetZero else .next { s with pollBudget := n }
  | .writeCtrlstat b => .next (s.writeCtrlstat b)
  | .newSession => if s.busy then .refused .sessionWhileBusy else .next s.blockReset

/-- The outside does nothing more: an idle block waits (R311), and one whose operation waits for an answer is stuck
(R227; log entries 4 and 5). -/
def noInput (s : State) : Host.Outcome State Fault Refusal :=
  if s.busy then .fault .transportSilent else .next s

/-- A word of the opcode table as the next input. -/
def tableInput (nbits w : Nat) : Input := .port (tableBytes nbits w).1 (tableBytes nbits w).2

end Sys2Proof.Machine
end

