-- ==== Sys2Proof/Machine/Step.lean ====
section
/-! DEFINITION. One step: the next input is taken, and the instruction it spells runs (log entry 2). -/

namespace Sys2Proof.Machine

/-- One step of the machine. -/
def step (s : State) : Host.Outcome State Fault Refusal :=
  match s.inputs with
  | [] => noInput s
  | inp :: rest =>
    match fetch inp with
    | some (i, left) => exec i { s with inputs := left ++ rest }
    | none => outside inp { s with inputs := rest }

/-- The state with a word of the opcode table as its next input, so that `step` runs exactly it (log entry 16). -/
def State.withFetchWord (s : State) (nbits w : Nat) : State := { s with inputs := tableInput nbits w :: s.inputs }

end Sys2Proof.Machine
end

