-- ==== Sys2Proof/Machine/Caller.lean ====
section
/-! DEFINITION. The caller-side sequences READ_REGION and WRITE_REGION (45_caller_sequences.md R250 to R254; the
pseudo-operations of 30_encoding.md R108). They are outside the block (00_scope.md R7 item c): no step runs them; they
say which requests a caller makes and what it makes of the results (log entry 19). -/

namespace Sys2Proof.Machine

/-- The caller makes a request and takes its result; none where the operation waits for an answer of the oracle. -/
def callBlock (i : Instr) (s : State) : State × Option Result :=
  match exec i s with
  | .next t => (t, if s.results.length < t.results.length then t.results.getLast?.map (·.result) else none)
  | .fault _ => (s, none)
  | .refused _ => (s, none)

/-- What a caller gets from an expansion. -/
inductive RegionResult where
  /-- OK, or the failing chunk's or the check's result unchanged -/
  | finished (r : Result)
  /-- PARTIALLY_APPLIED with its three fields (R254); no cause where the caller stopped (R253) -/
  | partiallyApplied (completed : Nat) (failedAt : U32) (cause : Option Result)
  /-- the caller stopped a READ_REGION between two chunks (R253); there is no result (log entry 24) -/
  | stopped
  /-- the current chunk's transaction waits for an answer of the oracle (R227) -/
  | waiting
  deriving DecidableEq, Repr

/-! ## Chunks -/

/-- The offset and size of each chunk, by the loop of R250 and R252; the first argument bounds the turns. -/
def chunksFrom : Nat → Nat → Nat → List (Nat × Nat)
  | 0, _, _ => []
  | k + 1, off, len =>
    if off < len then (off, min (len - off) maxChunk) :: chunksFrom k (off + min (len - off) maxChunk) len else []

/-- The chunks of a region of `len` bytes (R250 to R252). -/
def regionChunks (len : Nat) : List (Nat × Nat) := chunksFrom len 0 len

/-- The address of a chunk at an offset. -/
def chunkAddr (addr : U32) (off : Nat) : U32 := addr + BitVec.ofNat 32 off

/-- The transaction of a READ_REGION chunk (R250). -/
def readChunk (addr : U32) (chunk : Nat × Nat) : Instr :=
  .txnReadChunk (chunkAddr addr chunk.1) (BitVec.ofNat 32 chunk.2)

/-- The transaction of a WRITE_REGION chunk (R252). -/
def writeChunk (addr : U32) (data : List Byte) (chunk : Nat × Nat) : Instr :=
  .txnWriteChunk (chunkAddr addr chunk.1) ((data.drop chunk.1).take chunk.2)

/-- How a run over chunks ended. -/
inductive ChunkRun where
  /-- every chunk succeeded, with these results -/
  | completed (rs : List Result)
  /-- the caller stopped before the chunk at this offset (R253) -/
  | stopped (off : Nat)
  /-- the chunk at this offset failed with this result -/
  | failed (off : Nat) (r : Result)
  /-- a chunk's transaction waits for an answer of the oracle (R227) -/
  | waiting
  deriving DecidableEq, Repr

/-- A successful chunk's result before those of the chunks after it. -/
def ChunkRun.after (r : Result) : ChunkRun → ChunkRun
  | .completed rs => .completed (r :: rs)
  | .stopped off => .stopped off
  | .failed off r' => .failed off r'
  | .waiting => .waiting

/-- The loop both expansions share (R250, R252): one transaction per chunk, up to the first that fails. `more` is how many
chunks the caller still lets run before it stops between two of them (R253), or none where it does not stop. -/
def runChunks (call : Nat × Nat → Instr) : List (Nat × Nat) → Option Nat → State → State × ChunkRun
  | [], _, s => (s, .completed [])
  | chunk :: _, some 0, s => (s, .stopped chunk.1)
  | chunk :: rest, more, s =>
    match callBlock (call chunk) s with
    | (t, none) => (t, .waiting)
    | (t, some r) =>
      if r.status = .ok then
        ((runChunks call rest (more.map (· - 1)) t).1, (runChunks call rest (more.map (· - 1)) t).2.after r)
      else (t, .failed chunk.1 r)

/-! ## The expansions -/

/-- READ_REGION's checks (R250). A region length has 32 bits (00_scope.md R8). -/
def readRegionCheck (addr len : U32) : Option Reason :=
  if len = 0 then some .range else if 2 ^ 32 < addr.toNat + len.toNat then some .range else none

/-- WRITE_REGION's checks, in the order of R252. Data whose length has no 32 bits (00_scope.md R8) is out of range too (log
entry 23). -/
def writeRegionCheck (addr : U32) (len : Nat) : Option Reason :=
  if len = 0 then some .range
  else if addr.toNat % 4 ≠ 0 then some .misaligned
  else if 2 ^ 32 < addr.toNat + len ∨ 2 ^ 32 ≤ len then some .range
  else none

/-- The data a read chunk returned. -/
def Result.bytes (r : Result) : List Byte :=
  match r.value with
  | some (.data bs) => bs
  | _ => []

/-- What READ_REGION makes of its chunks (R250, R253): no partial data is returned. -/
def readOutcome : ChunkRun → RegionResult
  | .completed rs => .finished (.done (some (.data (rs.flatMap Result.bytes))))
  | .stopped _ => .stopped
  | .failed _ r => .finished r
  | .waiting => .waiting

/-- What WRITE_REGION makes of its chunks (R252 to R254). -/
def writeOutcome (addr : U32) : ChunkRun → RegionResult
  | .completed _ => .finished (.done none)
  | .stopped off => .partiallyApplied off (chunkAddr addr off) none
  | .failed off r => if off = 0 then .finished r else .partiallyApplied off (chunkAddr addr off) (some r)
  | .waiting => .waiting

/-- READ_REGION (R250). `stopAfter` is one less than the number of chunks after which the caller stops (R253), or none. -/
def readRegion (addr len : U32) (stopAfter : Option Nat) (s : State) : State × RegionResult :=
  match readRegionCheck addr len with
  | some r => (s, .finished (.err r none none))
  | none =>
    let run := runChunks (readChunk addr) (regionChunks len.toNat) (stopAfter.map (· + 1)) s
    (run.1, readOutcome run.2)

/-- WRITE_REGION (R252). `stopAfter` is one less than the number of chunks after which the caller stops (R253), or none. -/
def writeRegion (addr : U32) (data : List Byte) (stopAfter : Option Nat) (s : State) : State × RegionResult :=
  match writeRegionCheck addr data.length with
  | some r => (s, .finished (.err r none none))
  | none =>
    let run := runChunks (writeChunk addr data) (regionChunks data.length) (stopAfter.map (· + 1)) s
    (run.1, writeOutcome addr run.2)

/-- Status of what the caller gets (R85, R254). -/
def RegionResult.status : RegionResult → Option Status
  | .finished r => some r.status
  | .partiallyApplied _ _ _ => some .partiallyApplied
  | .stopped => none
  | .waiting => none

/-- Reason of what the caller gets (R86, R254). -/
def RegionResult.reason : RegionResult → Option Reason
  | .finished r => some r.reason
  | .partiallyApplied _ _ _ => some .partWritten
  | .stopped => none
  | .waiting => none

end Sys2Proof.Machine
end

