-- ==== Sys2Proof/Safety.lean ====
section
/-! DEFINITION. What counts as a well-formed state and a safe run of the block, in the terms the statements use. -/

namespace Sys2Proof.Machine

/-! ## Kinds of instruction (30_encoding.md R80) -/

/-- The frame builders and validators: the codec operations (R20). -/
def isCodec : Instr → Bool
  | .cmdFrame _ | .addrFrame _ | .lenFrame _ | .payloadFrame _ _ | .pageListFrame _ | .specialEraseFrame _
  | .wpPageFrame _ | .checkComplement _ | .checkXor _ | .decodeCmdFrame _ | .decodeAddrFrame _ | .decodeLenFrame _
  | .decodePayloadFrame _ | .decodePageListFrame _ | .decodeSpecialEraseFrame _ => true
  | .autobaudInit | .sendCommand _ | .awaitAck | .pollAwaitAck | .sendFrame _ | .txnGet | .txnGetRps | .txnGetId
  | .txnReadChunk _ _ | .txnWriteChunk _ _ | .txnErasePages _ | .txnEraseSpecial _ | .txnWriteProtect _
  | .txnWriteUnprotect | .txnReadoutProtect | .txnReadoutUnprotect => false
  | .wireGet | .wireGetRps | .wireGetId | .wireReadMemory | .wireWriteMemory | .wireExtendedErase | .wireWriteProtect
  | .wireWriteUnprotect | .wireReadoutProtect | .wireReadoutUnprotect | .wireSync | .wireAck | .wireNack => false

/-- The transactions (44_sequencer.md). -/
def isTransaction : Instr → Bool
  | .txnGet | .txnGetRps | .txnGetId | .txnReadChunk _ _ | .txnWriteChunk _ _ | .txnErasePages _ | .txnEraseSpecial _
  | .txnWriteProtect _ | .txnWriteUnprotect | .txnReadoutProtect | .txnReadoutUnprotect => true
  | .cmdFrame _ | .addrFrame _ | .lenFrame _ | .payloadFrame _ _ | .pageListFrame _ | .specialEraseFrame _
  | .wpPageFrame _ | .checkComplement _ | .checkXor _ | .decodeCmdFrame _ | .decodeAddrFrame _ | .decodeLenFrame _
  | .decodePayloadFrame _ | .decodePageListFrame _ | .decodeSpecialEraseFrame _ => false
  | .autobaudInit | .sendCommand _ | .awaitAck | .pollAwaitAck | .sendFrame _ => false
  | .wireGet | .wireGetRps | .wireGetId | .wireReadMemory | .wireWriteMemory | .wireExtendedErase | .wireWriteProtect
  | .wireWriteUnprotect | .wireReadoutProtect | .wireReadoutUnprotect | .wireSync | .wireAck | .wireNack => false

/-- The link operations: handshake primitives and transactions (R184). -/
def isLinkOp (i : Instr) : Bool := !isCodec i && decide (channel i = .request)

/-- The operation's own argument checks pass (R181, R185, R215, R219 to R222); false of what is no link operation. -/
def Admissible : Instr → Prop
  | .autobaudInit | .awaitAck | .pollAwaitAck => True
  | .sendCommand op => op ∈ commandSet
  | .sendFrame frame => frame ≠ []
  | .txnGet | .txnGetRps | .txnGetId | .txnWriteUnprotect | .txnReadoutProtect | .txnReadoutUnprotect => True
  | .txnReadChunk _ count => 1 ≤ count.toNat ∧ count.toNat ≤ 256
  | .txnWriteChunk addr data => addr.toNat % 4 = 0 ∧ 1 ≤ data.length ∧ data.length ≤ 256
  | .txnErasePages pages => 1 ≤ pages.length ∧ pages.length ≤ 65532 ∧ ∀ p ∈ pages, p.toNat < 65533
  | .txnEraseSpecial code => 65533 ≤ code.toNat
  | .txnWriteProtect pages => 1 ≤ pages.length ∧ pages.length ≤ 256
  | .cmdFrame _ | .addrFrame _ | .lenFrame _ | .payloadFrame _ _ | .pageListFrame _ | .specialEraseFrame _
  | .wpPageFrame _ | .checkComplement _ | .checkXor _ | .decodeCmdFrame _ | .decodeAddrFrame _ | .decodeLenFrame _
  | .decodePayloadFrame _ | .decodePageListFrame _ | .decodeSpecialEraseFrame _ => False
  | .wireGet | .wireGetRps | .wireGetId | .wireReadMemory | .wireWriteMemory | .wireExtendedErase | .wireWriteProtect
  | .wireWriteUnprotect | .wireReadoutProtect | .wireReadoutUnprotect | .wireSync | .wireAck | .wireNack => False

/-! ## Well-formed records -/

/-- A link event as a primitive makes it: a frame has a byte, a read asks for a byte and gets what it asked (R16, R51). -/
def Event.WellFormed : Event → Prop
  | .tx frame _ => 1 ≤ frame.length
  | .rx n (.ok bytes) => 1 ≤ n ∧ bytes.length = n
  | .rx n .fail => 1 ≤ n

/-- A result as the block makes it (R81, R85, R86): its status is that of its reason, it has a value only with status
OK, and it is never PARTIALLY_APPLIED. -/
def Result.WellFormed (r : Result) : Prop :=
  r.status = r.reason.status ∧ (r.status ≠ .ok → r.value = none) ∧ r.status ≠ .partiallyApplied

/-! ## What a codec operation answers -/

/-- The operation answers `r` at once in every state, and changes nothing else (R20). -/
def Answers (i : Instr) (r : Result) : Prop :=
  ∀ s : State, exec i s = .next { s with results := s.results ++ [⟨selector i, r⟩] }

/-- The builder returns the frame `f` (R121). -/
def Builds (i : Instr) (f : List Byte) : Prop := Answers i ⟨.ok, .none, none, none, some (.frame f)⟩

/-- A frame with bit `j` of byte `k` flipped (R129). -/
def flipBit (f : List Byte) (k j : Nat) : List Byte := f.modify k fun b => b ^^^ (1#8 <<< j)

/-! ## The invariant of the block -/

/-- What every step keeps (R22 to R31, R189, R226, R227). -/
structure State.Inv (s : State) : Prop where
  /-- POLL_BUDGET is at least 1 (R9) -/
  pollBudget_pos : 1 ≤ s.pollBudget
  /-- an idle block has no operation in flight -/
  idle : s.busy = false → s.cur = none
  /-- BUSY = 1 only while an admitted operation runs, and TXN is its selector (R23, R26) -/
  inFlight : s.busy = true → ∃ i, s.cur = some i ∧ Admissible i ∧ s.txn = selector i
  /-- SPC points at a step of the list (R27) -/
  spc_inRange : ∀ i, s.busy = true → s.cur = some i → s.spc < (planOf i).steps.length
  /-- only INIT runs with SYNC = 0, and it only then (R189) -/
  syncDuty : ∀ i, s.busy = true → s.cur = some i → (s.sync = false ↔ i = .autobaudInit)
  /-- the block waits only for an answer the oracle withholds (R227) -/
  starved : ∀ m, s.currentStep = some m → perform m s = .waiting s
  /-- a poll has attempts left (R186) -/
  attempts : ∀ m, s.currentStep = some m → (m = .pollResponse ∨ ∃ site, m = .poll site) → s.att < s.budget
  /-- the latched budget is at least 1 (R9, R25) -/
  budget_pos : s.busy = true → 1 ≤ s.budget
  /-- link events are well formed (R16, R31, R51) -/
  hist_wf : ∀ e ∈ s.hist, e.WellFormed
  /-- results are well formed (R81, R85, R86) -/
  results_wf : ∀ a ∈ s.results, a.result.WellFormed

/-! ## Safe link histories (70_reset_and_hazards.md R317) -/

/-- INIT has succeeded within a link history: the sync byte was written and ACK was read next (R180). -/
def InitSucceeded (h : List Event) : Prop := [Event.tx [0x7F] .ok, Event.rx 1 (.ok [0x79])] <:+: h

/-- No frame but the sync byte has reached the link before INIT succeeded (R317). -/
def NoFrameBeforeInit (h : List Event) : Prop :=
  ∀ before frame outcome after, h = before ++ Event.tx frame outcome :: after → frame = [0x7F] ∨ InitSucceeded before

/-- What every step keeps of the link history (R317). -/
structure State.LinkSafe (s : State) : Prop where
  /-- no frame before INIT -/
  noFrameBeforeInit : NoFrameBeforeInit s.hist
  /-- SYNC = 1 only after INIT succeeded (R22) -/
  synced : s.sync = true → InitSucceeded s.hist
  /-- INIT, waiting for its answer, has just written the sync byte -/
  initWaits : s.busy = true → s.cur = some .autobaudInit → s.spc = 1 → ∃ h, s.hist = h ++ [.tx [0x7F] .ok]

/-! ## What moves SYNC (10_state.md R22) -/

/-- The instruction the next input spells. -/
def State.nextInstr (s : State) : Option Instr := (s.inputs.head?.bind fetch).map Prod.fst

/-- From `s` to `t` SYNC is cleared only with a PROTOCOL_VIOLATION result, and set only with an OK result where `init` says
that INIT runs; and a PROTOCOL_VIOLATION result leaves SYNC = 0 and BUSY = 0 (R22, R184, R272). -/
structure SyncFollows (init : Prop) (s t : State) : Prop where
  cleared : s.sync = true → t.sync = false → ∃ a, t.results = s.results ++ [a] ∧ a.result.status = .protocolViolation
  set : s.sync = false → t.sync = true → init ∧ ∃ a, t.results = s.results ++ [a] ∧ a.result.status = .ok
  violation : ∀ a, t.results = s.results ++ [a] → a.result.status = .protocolViolation → t.sync = false ∧ t.busy = false

/-! ## Chunks of a caller's sequence (45_caller_sequences.md) -/

/-- The caller made the transactions of these chunks one after the other, from `s` to `t`, and each succeeded; with their
results. -/
inductive ChunksDone (call : Nat × Nat → Instr) : List (Nat × Nat) → State → State → List Result → Prop
  | nil (s : State) : ChunksDone call [] s s []
  | cons {chunk : Nat × Nat} {rest : List (Nat × Nat)} {s u t : State} {r : Result} {rs : List Result}
      (h : callBlock (call chunk) s = (u, some r)) (ok : r.status = .ok) (more : ChunksDone call rest u t rs) :
      ChunksDone call (chunk :: rest) s t (r :: rs)

/-! ## What a later operation and the caller can see -/

/-- The fields that are not micro-state (R26 to R30): what is left when TXN, SPC, NVAR, ATT, RXBUF and the latched
budget are blanked. -/
def State.visible (s : State) : State := { s with txn := 0, spc := 0, nvar := 0, att := 0, rxbuf := [], budget := 0 }

end Sys2Proof.Machine
end

