-- ==== Sys2Proof/Certificates/Slice0/Obligations.lean ====
section
/-! DEFINITION. The statements about the block, from the numbered rules of spec/. A next state is written out as the
old state with the fields that change; every field not named is unchanged. What TXN, SPC, NVAR, ATT and RXBUF hold in an
idle block the spec leaves undefined (10_state.md R26 to R30): where a statement names their values after a result, those
values are the model's choice (log entries 6, 8 and 12), as are NVAR outside GET and GET_ID and ATT outside a poll while an
operation runs (R28, R29; log entry 25) and the latched budget (log entry 7), and so are the order of
what the oracle holds (log entry 3) and the selector beside a result (log entry 15). -/

open Sys2Proof Sys2Proof.Machine

/-! ## Encoding and decoding -/

/-- Decoding the encoding of a well-formed instruction gives it back, and at the request port whatever follows the
request is left over (30_encoding.md R82, R83, R87, R88, R95). -/
def Obligations.EncodingReadsBack : Prop :=
  ∀ (i : Instr) (rest : List Byte), i.WellFormed → (channel i = .request ∨ rest = []) →
    decode (channel i) (encode i ++ rest) = some (i, rest)

/-- Bytes that decode are the encoding of the decoded instruction followed by what is left: each byte string has one
meaning, and the decoder accepts nothing but encodings (R82, R83, R84, R87, R88, R95). -/
def Obligations.DecodedBytesAreTheirEncoding : Prop :=
  ∀ (c : Channel) (bs rest : List Byte) (i : Instr), decode c bs = some (i, rest) →
    i.WellFormed ∧ channel i = c ∧ bs = encode i ++ rest

/-- Words written out from the encodings of 95_test_vectors.md section 3 and 30_encoding.md R88 decode as they stand
there (sanity). The last two words are words of the opcode table (30_encoding.md R100); how such a word packs its bytes is
read from the table (log entry 21, DEDUCED). -/
def Obligations.SpecWordsDecode : Prop :=
  decode .request [0x43, 0x08, 0x00, 0x00, 0x00, 0x00, 0x00, 0x00, 0x40] = some (.txnReadChunk 0x08000000 64, []) ∧
  decode .request [0x44, 0x08, 0x00, 0x00, 0x02, 0x00, 0x00, 0x00, 0x04, 0x01, 0x02, 0x03, 0x04] =
    some (.txnWriteChunk 0x08000002 [0x01, 0x02, 0x03, 0x04], []) ∧
  decode .request [0x14, 0x00, 0x00, 0x00, 0x03, 0x00, 0x10, 0x00, 0x11, 0x00, 0x12] =
    some (.pageListFrame [0x0010, 0x0011, 0x0012], []) ∧
  decode .request [0x46, 0xFF, 0xFF] = some (.txnEraseSpecial 0xFFFF, []) ∧
  decode .toDevice [0x44, 0xBB] = some (.wireExtendedErase, []) ∧
  decode .fromDevice [0x1F] = some (.wireNack, []) ∧
  decodeTableWord 16 0x926D = some .wireReadoutUnprotect ∧ decodeTableWord 8 0x30 = some .autobaudInit

/-- R84: an unlisted selector, whatever bytes follow it, selects no operation, and a request whose operands are cut short is
no request; the block answers REFUSED(IllegalOp), changes no state and puts nothing on the link, whatever the flags. That
`info` is the selector for cut-short operands too is read from "the same way" (log entry 10, DEDUCED), and that the rest of
that input is dropped is the model's choice (log entry 9). -/
def Obligations.IllegalRequestRefused : Prop :=
  (∀ (s : State) (opsel : Byte) (more : List Byte) (rest : List Input),
    (∀ i : Instr, channel i = .request → selector i ≠ opsel) → s.inputs = .port .request (opsel :: more) :: rest →
    step s = .next { s with
      inputs := rest, results := s.results ++ [⟨opsel, ⟨.refused, .illegalOp, some opsel, none, none⟩⟩] }) ∧
  (∀ (s : State) (i : Instr) (bs missing : List Byte) (rest : List Input),
    i.WellFormed → channel i = .request → bs ≠ [] → missing ≠ [] → encode i = bs ++ missing →
    s.inputs = .port .request bs :: rest →
    step s = .next { s with
      inputs := rest, results := s.results ++ [⟨selector i, ⟨.refused, .illegalOp, some (selector i), none, none⟩⟩] })

/-- A step takes the next input, and where its bytes decode it runs the instruction they spell; what is left of a
request's bytes stays the next input (the model's own order of inputs: log entries 1, 2 and 9). -/
def Obligations.StepRunsDecodedInstruction : Prop :=
  ∀ (s : State) (c : Channel) (bs left : List Byte) (i : Instr) (rest : List Input),
    s.inputs = .port c bs :: rest → decode c bs = some (i, left) →
    step s = exec i { s with inputs := (if left = [] then [] else [.port c left]) ++ rest }

/-! ## Frame builders -/

/-- R14: the XOR-fold of the empty sequence is 0x00, and one more byte is exclusive-ored in; so the address frame of
0x08000000 is `[08,00,00,00,08]`. -/
def Obligations.XorFoldRecurrence : Prop :=
  xorfold [] = 0x00 ∧ (∀ (s : List Byte) (b : Byte), xorfold (s ++ [b]) = xorfold s ^^^ b) ∧
  Builds (.addrFrame 0x08000000) [0x08, 0x00, 0x00, 0x00, 0x08]

/-- R120: CMD_FRAME returns `[op, op ^ 0xFF]` for every `op`, in every state, and writes nothing. -/
def Obligations.CmdFrameBuilt : Prop :=
  ∀ (op : Byte) (s : State), exec (.cmdFrame op) s = .next { s with
    results := s.results ++ [⟨0x10, ⟨.ok, .none, none, none, some (.frame [op, op ^^^ 0xFF])⟩⟩] }

/-- R122: ADDR_FRAME returns the four address bytes, most significant first, and their XOR-fold, for every address. -/
def Obligations.AddrFrameBuilt : Prop :=
  ∀ (addr : U32) (s : State),
    let b := [addr.extractLsb' 24 8, addr.extractLsb' 16 8, addr.extractLsb' 8 8, addr.extractLsb' 0 8]
    exec (.addrFrame addr) s = .next { s with
      results := s.results ++ [⟨0x11, ⟨.ok, .none, none, none, some (.frame (b ++ [xorfold b]))⟩⟩] }

/-- R123: LEN_FRAME refuses a count of 0 or above 256, and else returns `[count - 1, (count - 1) ^ 0xFF]`. -/
def Obligations.LenFrameBuilt : Prop :=
  ∀ (count : U32) (s : State), exec (.lenFrame count) s = .next { s with
    results := s.results ++ [⟨0x12,
      if count.toNat < 1 ∨ count.toNat > 256 then ⟨.invalidArgument, .range, none, none, none⟩
      else ⟨.ok, .none, none, none,
        some (.frame [(count - 1).extractLsb' 0 8, (count - 1).extractLsb' 0 8 ^^^ 0xFF])⟩⟩] }

/-- R124: PAYLOAD_FRAME refuses an empty or over-long data operand, and else returns the length byte, the data and the
XOR-fold of both; the length byte is not checked. -/
def Obligations.PayloadFrameBuilt : Prop :=
  ∀ (lenByte : Byte) (data : List Byte) (s : State), exec (.payloadFrame lenByte data) s = .next { s with
    results := s.results ++ [⟨0x13,
      if data.length < 1 ∨ data.length > 256 then ⟨.invalidArgument, .range, none, none, none⟩
      else ⟨.ok, .none, none, none, some (.frame ([lenByte] ++ data ++ [xorfold ([lenByte] ++ data)]))⟩⟩] }

/-- R125: PAGE_LIST_FRAME's checks in order, and its frame: the count less one, the pages, all big-endian, and the
XOR-fold. -/
def Obligations.PageListFrameBuilt : Prop :=
  ∀ (pages : List U16) (s : State),
    let n := pages.length
    let be := fun v : U16 => [v.extractLsb' 8 8, v.extractLsb' 0 8]
    let body := be (BitVec.ofNat 16 (n - 1)) ++ (pages.map be).flatten
    exec (.pageListFrame pages) s = .next { s with
      results := s.results ++ [⟨0x14,
        if n = 0 then ⟨.invalidArgument, .range, none, none, none⟩
        else if n > 65536 then ⟨.invalidArgument, .range, none, none, none⟩
        else if n ≥ 65533 then ⟨.invalidArgument, .reservedSentinel, none, none, none⟩
        else if ∃ p ∈ pages, p = 0xFFFF ∨ p = 0xFFFE ∨ p = 0xFFFD then
          ⟨.invalidArgument, .reservedSentinel, none, none, none⟩
        else ⟨.ok, .none, none, none, some (.frame (body ++ [xorfold body]))⟩⟩] }

/-- R126: SPECIAL_ERASE_FRAME accepts the three sentinels alone, and returns the code and the exclusive-or of its two
bytes. -/
def Obligations.SpecialEraseFrameBuilt : Prop :=
  ∀ (code : U16) (s : State), exec (.specialEraseFrame code) s = .next { s with
    results := s.results ++ [⟨0x15,
      if code = 0xFFFF ∨ code = 0xFFFE ∨ code = 0xFFFD then
        ⟨.ok, .none, none, none, some (.frame [code.extractLsb' 8 8, code.extractLsb' 0 8,
          code.extractLsb' 8 8 ^^^ code.extractLsb' 0 8])⟩
      else ⟨.invalidArgument, .notSentinel, none, none, none⟩⟩] }

/-- R127: WP_PAGE_FRAME refuses an empty set or one of more than 256 entries, and else returns the count less one, the
pages in the caller's order and the XOR-fold. -/
def Obligations.WpPageFrameBuilt : Prop :=
  ∀ (pages : List Byte) (s : State),
    let body := [BitVec.ofNat 8 (pages.length - 1)] ++ pages
    exec (.wpPageFrame pages) s = .next { s with
      results := s.results ++ [⟨0x16,
        if pages.length < 1 ∨ pages.length > 256 then ⟨.invalidArgument, .range, none, none, none⟩
        else ⟨.ok, .none, none, none, some (.frame (body ++ [xorfold body]))⟩⟩] }

/-- R128 and R130: the checksum of every frame a builder returns, and its length. -/
def Obligations.BuiltFramesCheckAndHaveTheirLength : Prop :=
  (∀ op f, Builds (.cmdFrame op) f → f.length = 2 ∧ f[1]? = f[0]?.map (· ^^^ 0xFF)) ∧
  (∀ count f, Builds (.lenFrame count) f → f.length = 2 ∧ f[1]? = f[0]?.map (· ^^^ 0xFF)) ∧
  (∀ addr f, Builds (.addrFrame addr) f →
    f.length = 5 ∧ f.getLast? = some (xorfold f.dropLast) ∧ xorfold f = 0x00) ∧
  (∀ lenByte data f, Builds (.payloadFrame lenByte data) f →
    f.length = data.length + 2 ∧ f.getLast? = some (xorfold f.dropLast) ∧ xorfold f = 0x00) ∧
  (∀ pages f, Builds (.pageListFrame pages) f →
    f.length = 2 * pages.length + 3 ∧ f.getLast? = some (xorfold f.dropLast) ∧ xorfold f = 0x00) ∧
  (∀ code f, Builds (.specialEraseFrame code) f →
    f.length = 3 ∧ f.getLast? = some (xorfold f.dropLast) ∧ xorfold f = 0x00) ∧
  (∀ pages f, Builds (.wpPageFrame pages) f →
    f.length = pages.length + 2 ∧ f.getLast? = some (xorfold f.dropLast) ∧ xorfold f = 0x00)

/-- R129: one flipped bit turns a fold of 0x00 into that bit's mask, and breaks a complement frame; two flips of one bit
position in two bytes cancel. -/
def Obligations.SingleBitFlipChangesChecksum : Prop :=
  (∀ (f : List Byte) (k j : Nat), k < f.length → j < 8 → xorfold f = 0x00 →
    xorfold (flipBit f k j) = 1#8 <<< j ∧ xorfold (flipBit f k j) ≠ 0x00) ∧
  (∀ (b0 b1 : Byte) (j : Nat), j < 8 → b0 ^^^ b1 = 0xFF →
    (b0 ^^^ (1#8 <<< j)) ^^^ b1 ≠ 0xFF ∧ b0 ^^^ (b1 ^^^ (1#8 <<< j)) ≠ 0xFF) ∧
  (∀ (f : List Byte) (k l j : Nat), k < f.length → l < f.length → k ≠ l → j < 8 → xorfold f = 0x00 →
    xorfold (flipBit (flipBit f k j) l j) = 0x00)

/-! ## Frame validators -/

/-- R151 and R154: CHECK_COMPLEMENT and CHECK_XOR return a boolean, or BadFrameLength for a frame with no checksum to
look at. -/
def Obligations.BareChecksumChecks : Prop :=
  (∀ (frame : List Byte) (s : State), exec (.checkComplement frame) s = .next { s with
    results := s.results ++ [⟨0x20,
      if frame.length ≠ 2 then ⟨.invalidArgument, .badFrameLength, none, none, none⟩
      else ⟨.ok, .none, none, none, some (.bool (frame.getD 1 0 = frame.getD 0 0 ^^^ 0xFF))⟩⟩] }) ∧
  (∀ (frame : List Byte) (s : State), exec (.checkXor frame) s = .next { s with
    results := s.results ++ [⟨0x21,
      if frame.length = 0 then ⟨.invalidArgument, .badFrameLength, none, none, none⟩
      else ⟨.ok, .none, none, none,
        some (.bool (frame.getD (frame.length - 1) 0 = xorfold (frame.take (frame.length - 1))))⟩⟩] })

/-- R152: DECODE_CMD_FRAME's checks in order, length, complement, command set. -/
def Obligations.DecodeCmdFrameResult : Prop :=
  ∀ (frame : List Byte) (s : State), exec (.decodeCmdFrame frame) s = .next { s with
    results := s.results ++ [⟨0x22,
      if frame.length ≠ 2 then ⟨.invalidArgument, .badFrameLength, none, none, none⟩
      else if frame.getD 1 0 ≠ frame.getD 0 0 ^^^ 0xFF then ⟨.badChecksum, .checksumMismatch, none, none, none⟩
      else if frame.getD 0 0 ∉ ([0x00, 0x01, 0x02, 0x11, 0x31, 0x44, 0x63, 0x73, 0x82, 0x92] : List Byte) then
        ⟨.unknownOpcode, .notACommand, some (frame.getD 0 0), none, none⟩
      else ⟨.ok, .none, none, none, some (.command (frame.getD 0 0))⟩⟩] }

/-- R155: DECODE_ADDR_FRAME. -/
def Obligations.DecodeAddrFrameResult : Prop :=
  ∀ (frame : List Byte) (s : State), exec (.decodeAddrFrame frame) s = .next { s with
    results := s.results ++ [⟨0x23,
      if frame.length ≠ 5 then ⟨.invalidArgument, .badFrameLength, none, none, none⟩
      else if xorfold frame ≠ 0x00 then ⟨.badChecksum, .checksumMismatch, none, none, none⟩
      else ⟨.ok, .none, none, none, some (.address (BitVec.ofNat 32
        (((frame.getD 0 0).toNat * 256 + (frame.getD 1 0).toNat) * 65536 +
          (frame.getD 2 0).toNat * 256 + (frame.getD 3 0).toNat)))⟩⟩] }

/-- R153: DECODE_LEN_FRAME; the count is the first byte plus one. -/
def Obligations.DecodeLenFrameResult : Prop :=
  ∀ (frame : List Byte) (s : State), exec (.decodeLenFrame frame) s = .next { s with
    results := s.results ++ [⟨0x24,
      if frame.length ≠ 2 then ⟨.invalidArgument, .badFrameLength, none, none, none⟩
      else if frame.getD 1 0 ≠ frame.getD 0 0 ^^^ 0xFF then ⟨.badChecksum, .checksumMismatch, none, none, none⟩
      else ⟨.ok, .none, none, none, some (.count (BitVec.ofNat 32 ((frame.getD 0 0).toNat + 1)))⟩⟩] }

/-- R156: DECODE_PAYLOAD_FRAME; a length byte that disagrees with the data is reported, not refused. -/
def Obligations.DecodePayloadFrameResult : Prop :=
  ∀ (frame : List Byte) (s : State),
    let data := (frame.drop 1).take (frame.length - 2)
    exec (.decodePayloadFrame frame) s = .next { s with
      results := s.results ++ [⟨0x25,
        if frame.length < 3 ∨ frame.length > 258 then ⟨.invalidArgument, .badFrameLength, none, none, none⟩
        else if xorfold frame ≠ 0x00 then ⟨.badChecksum, .checksumMismatch, none, none, none⟩
        else ⟨.ok, .none, none, none,
          some (.payload (frame.getD 0 0) data ((frame.getD 0 0).toNat + 1 = data.length))⟩⟩] }

/-- R157: DECODE_PAGE_LIST_FRAME's checks in order, and the pages from their byte pairs. -/
def Obligations.DecodePageListFrameResult : Prop :=
  ∀ (frame : List Byte) (s : State),
    let m := frame.length
    let pair := fun k : Nat => BitVec.ofNat 16 ((frame.getD k 0).toNat * 256 + (frame.getD (k + 1) 0).toNat)
    let n := (pair 0).toNat + 1
    let pages := (List.range n).map fun k => pair (2 * k + 2)
    exec (.decodePageListFrame frame) s = .next { s with
      results := s.results ++ [⟨0x26,
        if m < 5 then ⟨.invalidArgument, .badFrameLength, none, none, none⟩
        else if m ≠ 2 * n + 3 then ⟨.invalidArgument, .badFrameLength, none, none, none⟩
        else if xorfold frame ≠ 0x00 then ⟨.badChecksum, .checksumMismatch, none, none, none⟩
        else if n ≥ 65533 then ⟨.invalidArgument, .reservedSentinel, none, none, none⟩
        else if ∃ p ∈ pages, p = 0xFFFF ∨ p = 0xFFFE ∨ p = 0xFFFD then
          ⟨.invalidArgument, .reservedSentinel, none, none, none⟩
        else ⟨.ok, .none, none, none, some (.pages pages)⟩⟩] }

/-- R158: DECODE_SPECIAL_ERASE_FRAME. -/
def Obligations.DecodeSpecialEraseFrameResult : Prop :=
  ∀ (frame : List Byte) (s : State),
    let code : U16 := BitVec.ofNat 16 ((frame.getD 0 0).toNat * 256 + (frame.getD 1 0).toNat)
    exec (.decodeSpecialEraseFrame frame) s = .next { s with
      results := s.results ++ [⟨0x27,
        if frame.length ≠ 3 then ⟨.invalidArgument, .badFrameLength, none, none, none⟩
        else if xorfold frame ≠ 0x00 then ⟨.badChecksum, .checksumMismatch, none, none, none⟩
        else if code ≠ 0xFFFF ∧ code ≠ 0xFFFE ∧ code ≠ 0xFFFD then
          ⟨.invalidArgument, .notSentinel, none, none, none⟩
        else ⟨.ok, .none, none, none, some (.code code)⟩⟩] }

/-- R159: for every operand a builder accepts, the matching decoder gives it back, and the bare checks say true. -/
def Obligations.DecodersReadBuiltFrames : Prop :=
  (∀ op f, Builds (.cmdFrame op) f → Answers (.decodeCmdFrame f)
    (if op ∈ commandSet then ⟨.ok, .none, none, none, some (.command op)⟩
      else ⟨.unknownOpcode, .notACommand, some op, none, none⟩)) ∧
  (∀ addr f, Builds (.addrFrame addr) f →
    Answers (.decodeAddrFrame f) ⟨.ok, .none, none, none, some (.address addr)⟩) ∧
  (∀ count f, Builds (.lenFrame count) f →
    Answers (.decodeLenFrame f) ⟨.ok, .none, none, none, some (.count count)⟩) ∧
  (∀ lenByte data f, Builds (.payloadFrame lenByte data) f → Answers (.decodePayloadFrame f)
    ⟨.ok, .none, none, none, some (.payload lenByte data (lenByte.toNat + 1 = data.length))⟩) ∧
  (∀ pages f, Builds (.pageListFrame pages) f →
    Answers (.decodePageListFrame f) ⟨.ok, .none, none, none, some (.pages pages)⟩) ∧
  (∀ code f, Builds (.specialEraseFrame code) f →
    Answers (.decodeSpecialEraseFrame f) ⟨.ok, .none, none, none, some (.code code)⟩) ∧
  (∀ i f, ((∃ a, i = .addrFrame a) ∨ (∃ l d, i = .payloadFrame l d) ∨ (∃ p, i = .pageListFrame p) ∨
      (∃ c, i = .specialEraseFrame c) ∨ ∃ p, i = .wpPageFrame p) → Builds i f →
    Answers (.checkXor f) ⟨.ok, .none, none, none, some (.bool true)⟩) ∧
  (∀ i f, ((∃ op, i = .cmdFrame op) ∨ ∃ c, i = .lenFrame c) → Builds i f →
    Answers (.checkComplement f) ⟨.ok, .none, none, none, some (.bool true)⟩)

/-- R160: whenever a decoder returns a value for a frame, the matching builder given the value returns exactly that
frame, and each builder is injective on the operands it accepts. -/
def Obligations.DecodersAcceptOnlyBuiltFrames : Prop :=
  (∀ f op, Answers (.decodeCmdFrame f) ⟨.ok, .none, none, none, some (.command op)⟩ → Builds (.cmdFrame op) f) ∧
  (∀ f addr, Answers (.decodeAddrFrame f) ⟨.ok, .none, none, none, some (.address addr)⟩ →
    Builds (.addrFrame addr) f) ∧
  (∀ f count, Answers (.decodeLenFrame f) ⟨.ok, .none, none, none, some (.count count)⟩ →
    Builds (.lenFrame count) f) ∧
  (∀ f lenByte data consistent,
    Answers (.decodePayloadFrame f) ⟨.ok, .none, none, none, some (.payload lenByte data consistent)⟩ →
    Builds (.payloadFrame lenByte data) f) ∧
  (∀ f pages, Answers (.decodePageListFrame f) ⟨.ok, .none, none, none, some (.pages pages)⟩ →
    Builds (.pageListFrame pages) f) ∧
  (∀ f code, Answers (.decodeSpecialEraseFrame f) ⟨.ok, .none, none, none, some (.code code)⟩ →
    Builds (.specialEraseFrame code) f) ∧
  (∀ f a b, Builds (.cmdFrame a) f → Builds (.cmdFrame b) f → a = b) ∧
  (∀ f a b, Builds (.addrFrame a) f → Builds (.addrFrame b) f → a = b) ∧
  (∀ f a b, Builds (.lenFrame a) f → Builds (.lenFrame b) f → a = b) ∧
  (∀ f l d l' d', Builds (.payloadFrame l d) f → Builds (.payloadFrame l' d') f → l = l' ∧ d = d') ∧
  (∀ f p q, Builds (.pageListFrame p) f → Builds (.pageListFrame q) f → p = q) ∧
  (∀ f a b, Builds (.specialEraseFrame a) f → Builds (.specialEraseFrame b) f → a = b) ∧
  (∀ f p q, Builds (.wpPageFrame p) f → Builds (.wpPageFrame q) f → p = q)

/-- R161: one flipped bit in a builder's frame makes its decoder answer BAD_CHECKSUM, but for a flip in byte 0 or 1 of a
page-list frame, which its length check reports first. -/
def Obligations.DecodersReportSingleBitCorruption : Prop :=
  ∀ (f : List Byte) (k j : Nat), k < f.length → j < 8 →
    (∀ op, Builds (.cmdFrame op) f →
      Answers (.decodeCmdFrame (flipBit f k j)) ⟨.badChecksum, .checksumMismatch, none, none, none⟩) ∧
    (∀ addr, Builds (.addrFrame addr) f →
      Answers (.decodeAddrFrame (flipBit f k j)) ⟨.badChecksum, .checksumMismatch, none, none, none⟩) ∧
    (∀ count, Builds (.lenFrame count) f →
      Answers (.decodeLenFrame (flipBit f k j)) ⟨.badChecksum, .checksumMismatch, none, none, none⟩) ∧
    (∀ l d, Builds (.payloadFrame l d) f →
      Answers (.decodePayloadFrame (flipBit f k j)) ⟨.badChecksum, .checksumMismatch, none, none, none⟩) ∧
    (∀ pages, Builds (.pageListFrame pages) f → Answers (.decodePageListFrame (flipBit f k j))
      (if k < 2 then ⟨.invalidArgument, .badFrameLength, none, none, none⟩
        else ⟨.badChecksum, .checksumMismatch, none, none, none⟩)) ∧
    (∀ code, Builds (.specialEraseFrame code) f →
      Answers (.decodeSpecialEraseFrame (flipBit f k j)) ⟨.badChecksum, .checksumMismatch, none, none, none⟩)

/-! ## Handshake primitives -/

/-- R183, R210: a response byte is ACK (0x79), NACK (0x1F) or anything else, on the whole byte; and any other byte
arriving while a transaction waits at a handshake site ends it as a protocol violation with that byte and that site. -/
def Obligations.ResponseByteOutcomes : Prop :=
  ∀ b : Byte,
    classify b = (if b = 0x79 then .ack else if b = 0x1F then .nack else .other) ∧
    ∀ (s : State) (site : Site) (rest : List Input), b ≠ 0x79 → b ≠ 0x1F → s.rxq = [] →
      (s.currentStep = some (.ack site) ∨ s.currentStep = some (.poll site)) →
      s.inputs = .port .fromDevice [b] :: rest →
      step s = .next { s with
        sync := false, busy := false, cur := none, inputs := rest
        hist := s.hist ++ [.rx 1 (.ok [b])]
        results := s.results ++ [⟨s.txn, ⟨.protocolViolation, .unexpectedByte, some b, some site, none⟩⟩] }

/-- R180: INIT. While BUSY = 1 it is refused as busy, and else while SYNC = 1 as already synced, with nothing changed.
Accepted, it writes the sync byte alone; SYNC becomes 1 on ACK only; a failed write is a transport failure, and a
failed read or any other byte, NACK too, is a protocol violation. The micro-state left after the result is the model's
choice (log entries 6, 8 and 12). -/
def Obligations.InitOutcomes : Prop :=
  ∀ (s : State) (tq : List TxOutcome) (rq : List (Option Byte)) (b : Byte),
    (s.busy = true → exec .autobaudInit s = .next { s with
      results := s.results ++ [⟨0x30, ⟨.refused, .busy, none, none, none⟩⟩] }) ∧
    (s.busy = false → s.sync = true → exec .autobaudInit s = .next { s with
      results := s.results ++ [⟨0x30, ⟨.refused, .alreadySynced, none, none, none⟩⟩] }) ∧
    (s.busy = false → s.sync = false → s.txq = .fail :: tq → exec .autobaudInit s = .next { s with
      txn := 0x30, spc := 0, rxbuf := [], cur := none, budget := s.pollBudget, txq := tq
      hist := s.hist ++ [.tx [0x7F] .fail]
      results := s.results ++ [⟨0x30, ⟨.transportFailure, .txFail, none, none, none⟩⟩] }) ∧
    (s.busy = false → s.sync = false → s.txq = .ok :: tq → s.rxq = none :: rq → exec .autobaudInit s = .next { s with
      txn := 0x30, spc := 1, rxbuf := [], cur := none, budget := s.pollBudget, txq := tq, rxq := rq
      hist := s.hist ++ [.tx [0x7F] .ok, .rx 1 .fail]
      results := s.results ++ [⟨0x30, ⟨.protocolViolation, .initReadFailed, none, none, none⟩⟩] }) ∧
    (s.busy = false → s.sync = false → s.txq = .ok :: tq → s.rxq = some b :: rq → b ≠ 0x79 →
      exec .autobaudInit s = .next { s with
        txn := 0x30, spc := 1, rxbuf := [], cur := none, budget := s.pollBudget, txq := tq, rxq := rq
        hist := s.hist ++ [.tx [0x7F] .ok, .rx 1 (.ok [b])]
        results := s.results ++ [⟨0x30, ⟨.protocolViolation, .initNoAck, some b, none, none⟩⟩] }) ∧
    (s.busy = false → s.sync = false → s.txq = .ok :: tq → s.rxq = some 0x79 :: rq →
      exec .autobaudInit s = .next { s with
        sync := true, txn := 0x30, spc := 2, rxbuf := [], cur := none, budget := s.pollBudget, txq := tq, rxq := rq
        hist := s.hist ++ [.tx [0x7F] .ok, .rx 1 (.ok [0x79])]
        results := s.results ++ [⟨0x30, ⟨.ok, .none, none, none, none⟩⟩] })

/-- R181: SEND_COMMAND. Refused while BUSY = 1, and else while SYNC = 0. Else, for the ten commands: the frame, one
read, ACK and NACK as values, any other byte a protocol violation that clears SYNC, a failed write or read a transport
failure that keeps it; an opcode outside the set is refused. The micro-state left after the result is the model's
choice (log entries 6, 8 and 12). -/
def Obligations.SendCommandOutcomes : Prop :=
  ∀ (s : State) (op b : Byte) (tq : List TxOutcome) (rq : List (Option Byte)),
    (s.busy = true → exec (.sendCommand op) s = .next { s with
      results := s.results ++ [⟨0x31, ⟨.refused, .busy, none, none, none⟩⟩] }) ∧
    (s.busy = false → s.sync = false → exec (.sendCommand op) s = .next { s with
      results := s.results ++ [⟨0x31, ⟨.refused, .notSynced, none, none, none⟩⟩] }) ∧
    (s.busy = false → s.sync = true → op ∉ commandSet → exec (.sendCommand op) s = .next { s with
      results := s.results ++ [⟨0x31, ⟨.refused, .unknownCommand, some op, none, none⟩⟩] }) ∧
    (s.busy = false → s.sync = true → op ∈ commandSet →
      s.txq = .fail :: tq → exec (.sendCommand op) s = .next { s with
      txn := 0x31, spc := 0, rxbuf := [], cur := none, budget := s.pollBudget, txq := tq
      hist := s.hist ++ [.tx [op, op ^^^ 0xFF] .fail]
      results := s.results ++ [⟨0x31, ⟨.transportFailure, .txFail, none, none, none⟩⟩] }) ∧
    (s.busy = false → s.sync = true → op ∈ commandSet →
      s.txq = .ok :: tq → s.rxq = none :: rq → exec (.sendCommand op) s = .next { s with
      txn := 0x31, spc := 1, rxbuf := [], cur := none, budget := s.pollBudget, txq := tq, rxq := rq
      hist := s.hist ++ [.tx [op, op ^^^ 0xFF] .ok, .rx 1 .fail]
      results := s.results ++ [⟨0x31, ⟨.transportFailure, .rxFail, none, none, none⟩⟩] }) ∧
    (s.busy = false → s.sync = true → op ∈ commandSet →
      s.txq = .ok :: tq → s.rxq = some b :: rq → exec (.sendCommand op) s = .next { s with
      sync := decide (b = 0x79 ∨ b = 0x1F)
      txn := 0x31, spc := 1, rxbuf := [], cur := none, budget := s.pollBudget, txq := tq, rxq := rq
      hist := s.hist ++ [.tx [op, op ^^^ 0xFF] .ok, .rx 1 (.ok [b])]
      results := s.results ++ [⟨0x31,
        if b = 0x79 then ⟨.ok, .none, none, none, some (.response .ack)⟩
        else if b = 0x1F then ⟨.ok, .none, none, none, some (.response .nack)⟩
        else ⟨.protocolViolation, .unexpectedByte, some b, none, none⟩⟩] })

/-- R182: AWAIT_ACK. Refused while BUSY = 1, and else while SYNC = 0; else one read and no write. The micro-state left
after the result is the model's choice (log entries 6, 8 and 12). -/
def Obligations.AwaitAckOutcomes : Prop :=
  ∀ (s : State) (b : Byte) (rq : List (Option Byte)),
    (s.busy = true → exec .awaitAck s = .next { s with
      results := s.results ++ [⟨0x32, ⟨.refused, .busy, none, none, none⟩⟩] }) ∧
    (s.busy = false → s.sync = false → exec .awaitAck s = .next { s with
      results := s.results ++ [⟨0x32, ⟨.refused, .notSynced, none, none, none⟩⟩] }) ∧
    (s.busy = false → s.sync = true → s.rxq = none :: rq → exec .awaitAck s = .next { s with
      txn := 0x32, spc := 0, rxbuf := [], cur := none, budget := s.pollBudget, rxq := rq
      hist := s.hist ++ [.rx 1 .fail]
      results := s.results ++ [⟨0x32, ⟨.transportFailure, .rxFail, none, none, none⟩⟩] }) ∧
    (s.busy = false → s.sync = true → s.rxq = some b :: rq → exec .awaitAck s = .next { s with
      sync := decide (b = 0x79 ∨ b = 0x1F)
      txn := 0x32, spc := 0, rxbuf := [], cur := none, budget := s.pollBudget, rxq := rq
      hist := s.hist ++ [.rx 1 (.ok [b])]
      results := s.results ++ [⟨0x32,
        if b = 0x79 then ⟨.ok, .none, none, none, some (.response .ack)⟩
        else if b = 0x1F then ⟨.ok, .none, none, none, some (.response .nack)⟩
        else ⟨.protocolViolation, .unexpectedByte, some b, none, none⟩⟩] })

/-- R185: SEND_FRAME. Refused while BUSY = 1, and else while SYNC = 0; else an empty frame is an invalid argument with
nothing sent, and any other is written as given with no read. The micro-state left after the result is the model's
choice (log entries 6, 8 and 12). -/
def Obligations.SendFrameOutcomes : Prop :=
  ∀ (s : State) (frame : List Byte) (tq : List TxOutcome),
    (s.busy = true → exec (.sendFrame frame) s = .next { s with
      results := s.results ++ [⟨0x34, ⟨.refused, .busy, none, none, none⟩⟩] }) ∧
    (s.busy = false → s.sync = false → exec (.sendFrame frame) s = .next { s with
      results := s.results ++ [⟨0x34, ⟨.refused, .notSynced, none, none, none⟩⟩] }) ∧
    (s.busy = false → s.sync = true → frame = [] → exec (.sendFrame frame) s = .next { s with
      results := s.results ++ [⟨0x34, ⟨.invalidArgument, .range, none, none, none⟩⟩] }) ∧
    (s.busy = false → s.sync = true → frame ≠ [] →
      s.txq = .fail :: tq → exec (.sendFrame frame) s = .next { s with
      txn := 0x34, spc := 0, rxbuf := [], cur := none, budget := s.pollBudget, txq := tq
      hist := s.hist ++ [.tx frame .fail]
      results := s.results ++ [⟨0x34, ⟨.transportFailure, .txFail, none, none, none⟩⟩] }) ∧
    (s.busy = false → s.sync = true → frame ≠ [] →
      s.txq = .ok :: tq → exec (.sendFrame frame) s = .next { s with
      txn := 0x34, spc := 1, rxbuf := [], cur := none, budget := s.pollBudget, txq := tq
      hist := s.hist ++ [.tx frame .ok]
      results := s.results ++ [⟨0x34, ⟨.ok, .none, none, none, none⟩⟩] })

/-- R186: POLL_AWAIT_ACK. Refused while BUSY = 1, and else while SYNC = 0. Else, after fewer failed reads than
POLL_BUDGET the first byte ends the poll, whatever its value; POLL_BUDGET failed reads in a row end it as exhausted.
The micro-state left after the result is the model's choice (log entries 6, 8 and 12). -/
def Obligations.PollAwaitAckOutcomes : Prop :=
  ∀ (s : State) (fails : Nat) (b : Byte) (rq : List (Option Byte)),
    (s.busy = true → exec .pollAwaitAck s = .next { s with
      results := s.results ++ [⟨0x33, ⟨.refused, .busy, none, none, none⟩⟩] }) ∧
    (s.busy = false → s.sync = false → exec .pollAwaitAck s = .next { s with
      results := s.results ++ [⟨0x33, ⟨.refused, .notSynced, none, none, none⟩⟩] }) ∧
    (s.busy = false → s.sync = true → fails < s.pollBudget →
      s.rxq = List.replicate fails none ++ some b :: rq →
      exec .pollAwaitAck s = .next { s with
        sync := decide (b = 0x79 ∨ b = 0x1F)
        txn := 0x33, spc := 0, att := fails, rxbuf := [], cur := none, budget := s.pollBudget, rxq := rq
        hist := s.hist ++ List.replicate fails (.rx 1 .fail) ++ [.rx 1 (.ok [b])]
        results := s.results ++ [⟨0x33,
          if b = 0x79 then ⟨.ok, .none, none, none, some (.response .ack)⟩
          else if b = 0x1F then ⟨.ok, .none, none, none, some (.response .nack)⟩
          else ⟨.protocolViolation, .unexpectedByte, some b, none, none⟩⟩] }) ∧
    (s.busy = false → s.sync = true → 1 ≤ s.pollBudget →
      s.rxq = List.replicate s.pollBudget none ++ rq →
      exec .pollAwaitAck s = .next { s with
        txn := 0x33, spc := 0, att := s.pollBudget, rxbuf := [], cur := none, budget := s.pollBudget, rxq := rq
        hist := s.hist ++ List.replicate s.pollBudget (.rx 1 .fail)
        results := s.results ++ [⟨0x33, ⟨.transportFailure, .pollBudgetExhausted, none, none, none⟩⟩] })

/-! ## Admission -/

/-- R184, R216, R276, R279: every link operation is refused while BUSY = 1; INIT is refused while SYNC = 1 and every
other one while SYNC = 0. A refusal comes before every argument check and changes no field. -/
def Obligations.LinkOperationsRefusedByFlags : Prop :=
  ∀ (i : Instr) (s : State), isLinkOp i = true →
    (s.busy = true → exec i s = .next { s with
      results := s.results ++ [⟨selector i, ⟨.refused, .busy, none, none, none⟩⟩] }) ∧
    (s.busy = false → s.sync = true → i = .autobaudInit → exec i s = .next { s with
      results := s.results ++ [⟨selector i, ⟨.refused, .alreadySynced, none, none, none⟩⟩] }) ∧
    (s.busy = false → s.sync = false → i ≠ .autobaudInit → exec i s = .next { s with
      results := s.results ++ [⟨selector i, ⟨.refused, .notSynced, none, none, none⟩⟩] })

/-- R57, R215, R216, R219 to R222: a transaction whose arguments fail its checks is answered INVALID_ARGUMENT with the
first failing check's reason; no byte is sent and no field changes. -/
def Obligations.TransactionArgumentsCheckedBeforeTheLink : Prop :=
  ∀ s : State, s.busy = false → s.sync = true →
    (∀ addr count, (count.toNat < 1 ∨ count.toNat > 256) → exec (.txnReadChunk addr count) s = .next { s with
      results := s.results ++ [⟨0x43, ⟨.invalidArgument, .range, none, none, none⟩⟩] }) ∧
    (∀ addr data, addr.toNat % 4 ≠ 0 → exec (.txnWriteChunk addr data) s = .next { s with
      results := s.results ++ [⟨0x44, ⟨.invalidArgument, .misaligned, none, none, none⟩⟩] }) ∧
    (∀ addr data, addr.toNat % 4 = 0 → (data.length < 1 ∨ data.length > 256) →
      exec (.txnWriteChunk addr data) s = .next { s with
        results := s.results ++ [⟨0x44, ⟨.invalidArgument, .range, none, none, none⟩⟩] }) ∧
    (∀ pages, (pages.length = 0 ∨ pages.length > 65536) → exec (.txnErasePages pages) s = .next { s with
      results := s.results ++ [⟨0x45, ⟨.invalidArgument, .range, none, none, none⟩⟩] }) ∧
    (∀ pages, 1 ≤ pages.length → pages.length ≤ 65536 →
      (65533 ≤ pages.length ∨ ∃ p ∈ pages, p = 0xFFFF ∨ p = 0xFFFE ∨ p = 0xFFFD) →
      exec (.txnErasePages pages) s = .next { s with
        results := s.results ++ [⟨0x45, ⟨.invalidArgument, .reservedSentinel, none, none, none⟩⟩] }) ∧
    (∀ code : U16, code ≠ 0xFFFF → code ≠ 0xFFFE → code ≠ 0xFFFD →
      exec (.txnEraseSpecial code) s = .next { s with
        results := s.results ++ [⟨0x46, ⟨.invalidArgument, .notSentinel, none, none, none⟩⟩] }) ∧
    (∀ pages, (pages.length < 1 ∨ pages.length > 256) → exec (.txnWriteProtect pages) s = .next { s with
      results := s.results ++ [⟨0x47, ⟨.invalidArgument, .range, none, none, none⟩⟩] })

/-! ## Transactions that complete -/

/-- R212: TXN_GET on a full set of answers returns the version and the opcodes; a length byte of 1 issues no opcode
read, and one of 0 is a protocol violation. The micro-state left after the result is the model's choice (log entries 6
and 8). -/
def Obligations.TxnGetCompletes : Prop :=
  ∀ (s : State) (n version : Byte) (opcodes : List Byte) (tq : List TxOutcome) (rq : List (Option Byte)),
    s.busy = false → s.sync = true → s.txq = .ok :: tq →
    (n.toNat = opcodes.length + 1 →
      s.rxq = some 0x79 :: some n :: some version :: (opcodes.map some ++ some 0x79 :: rq) →
      exec .txnGet s = .next { s with
        txn := 0x40, spc := 7, nvar := n, rxbuf := version :: opcodes, cur := none, budget := s.pollBudget
        txq := tq, rxq := rq
        hist := s.hist ++ ([.tx [0x00, 0xFF] .ok, .rx 1 (.ok [0x79]), .rx 1 (.ok [n]), .rx 1 (.ok [version])] ++
          (if opcodes = [] then [] else [.rx opcodes.length (.ok opcodes)]) ++ [.rx 1 (.ok [0x79])])
        results := s.results ++ [⟨0x40, ⟨.ok, .none, none, none, some (.bootloader version opcodes)⟩⟩] }) ∧
    (s.rxq = some 0x79 :: some 0x00 :: rq → exec .txnGet s = .next { s with
      sync := false, txn := 0x40, spc := 3, nvar := 0x00, rxbuf := [], cur := none, budget := s.pollBudget
      txq := tq, rxq := rq
      hist := s.hist ++ [.tx [0x00, 0xFF] .ok, .rx 1 (.ok [0x79]), .rx 1 (.ok [0x00])]
      results := s.results ++ [⟨0x40, ⟨.protocolViolation, .badLength, some 0x00, some .lenByte, none⟩⟩] })

/-- R213: TXN_GET_RPS drops the version byte and returns the two counters. The micro-state left after the result is the
model's choice (log entries 6 and 8). -/
def Obligations.TxnGetRpsCompletes : Prop :=
  ∀ (s : State) (version disable enable : Byte) (tq : List TxOutcome) (rq : List (Option Byte)),
    s.busy = false → s.sync = true → s.txq = .ok :: tq →
    s.rxq = some 0x79 :: some version :: some disable :: some enable :: some 0x79 :: rq →
    exec .txnGetRps s = .next { s with
      txn := 0x41, spc := 6, rxbuf := [version, disable, enable], cur := none, budget := s.pollBudget
      txq := tq, rxq := rq
      hist := s.hist ++ [.tx [0x01, 0xFE] .ok, .rx 1 (.ok [0x79]), .rx 1 (.ok [version]), .rx 1 (.ok [disable]),
        .rx 1 (.ok [enable]), .rx 1 (.ok [0x79])]
      results := s.results ++ [⟨0x41, ⟨.ok, .none, none, none, some (.counters disable enable)⟩⟩] }

/-- R214: TXN_GET_ID reads one byte more than the length byte says and returns them. The micro-state left after the
result is the model's choice (log entries 6 and 8). -/
def Obligations.TxnGetIdCompletes : Prop :=
  ∀ (s : State) (n : Byte) (identity : List Byte) (tq : List TxOutcome) (rq : List (Option Byte)),
    s.busy = false → s.sync = true → s.txq = .ok :: tq → identity.length = n.toNat + 1 →
    s.rxq = some 0x79 :: some n :: (identity.map some ++ some 0x79 :: rq) →
    exec .txnGetId s = .next { s with
      txn := 0x42, spc := 5, nvar := n, rxbuf := identity, cur := none, budget := s.pollBudget, txq := tq, rxq := rq
      hist := s.hist ++ [.tx [0x02, 0xFD] .ok, .rx 1 (.ok [0x79]), .rx 1 (.ok [n]),
        .rx identity.length (.ok identity), .rx 1 (.ok [0x79])]
      results := s.results ++ [⟨0x42, ⟨.ok, .none, none, none, some (.identity identity)⟩⟩] }

/-- R215: TXN_READ_CHUNK on ACKs sends the command, address and length frames and returns the next `count` bytes as they
arrive, with no read after them. The micro-state left after the result is the model's choice (log entries 6 and 8). -/
def Obligations.TxnReadChunkCompletes : Prop :=
  ∀ (s : State) (addr count : U32) (data : List Byte) (tq : List TxOutcome) (rq : List (Option Byte)),
    s.busy = false → s.sync = true → 1 ≤ count.toNat → count.toNat ≤ 256 → data.length = count.toNat →
    s.txq = .ok :: .ok :: .ok :: tq → s.rxq = some 0x79 :: some 0x79 :: some 0x79 :: (data.map some ++ rq) →
    let a := [addr.extractLsb' 24 8, addr.extractLsb' 16 8, addr.extractLsb' 8 8, addr.extractLsb' 0 8]
    let l : Byte := BitVec.ofNat 8 (count.toNat - 1)
    exec (.txnReadChunk addr count) s = .next { s with
      txn := 0x43, spc := 7, rxbuf := data, cur := none, budget := s.pollBudget, txq := tq, rxq := rq
      hist := s.hist ++ [.tx [0x11, 0xEE] .ok, .rx 1 (.ok [0x79]), .tx (a ++ [xorfold a]) .ok, .rx 1 (.ok [0x79]),
        .tx [l, l ^^^ 0xFF] .ok, .rx 1 (.ok [0x79]), .rx count.toNat (.ok data)]
      results := s.results ++ [⟨0x43, ⟨.ok, .none, none, none, some (.data data)⟩⟩] }

/-- R219: TXN_WRITE_CHUNK at an aligned address on ACKs sends the command, address and payload frames, the payload's
length byte being the number of data bytes less one. The micro-state left after the result is the model's choice (log
entries 6 and 8). -/
def Obligations.TxnWriteChunkCompletes : Prop :=
  ∀ (s : State) (addr : U32) (data : List Byte) (tq : List TxOutcome) (rq : List (Option Byte)),
    s.busy = false → s.sync = true → addr.toNat % 4 = 0 → 1 ≤ data.length → data.length ≤ 256 →
    s.txq = .ok :: .ok :: .ok :: tq → s.rxq = some 0x79 :: some 0x79 :: some 0x79 :: rq →
    let a := [addr.extractLsb' 24 8, addr.extractLsb' 16 8, addr.extractLsb' 8 8, addr.extractLsb' 0 8]
    let body := [BitVec.ofNat 8 (data.length - 1)] ++ data
    exec (.txnWriteChunk addr data) s = .next { s with
      txn := 0x44, spc := 6, rxbuf := [], cur := none, budget := s.pollBudget, txq := tq, rxq := rq
      hist := s.hist ++ [.tx [0x31, 0xCE] .ok, .rx 1 (.ok [0x79]), .tx (a ++ [xorfold a]) .ok, .rx 1 (.ok [0x79]),
        .tx (body ++ [xorfold body]) .ok, .rx 1 (.ok [0x79])]
      results := s.results ++ [⟨0x44, ⟨.ok, .none, none, none, none⟩⟩] }

/-- R220, R221: the two erase transactions. After fewer failed reads than POLL_BUDGET in the final wait an ACK
completes the erase; POLL_BUDGET failed reads end it as exhausted, with SYNC kept. The micro-state left after the
result is the model's choice (log entries 6 and 8). -/
def Obligations.TxnErasesComplete : Prop :=
  ∀ (s : State) (i : Instr) (opsel : Byte) (frame : List Byte) (fails : Nat) (tq : List TxOutcome)
    (rq : List (Option Byte)), s.busy = false → s.sync = true →
    ((∃ pages, i = .txnErasePages pages ∧ opsel = 0x45 ∧ Builds (.pageListFrame pages) frame) ∨
      ∃ code, i = .txnEraseSpecial code ∧ opsel = 0x46 ∧ Builds (.specialEraseFrame code) frame) →
    s.txq = .ok :: .ok :: tq →
    (fails < s.pollBudget → s.rxq = some 0x79 :: (List.replicate fails none ++ some 0x79 :: rq) →
      exec i s = .next { s with
        txn := opsel, spc := 4, att := fails, rxbuf := [], cur := none, budget := s.pollBudget, txq := tq, rxq := rq
        hist := s.hist ++ ([.tx [0x44, 0xBB] .ok, .rx 1 (.ok [0x79]), .tx frame .ok] ++
          List.replicate fails (.rx 1 .fail) ++ [.rx 1 (.ok [0x79])])
        results := s.results ++ [⟨opsel, ⟨.ok, .none, none, none, none⟩⟩] }) ∧
    (1 ≤ s.pollBudget → s.rxq = some 0x79 :: (List.replicate s.pollBudget none ++ rq) →
      exec i s = .next { s with
        txn := opsel, spc := 3, att := s.pollBudget, rxbuf := [], cur := none, budget := s.pollBudget
        txq := tq, rxq := rq
        hist := s.hist ++ ([.tx [0x44, 0xBB] .ok, .rx 1 (.ok [0x79]), .tx frame .ok] ++
          List.replicate s.pollBudget (.rx 1 .fail))
        results := s.results ++
          [⟨opsel, ⟨.transportFailure, .pollBudgetExhausted, none, some .eraseFinal, none⟩⟩] })

/-- R222: TXN_WRITE_PROTECT on ACKs sends the command and the page frame. The micro-state left after the result is the
model's choice (log entries 6 and 8). -/
def Obligations.TxnWriteProtectCompletes : Prop :=
  ∀ (s : State) (pages : List Byte) (tq : List TxOutcome) (rq : List (Option Byte)),
    s.busy = false → s.sync = true → 1 ≤ pages.length → pages.length ≤ 256 →
    s.txq = .ok :: .ok :: tq → s.rxq = some 0x79 :: some 0x79 :: rq →
    let body := [BitVec.ofNat 8 (pages.length - 1)] ++ pages
    exec (.txnWriteProtect pages) s = .next { s with
      txn := 0x47, spc := 4, rxbuf := [], cur := none, budget := s.pollBudget, txq := tq, rxq := rq
      hist := s.hist ++ [.tx [0x63, 0x9C] .ok, .rx 1 (.ok [0x79]), .tx (body ++ [xorfold body]) .ok,
        .rx 1 (.ok [0x79])]
      results := s.results ++ [⟨0x47, ⟨.ok, .none, none, none, none⟩⟩] }

/-- R223 to R225: the three protection toggles on two ACKs: one command frame and two reads. The micro-state left after
the result is the model's choice (log entries 6 and 8). -/
def Obligations.ProtectionTogglesComplete : Prop :=
  ∀ (s : State) (i : Instr) (op : Byte) (tq : List TxOutcome) (rq : List (Option Byte)),
    s.busy = false → s.sync = true → s.txq = .ok :: tq → s.rxq = some 0x79 :: some 0x79 :: rq →
    ((i = .txnWriteUnprotect ∧ op = 0x73) ∨ (i = .txnReadoutProtect ∧ op = 0x82) ∨
      (i = .txnReadoutUnprotect ∧ op = 0x92)) →
    exec i s = .next { s with
      txn := selector i, spc := 3, rxbuf := [], cur := none, budget := s.pollBudget, txq := tq, rxq := rq
      hist := s.hist ++ [.tx [op, op ^^^ 0xFF] .ok, .rx 1 (.ok [0x79]), .rx 1 (.ok [0x79])]
      results := s.results ++ [⟨selector i, ⟨.ok, .none, none, none, none⟩⟩] }

/-! ## NACKs, link events and withheld answers -/

/-- R218: NACK at the first handshake of a transaction. The gated ones answer DEVICE_PROTECTED and keep SYNC; GET,
GET_RPS, GET_ID and READOUT_UNPROTECT answer PROTOCOL_VIOLATION and clear it. HIST gains exactly two events. The
micro-state left after the result is the model's choice (log entries 6 and 8). -/
def Obligations.FirstHandshakeNack : Prop :=
  ∀ (s : State) (i : Instr) (op : Byte) (gated : Bool) (tq : List TxOutcome) (rq : List (Option Byte)),
    s.busy = false → s.sync = true → Admissible i → s.txq = .ok :: tq → s.rxq = some 0x1F :: rq →
    ((i = .txnGet ∧ op = 0x00 ∧ gated = false) ∨ (i = .txnGetRps ∧ op = 0x01 ∧ gated = false) ∨
      (i = .txnGetId ∧ op = 0x02 ∧ gated = false) ∨ (∃ a c, i = .txnReadChunk a c ∧ op = 0x11 ∧ gated = true) ∨
      (∃ a d, i = .txnWriteChunk a d ∧ op = 0x31 ∧ gated = true) ∨
      (∃ p, i = .txnErasePages p ∧ op = 0x44 ∧ gated = true) ∨
      (∃ c, i = .txnEraseSpecial c ∧ op = 0x44 ∧ gated = true) ∨
      (∃ p, i = .txnWriteProtect p ∧ op = 0x63 ∧ gated = true) ∨
      (i = .txnWriteUnprotect ∧ op = 0x73 ∧ gated = true) ∨ (i = .txnReadoutProtect ∧ op = 0x82 ∧ gated = true) ∨
      (i = .txnReadoutUnprotect ∧ op = 0x92 ∧ gated = false)) →
    exec i s = .next { s with
      sync := gated, txn := selector i, spc := 1, rxbuf := [], cur := none, budget := s.pollBudget
      txq := tq, rxq := rq
      hist := s.hist ++ [.tx [op, op ^^^ 0xFF] .ok, .rx 1 (.ok [0x1F])]
      results := s.results ++ [⟨selector i,
        if gated then ⟨.deviceProtected, .nackGated, some 0x1F, some .cmdGated, none⟩
        else ⟨.protocolViolation, .nackNotExpected, some 0x1F, some .cmdUngated, none⟩⟩] }

/-- R211: the meaning of NACK at each handshake site, for the NACK byte arriving while a transaction waits there. To INIT
it is a violation (R180), and to the other handshake primitives a value (R181, R182, R186). To an idle block the byte is
held for the next read (R278; log entry 17). -/
def Obligations.NackMeaningPerSite : Prop :=
  (∀ (s : State) (site : Site), s.rxq = [] →
    (s.currentStep = some (.ack site) ∨ s.currentStep = some (.poll site)) →
    exec .wireNack s = .next { s with
      sync := s.sync && decide (site = .cmdGated ∨ site = .len ∨ site = .addr)
      busy := false, cur := none
      hist := s.hist ++ [.rx 1 (.ok [0x1F])]
      results := s.results ++ [⟨s.txn,
        if site = .cmdGated ∨ site = .len then ⟨.deviceProtected, .nackGated, some 0x1F, some site, none⟩
        else if site = .addr then ⟨.invalidArgument, .badAddress, some 0x1F, some site, none⟩
        else ⟨.protocolViolation, .nackNotExpected, some 0x1F, some site, none⟩⟩] }) ∧
  (∀ s : State, s.rxq = [] → s.currentStep = some .initAck → exec .wireNack s = .next { s with
    sync := false, busy := false, cur := none
    hist := s.hist ++ [.rx 1 (.ok [0x1F])]
    results := s.results ++ [⟨s.txn, ⟨.protocolViolation, .initNoAck, some 0x1F, none, none⟩⟩] }) ∧
  (∀ s : State, s.rxq = [] → (s.currentStep = some .response ∨ s.currentStep = some .pollResponse) →
    exec .wireNack s = .next { s with
      busy := false, cur := none
      hist := s.hist ++ [.rx 1 (.ok [0x1F])]
      results := s.results ++ [⟨s.txn, ⟨.ok, .none, none, none, some (.response .nack)⟩⟩] }) ∧
  (∀ s : State, s.busy = false → exec .wireNack s = .next { s with rxq := s.rxq ++ [some 0x1F] })

/-- R183, R210: the ACK byte arriving while a transaction waits at a handshake site completes the step: SPC advances and
the operation waits at its next step, or, at the last, returns OK. To INIT it sets SYNC and ends it with OK (R180), and to
the other handshake primitives it is a value (R181, R182, R186); what SPC is then is the model's (log entry 12). To an
idle block the byte is held for the next read (R278; log entry 17).
NVAR and ATT keep their old values where the spec leaves them undefined (the model's choice, log entry 25). -/
def Obligations.AckCompletesHandshake : Prop :=
  (∀ (s : State) (i : Instr) (site : Site), s.Inv → s.busy = true → s.cur = some i → s.rxq = [] → s.txq = [] →
    (s.currentStep = some (.ack site) ∨ s.currentStep = some (.poll site)) →
    (s.spc + 1 < (planOf i).steps.length → exec .wireAck s = .next { s with
      spc := s.spc + 1, hist := s.hist ++ [.rx 1 (.ok [0x79])] }) ∧
    (s.spc + 1 = (planOf i).steps.length → exec .wireAck s = .next { s with
      spc := s.spc + 1, busy := false, cur := none
      hist := s.hist ++ [.rx 1 (.ok [0x79])]
      results := s.results ++ [⟨s.txn, ⟨.ok, .none, none, none, (planOf i).kind.value s.rxbuf⟩⟩] })) ∧
  (∀ s : State, s.rxq = [] → s.busy = true → s.cur = some .autobaudInit → s.spc = 1 → exec .wireAck s = .next { s with
    sync := true, busy := false, cur := none, spc := 2
    hist := s.hist ++ [.rx 1 (.ok [0x79])]
    results := s.results ++ [⟨s.txn, ⟨.ok, .none, none, none, none⟩⟩] }) ∧
  (∀ s : State, s.rxq = [] → (s.currentStep = some .response ∨ s.currentStep = some .pollResponse) →
    exec .wireAck s = .next { s with
      busy := false, cur := none
      hist := s.hist ++ [.rx 1 (.ok [0x79])]
      results := s.results ++ [⟨s.txn, ⟨.ok, .none, none, none, some (.response .ack)⟩⟩] }) ∧
  (∀ s : State, s.busy = false → exec .wireAck s = .next { s with rxq := s.rxq ++ [some 0x79] })

/-- R87, R88, R210: a command frame, or the sync byte, passing on the link while the operation that sends it waits at its
first step: the write is done, the event is recorded and the operation waits for the answer. That SPC is 1 then is R210's
for transactions, and the model's numbering for INIT and SEND_COMMAND (log entry 12). A frame the block is not writing
changes nothing (the model's choice, log entry 14).
NVAR and ATT keep their old values where the spec leaves them undefined (the model's choice, log entry 25). -/
def Obligations.CommandFramePassesOnLink : Prop :=
  ∀ (s : State) (w i : Instr) (frame : List Byte),
    ((w = .wireGet ∧ frame = [0x00, 0xFF]) ∨ (w = .wireGetRps ∧ frame = [0x01, 0xFE]) ∨
      (w = .wireGetId ∧ frame = [0x02, 0xFD]) ∨ (w = .wireReadMemory ∧ frame = [0x11, 0xEE]) ∨
      (w = .wireWriteMemory ∧ frame = [0x31, 0xCE]) ∨ (w = .wireExtendedErase ∧ frame = [0x44, 0xBB]) ∨
      (w = .wireWriteProtect ∧ frame = [0x63, 0x9C]) ∨ (w = .wireWriteUnprotect ∧ frame = [0x73, 0x8C]) ∨
      (w = .wireReadoutProtect ∧ frame = [0x82, 0x7D]) ∨ (w = .wireReadoutUnprotect ∧ frame = [0x92, 0x6D]) ∨
      (w = .wireSync ∧ frame = [0x7F])) →
    (s.writing ≠ some frame → exec w s = .next s) ∧
    (s.busy = true → s.cur = some i → s.spc = 0 → s.txq = [] → s.rxq = [] →
      ((w = .wireGet ∧ i = .txnGet) ∨ (w = .wireGetRps ∧ i = .txnGetRps) ∨ (w = .wireGetId ∧ i = .txnGetId) ∨
        (w = .wireReadMemory ∧ ∃ a c, i = .txnReadChunk a c) ∨ (w = .wireWriteMemory ∧ ∃ a d, i = .txnWriteChunk a d) ∨
        (w = .wireExtendedErase ∧ ((∃ p, i = .txnErasePages p) ∨ ∃ c, i = .txnEraseSpecial c)) ∨
        (w = .wireWriteProtect ∧ ∃ p, i = .txnWriteProtect p) ∨ (w = .wireWriteUnprotect ∧ i = .txnWriteUnprotect) ∨
        (w = .wireReadoutProtect ∧ i = .txnReadoutProtect) ∨ (w = .wireReadoutUnprotect ∧ i = .txnReadoutUnprotect) ∨
        (w = .wireSync ∧ i = .autobaudInit) ∨ (w ≠ .wireSync ∧ ∃ op, frame.head? = some op ∧ i = .sendCommand op)) →
      exec w s = .next { s with spc := 1, hist := s.hist ++ [.tx frame .ok] })

/-- R187, R210, R271: a transport failure ends the operation that waits, with the site of its step, and keeps SYNC; the
read of INIT is a protocol violation instead (R180). -/
def Obligations.TransportFailureEndsOperation : Prop :=
  ∀ (s : State) (m : Micro) (rest : List Input), s.currentStep = some m →
    (∀ frame site, m = .tx frame site → s.txq = [] → s.inputs = .txAnswer .fail :: rest →
      step s = .next { s with
        busy := false, cur := none, inputs := rest, hist := s.hist ++ [.tx frame .fail]
        results := s.results ++ [⟨s.txn, ⟨.transportFailure, .txFail, none, site, none⟩⟩] }) ∧
    (∀ site, (m = .ack site ∨ (m = .len ∧ site = .lenByte)) → s.rxq = [] → s.inputs = .readFails :: rest →
      step s = .next { s with
        busy := false, cur := none, inputs := rest, hist := s.hist ++ [.rx 1 .fail]
        results := s.results ++ [⟨s.txn, ⟨.transportFailure, .rxFail, none, some site, none⟩⟩] }) ∧
    (∀ n, m = .data n → n.bytes s ≠ 0 → s.rxq = [] → s.inputs = .readFails :: rest →
      step s = .next { s with
        busy := false, cur := none, inputs := rest, hist := s.hist ++ [.rx (n.bytes s) .fail]
        results := s.results ++ [⟨s.txn, ⟨.transportFailure, .rxFail, none, some .data, none⟩⟩] }) ∧
    (m = .response → s.rxq = [] → s.inputs = .readFails :: rest →
      step s = .next { s with
        busy := false, cur := none, inputs := rest, hist := s.hist ++ [.rx 1 .fail]
        results := s.results ++ [⟨s.txn, ⟨.transportFailure, .rxFail, none, none, none⟩⟩] }) ∧
    (m = .initAck → s.rxq = [] → s.inputs = .readFails :: rest →
      step s = .next { s with
        sync := false, busy := false, cur := none, inputs := rest, hist := s.hist ++ [.rx 1 .fail]
        results := s.results ++ [⟨s.txn, ⟨.protocolViolation, .initReadFailed, none, none, none⟩⟩] })

/-- R184, R227, 93_implementation_defined.md I15: an admitted operation whose first answer is withheld is accepted and
stays at step 0 with BUSY = 1; if the outside does nothing more the block is stuck, while an idle block just waits
(R311; the two outcomes of `step` are the model's form, log entries 4 and 5).
NVAR and ATT keep their old values where the spec leaves them undefined (the model's choice, log entry 25). -/
def Obligations.WithheldAnswerLeavesOperationInFlight : Prop :=
  (∀ (s : State) (i : Instr), Admissible i → s.busy = false → (s.sync = false ↔ i = .autobaudInit) →
    s.txq = [] → s.rxq = [] →
    exec i s = .next { s with
      busy := true, txn := selector i, spc := 0, rxbuf := [], cur := some i, budget := s.pollBudget
      att := if i = .pollAwaitAck then 0 else s.att }) ∧
  (∀ s : State, s.inputs = [] → s.busy = true → step s = .fault .transportSilent) ∧
  (∀ s : State, s.inputs = [] → s.busy = false → step s = .next s)

/-- R326: taking the answers one link event at a time or having them at hand when the request is made gives the same
state: a byte, a failed read or a write's answer that comes after the request has run as far as it could leads where it
would have led had the oracle held it before. The form of what the oracle holds is the model's (log entries 2, 3 and 17).
-/
def Obligations.LateAnswersLeadToTheSameState : Prop :=
  ∀ (i : Instr) (s t : State) (rest : List Input), channel i = .request → s.busy = false →
    (∀ b : Byte, exec i { s with inputs := .port .fromDevice [b] :: rest } = .next t →
      step t = exec i { s with rxq := s.rxq ++ [some b], inputs := rest }) ∧
    (exec i { s with inputs := .readFails :: rest } = .next t →
      step t = exec i { s with rxq := s.rxq ++ [none], inputs := rest }) ∧
    (∀ o : TxOutcome, exec i { s with inputs := .txAnswer o :: rest } = .next t →
      step t = exec i { s with txq := s.txq ++ [o], inputs := rest })

/-! ## Whole-machine rules -/

/-- R22, R184, R272, D6: in every step but a block reset SYNC is cleared only together with a PROTOCOL_VIOLATION result, set
only together with an OK result of INIT, and every PROTOCOL_VIOLATION result leaves SYNC = 0 and BUSY = 0; and the same of
every instruction on its own. -/
def Obligations.SyncFollowsResults : Prop :=
  (∀ s t : State, step s = .next t → (∀ rest, s.inputs ≠ .newSession :: rest) →
    SyncFollows (s.nextInstr = some .autobaudInit ∨ s.cur = some .autobaudInit) s t) ∧
  (∀ (i : Instr) (s t : State), exec i s = .next t →
    SyncFollows (i = .autobaudInit ∨ s.cur = some .autobaudInit) s t)

/-- R22 to R31, R189, R226, R227: every step keeps the invariant of the block, from every state that has it. -/
def Obligations.StepKeepsBlockInvariant : Prop :=
  ∀ s t : State, s.Inv → step s = .next t → t.Inv

/-- The state after reset has the invariant of the block and an empty, safe link history. (What the state after reset
holds where the spec says nothing is the model's: log entries 6 and 7.) -/
def Obligations.ResetHasBlockInvariant : Prop := State.reset.Inv ∧ State.reset.LinkSafe

/-- R317: every step keeps it true that no frame but the sync byte reaches the link before INIT has succeeded. -/
def Obligations.NoFrameReachesLinkBeforeInit : Prop :=
  ∀ s t : State, s.Inv → s.LinkSafe → step s = .next t → t.LinkSafe

/-- R31, R65: but for a block reset, a step only appends to the link history. -/
def Obligations.HistoryOnlyGrows : Prop :=
  ∀ s t : State, step s = .next t → (∀ rest, s.inputs ≠ .newSession :: rest) → ∃ es, t.hist = s.hist ++ es

/-- R66, R271: after a failed write a step adds no further link event. -/
def Obligations.NothingFollowsFailedWrite : Prop :=
  ∀ (s t : State) (before after : List Event) (frame : List Byte), step s = .next t →
    t.hist = s.hist ++ (before ++ .tx frame .fail :: after) → after = []

/-- R228: within a transaction run from an idle block, a frame is sent only as the first event or straight after an
ACK. -/
def Obligations.FramesFollowAcknowledgments : Prop :=
  ∀ (i : Instr) (s t : State) (before after : List Event) (frame : List Byte) (o : TxOutcome),
    isTransaction i = true → s.busy = false → exec i s = .next t →
    t.hist = s.hist ++ (before ++ .tx frame o :: after) →
    before = [] ∨ ∃ earlier, before = earlier ++ [.rx 1 (.ok [0x79])]

/-- R21, R40, 93_implementation_defined.md I13: what an idle block holds in TXN, SPC, NVAR, ATT and RXBUF reaches no
later operation: it changes nothing in what the caller and the link see. (That idle micro-state is kept at all is the
model's choice: log entries 6 and 8.) -/
def Obligations.IdleMicroStateIsUnreadable : Prop :=
  ∀ (i : Instr) (s t : State) (txn nvar : Byte) (spc att budget : Nat) (rxbuf : List Byte),
    s.busy = false → exec i s = .next t →
    ∃ t', exec i { s with txn := txn, spc := spc, nvar := nvar, att := att, rxbuf := rxbuf, budget := budget } =
        .next t' ∧ t'.visible = t.visible

/-- R25: POLL_BUDGET is set to any value from 1, and a new value does not reach the operation in flight: what the block
then does with an answer of the oracle is the same but for POLL_BUDGET itself. -/
def Obligations.PollBudgetChangeNotSeenInFlight : Prop :=
  (∀ (s : State) (n : Nat) (rest : List Input), 1 ≤ n → s.inputs = .setPollBudget n :: rest →
    step s = .next { s with pollBudget := n, inputs := rest }) ∧
  (∀ (s : State) (n : Nat) (bytes : List Byte),
    State.bytesArrive bytes { s with pollBudget := n } = { State.bytesArrive bytes s with pollBudget := n }) ∧
  (∀ (s : State) (n : Nat),
    State.readFails { s with pollBudget := n } = { State.readFails s with pollBudget := n }) ∧
  (∀ (s : State) (n : Nat) (o : TxOutcome),
    State.txAnswered o { s with pollBudget := n } = { State.txAnswered o s with pollBudget := n })

/-- R24: CTRLSTAT is SYNC in bit 0 and BUSY in bit 1, bits 7:2 read as 0, and it is 0 after reset. A caller's write to it
has no effect; that such a write is taken at all, with no error answer, is read from the rule (log entry 20, DEDUCED). -/
def Obligations.CtrlstatIsAReadOnlyView : Prop :=
  (∀ s : State, s.ctrlstat.getLsbD 0 = s.sync ∧ s.ctrlstat.getLsbD 1 = s.busy ∧ s.ctrlstat.extractLsb' 2 6 = 0) ∧
  (∀ (s : State) (b : Byte) (rest : List Input), s.inputs = .writeCtrlstat b :: rest →
    step s = .next { s with inputs := rest }) ∧
  State.reset.ctrlstat = 0x00

/-- R40, R310, R312, R322: a block reset comes to an idle block alone; it clears SYNC, BUSY, RXBUF and HIST and leaves
POLL_BUDGET and what the transport holds alone, and the state after reset has those values (TXN, SPC, NVAR and ATT are left
as they are, as the model chooses: log entries 6 and 13). While BUSY = 1 there is none (the refusal is the model's form, log
entry 13), and an exchange runs to its conclusion: no step takes the operation in flight away but one that gives its
result. -/
def Obligations.BlockResetValues : Prop :=
  (∀ (s : State) (rest : List Input), s.inputs = .newSession :: rest → s.busy = false →
    step s = .next { s with sync := false, busy := false, rxbuf := [], hist := [], cur := none, inputs := rest }) ∧
  (∀ (s : State) (rest : List Input), s.inputs = .newSession :: rest → s.busy = true →
    step s = .refused .sessionWhileBusy) ∧
  (∀ (s t : State) (i : Instr), s.Inv → s.busy = true → s.cur = some i → step s = .next t →
    (t.busy = true ∧ t.cur = some i) ∨
    (t.busy = false ∧ ∃ r : Result, t.results = s.results ++ [⟨selector i, r⟩])) ∧
  State.reset.sync = false ∧ State.reset.busy = false ∧ State.reset.ctrlstat = 0x00 ∧ State.reset.rxbuf = [] ∧
  State.reset.hist = []

/-! ## Caller-side sequences -/

/-- R251: a region of L bytes at `start` is cut into ceil(L / 256) chunks; chunk k starts at `start + 256 * k` and has 256
bytes, but the last has L mod 256, or 256 where 256 divides L; together they have L bytes. R250, R252 to R254: both
expansions make one transaction per chunk, at the chunk's address, up to the first that fails. READ_REGION gives all the
data, or the failing chunk's result unchanged, or nothing where the caller stopped it (log entry 24). WRITE_REGION gives
OK, the first chunk's failure unchanged, or PARTIALLY_APPLIED with the bytes of the chunks that succeeded, the address of
the next chunk and its result, or no result where the caller stopped. Their checks come first, in the spec's order; data
of 2^32 bytes or more is out of range (00_scope.md R8; log entry 23). -/
def Obligations.RegionChunkSequence : Prop :=
  (∀ len : Nat,
    (regionChunks len).length = (len + 255) / 256 ∧
    (∀ k, k < (len + 255) / 256 → (regionChunks len)[k]? = some (256 * k,
      if k + 1 < (len + 255) / 256 then 256 else if len % 256 = 0 then 256 else len % 256)) ∧
    ((regionChunks len).map Prod.snd).sum = len) ∧
  (∀ (addr : U32) (data : List Byte) (k c : Nat), addr.toNat + 256 * k < 2 ^ 32 → c ≤ 256 →
    ∃ a n : U32, readChunk addr (256 * k, c) = .txnReadChunk a n ∧
      writeChunk addr data (256 * k, c) = .txnWriteChunk a ((data.drop (256 * k)).take c) ∧
      a = chunkAddr addr (256 * k) ∧ a.toNat = addr.toNat + 256 * k ∧ n.toNat = c) ∧
  (∀ (addr len : U32) (stop : Option Nat) (s : State), len = 0 ∨ addr.toNat + len.toNat > 2 ^ 32 →
    readRegion addr len stop s = (s, .finished ⟨.invalidArgument, .range, none, none, none⟩)) ∧
  (∀ (addr len : U32) (s : State), len ≠ 0 → addr.toNat + len.toNat ≤ 2 ^ 32 →
    (∀ stop t rs, (∀ k, stop = some k → (regionChunks len.toNat).length ≤ k + 1) →
      ChunksDone (readChunk addr) (regionChunks len.toNat) s t rs →
      (rs.flatMap Result.bytes).length = len.toNat ∧
      readRegion addr len stop s = (t, .finished ⟨.ok, .none, none, none, some (.data (rs.flatMap Result.bytes))⟩)) ∧
    (∀ stop done chunk rest u t rs r, (∀ k, stop = some k → done.length ≤ k) →
      regionChunks len.toNat = done ++ chunk :: rest →
      ChunksDone (readChunk addr) done s u rs → callBlock (readChunk addr chunk) u = (t, some r) → r.status ≠ .ok →
      readRegion addr len stop s = (t, .finished r)) ∧
    (∀ done chunk rest u rs k, regionChunks len.toNat = done ++ chunk :: rest → done.length = k + 1 →
      ChunksDone (readChunk addr) done s u rs → readRegion addr len (some k) s = (u, .stopped))) ∧
  (∀ (addr : U32) (data : List Byte) (stop : Option Nat) (s : State),
    (data = [] → writeRegion addr data stop s = (s, .finished ⟨.invalidArgument, .range, none, none, none⟩)) ∧
    (data ≠ [] → addr.toNat % 4 ≠ 0 →
      writeRegion addr data stop s = (s, .finished ⟨.invalidArgument, .misaligned, none, none, none⟩)) ∧
    (data ≠ [] → addr.toNat % 4 = 0 → addr.toNat + data.length > 2 ^ 32 ∨ 2 ^ 32 ≤ data.length →
      writeRegion addr data stop s = (s, .finished ⟨.invalidArgument, .range, none, none, none⟩))) ∧
  (∀ (addr : U32) (data : List Byte) (s : State), data ≠ [] → addr.toNat % 4 = 0 →
    addr.toNat + data.length ≤ 2 ^ 32 → data.length < 2 ^ 32 →
    (∀ stop t rs, (∀ k, stop = some k → (regionChunks data.length).length ≤ k + 1) →
      ChunksDone (writeChunk addr data) (regionChunks data.length) s t rs →
      writeRegion addr data stop s = (t, .finished ⟨.ok, .none, none, none, none⟩)) ∧
    (∀ stop done chunk rest u t rs r, (∀ k, stop = some k → done.length ≤ k) →
      regionChunks data.length = done ++ chunk :: rest →
      ChunksDone (writeChunk addr data) done s u rs → callBlock (writeChunk addr data chunk) u = (t, some r) →
      r.status ≠ .ok →
      writeRegion addr data stop s = (t, if done = [] then .finished r
        else .partiallyApplied (256 * done.length) (chunkAddr addr (256 * done.length)) (some r))) ∧
    (∀ done chunk rest u rs k, regionChunks data.length = done ++ chunk :: rest → done.length = k + 1 →
      ChunksDone (writeChunk addr data) done s u rs →
      writeRegion addr data (some k) s =
        (u, .partiallyApplied (256 * done.length) (chunkAddr addr (256 * done.length)) none)))
end

