-- ==== Sys2Proof/Laws/Caller.lean ====
section
/-! SUPPORT. What the loop of the caller's sequences does (45_caller_sequences.md), said once for both of them; proofs about
READ_REGION and WRITE_REGION cite these and do not unfold it. -/

namespace Sys2Proof.Machine

/-- Every chunk succeeds, and the caller does not stop before the last (R250, R252). -/
theorem runChunks_completed {call : Nat × Nat → Instr} {chunks : List (Nat × Nat)} {s t : State} {rs : List Result}
    (h : ChunksDone call chunks s t rs) (more : Option Nat) (hm : ∀ k, more = some k → chunks.length ≤ k) :
    runChunks call chunks more s = (t, .completed rs) := by
  induction h generalizing more with
  | nil s => rfl
  | cons h ok _ ih =>
    cases more with
    | none => simp [runChunks, h, ok, ih none, ChunkRun.after]
    | some k =>
      cases k with
      | zero => simpa using hm 0 rfl
      | succ k =>
        have := ih (some k) (by rintro _ ⟨⟩; simpa using hm _ rfl)
        simp [runChunks, h, ok, this, ChunkRun.after]

/-- After chunks that succeed, the loop goes on with those that are left (R250, R252). -/
theorem runChunks_append {call : Nat × Nat → Instr} {done : List (Nat × Nat)} {s u : State} {rs : List Result}
    (h : ChunksDone call done s u rs) (rest : List (Nat × Nat)) (more : Option Nat)
    (hm : ∀ k, more = some k → done.length ≤ k) :
    runChunks call (done ++ rest) more s =
      ((runChunks call rest (more.map (· - done.length)) u).1,
        rs.foldr ChunkRun.after (runChunks call rest (more.map (· - done.length)) u).2) := by
  induction h generalizing more with
  | nil s => cases more <;> simp
  | cons h ok _ ih =>
    cases more with
    | none => simp [runChunks, h, ok, ih none]
    | some k =>
      cases k with
      | zero => simpa using hm 0 rfl
      | succ k =>
        have := ih (some k) (by rintro _ ⟨⟩; simpa using hm _ rfl)
        simp [runChunks, h, ok, this, Nat.add_sub_add_right]

theorem foldr_after_failed (rs : List Result) (off : Nat) (r : Result) :
    rs.foldr ChunkRun.after (.failed off r) = .failed off r := by
  induction rs with
  | nil => rfl
  | cons _ _ ih => simp [ih, ChunkRun.after]

theorem foldr_after_stopped (rs : List Result) (off : Nat) : rs.foldr ChunkRun.after (.stopped off) = .stopped off := by
  induction rs with
  | nil => rfl
  | cons _ _ ih => simp [ih, ChunkRun.after]

/-- The first chunk that fails ends the loop (R250, R252). -/
theorem runChunks_failed {call : Nat × Nat → Instr} {done rest : List (Nat × Nat)} {chunk : Nat × Nat} {s u t : State}
    {rs : List Result} {r : Result} (h : ChunksDone call done s u rs) (hc : callBlock (call chunk) u = (t, some r))
    (hr : r.status ≠ .ok) (more : Option Nat) (hm : ∀ k, more = some k → done.length < k) :
    runChunks call (done ++ chunk :: rest) more s = (t, .failed chunk.1 r) := by
  rw [runChunks_append h _ _ fun k hk => (hm k hk).le]
  have : runChunks call (chunk :: rest) (more.map (· - done.length)) u = (t, .failed chunk.1 r) := by
    cases more with
    | none => simp [runChunks, hc, hr]
    | some k =>
      obtain ⟨j, hj⟩ := Nat.exists_eq_add_of_lt (hm k rfl)
      have : k - done.length = j + 1 := by omega
      simp [runChunks, hc, hr, this]
  rw [this, foldr_after_failed]

/-- The caller stops between two chunks (R253). -/
theorem runChunks_stopped {call : Nat × Nat → Instr} {done rest : List (Nat × Nat)} {chunk : Nat × Nat} {s u : State}
    {rs : List Result} (h : ChunksDone call done s u rs) :
    runChunks call (done ++ chunk :: rest) (some done.length) s = (u, .stopped chunk.1) := by
  rw [runChunks_append h _ _ (by rintro _ ⟨⟩; exact le_rfl)]
  simp [runChunks, foldr_after_stopped]

end Sys2Proof.Machine
end

