-- ==== Sys2Proof/Laws/Decode.lean ====
section
/-! SUPPORT. The byte-order helpers and the operand readers against the operand writers, in both directions. -/

namespace Sys2Proof

/-! ## Byte order (R53, R98) -/

/-- A number above some low bits, or-ed with them, is their sum. -/
theorem or_low {a y : Nat} (k : Nat) (h : y < 2 ^ k) : a * 2 ^ k ||| y = a * 2 ^ k + y := by
  rw [Nat.mul_comm, Nat.two_pow_add_eq_or_of_lt h]

/-- The value of two bytes, the first the more significant (R53). -/
theorem fromBe16_toNat (b0 b1 : Byte) : (fromBe16 b0 b1).toNat = b0.toNat * 256 + b1.toNat := by
  have := b0.isLt; have := b1.isLt
  simp only [fromBe16, BitVec.zeroExtend_eq_setWidth, BitVec.toNat_or, BitVec.toNat_shiftLeft, BitVec.toNat_setWidth,
    Nat.shiftLeft_eq]
  rw [Nat.mod_eq_of_lt (a := b0.toNat) (by omega), Nat.mod_eq_of_lt (a := b1.toNat) (by omega),
    Nat.mod_eq_of_lt (by omega), or_low 8 (by omega)]
  rfl

/-- The value of four bytes, the first the most significant (R53). -/
theorem fromBe32_toNat (b0 b1 b2 b3 : Byte) : (fromBe32 b0 b1 b2 b3).toNat =
    (b0.toNat * 256 + b1.toNat) * 65536 + b2.toNat * 256 + b3.toNat := by
  have := b0.isLt; have := b1.isLt; have := b2.isLt; have := b3.isLt
  simp only [fromBe32, BitVec.zeroExtend_eq_setWidth, BitVec.toNat_or, BitVec.toNat_shiftLeft, BitVec.toNat_setWidth,
    Nat.shiftLeft_eq]
  rw [Nat.mod_eq_of_lt (a := b0.toNat) (by omega), Nat.mod_eq_of_lt (a := b1.toNat) (by omega),
    Nat.mod_eq_of_lt (a := b2.toNat) (by omega), Nat.mod_eq_of_lt (a := b3.toNat) (by omega),
    Nat.mod_eq_of_lt (by omega), Nat.mod_eq_of_lt (by omega), Nat.mod_eq_of_lt (by omega), or_low 24 (by omega)]
  have e := or_low (a := b0.toNat * 256 + b1.toNat) (y := b2.toNat * 2 ^ 8) 16 (by omega)
  rw [show b0.toNat * 2 ^ 24 + b1.toNat * 2 ^ 16 = (b0.toNat * 256 + b1.toNat) * 2 ^ 16 by omega, e]
  have e' := or_low (a := (b0.toNat * 256 + b1.toNat) * 256 + b2.toNat) (y := b3.toNat) 8 (by omega)
  rw [show (b0.toNat * 256 + b1.toNat) * 2 ^ 16 + b2.toNat * 2 ^ 8 =
    ((b0.toNat * 256 + b1.toNat) * 256 + b2.toNat) * 2 ^ 8 by omega, e']
  omega

@[simp] theorem be16_length (v : U16) : (be16 v).length = 2 := rfl
@[simp] theorem be32_length (v : U32) : (be32 v).length = 4 := rfl

@[simp] theorem fromBe16_be16 (v : U16) : fromBe16 (v.extractLsb' 8 8) (v.extractLsb' 0 8) = v := by
  apply BitVec.eq_of_toNat_eq
  have := v.isLt
  simp only [fromBe16_toNat, BitVec.extractLsb'_toNat, Nat.shiftRight_eq_div_pow]
  omega

@[simp] theorem fromBe32_be32 (v : U32) : fromBe32 (v.extractLsb' 24 8) (v.extractLsb' 16 8) (v.extractLsb' 8 8)
    (v.extractLsb' 0 8) = v := by
  apply BitVec.eq_of_toNat_eq
  have := v.isLt
  simp only [fromBe32_toNat, BitVec.extractLsb'_toNat, Nat.shiftRight_eq_div_pow]
  omega

@[simp] theorem be16_fromBe16 (b0 b1 : Byte) : be16 (fromBe16 b0 b1) = [b0, b1] := by
  have := b0.isLt; have := b1.isLt
  simp only [be16, List.cons.injEq, and_true]
  constructor <;> apply BitVec.eq_of_toNat_eq <;>
    simp only [fromBe16_toNat, BitVec.extractLsb'_toNat, Nat.shiftRight_eq_div_pow] <;> omega

@[simp] theorem be32_fromBe32 (b0 b1 b2 b3 : Byte) : be32 (fromBe32 b0 b1 b2 b3) = [b0, b1, b2, b3] := by
  have := b0.isLt; have := b1.isLt; have := b2.isLt; have := b3.isLt
  simp only [be32, List.cons.injEq, and_true]
  refine ⟨?_, ?_, ?_, ?_⟩ <;> apply BitVec.eq_of_toNat_eq <;>
    simp only [fromBe32_toNat, BitVec.extractLsb'_toNat, Nat.shiftRight_eq_div_pow] <;> omega

/-- Equal big-endian bytes, equal values. -/
theorem be16_inj {a b : U16} (h : be16 a = be16 b) : a = b := by
  simp only [be16, List.cons.injEq, and_true] at h
  rw [← fromBe16_be16 a, ← fromBe16_be16 b, h.1, h.2]

theorem be32_inj {a b : U32} (h : be32 a = be32 b) : a = b := by
  simp only [be32, List.cons.injEq, and_true] at h
  rw [← fromBe32_be32 a, ← fromBe32_be32 b, h.1, h.2.1, h.2.2.1, h.2.2.2]

/-! ## Pairs -/

/-- A list of values as big-endian bytes, read back. -/
@[simp] theorem pairs16_flatMap (ps : List U16) : pairs16 (ps.flatMap be16) = ps := by
  induction ps with
  | nil => rfl
  | cons p ps ih => simpa [be16, pairs16] using ih

@[simp] theorem flatMap_be16_length (ps : List U16) : (ps.flatMap be16).length = 2 * ps.length := by
  induction ps with
  | nil => rfl
  | cons p ps ih => simp [ih]; omega

/-- Bytes of even number, read two by two and written again. -/
theorem flatMap_pairs16 {n : Nat} {bs : List Byte} (h : bs.length = 2 * n) :
    (pairs16 bs).length = n ∧ (pairs16 bs).flatMap be16 = bs := by
  induction n generalizing bs with
  | zero => have : bs = [] := List.eq_nil_of_length_eq_zero (by omega); subst this; exact ⟨rfl, rfl⟩
  | succ n ih =>
    match bs, h with
    | b0 :: b1 :: bs, h => have := @ih bs (by simp at h; omega); simp [pairs16, this]

/-- The pairs of an even number of bytes, by position. -/
theorem pairs16_eq_map {n : Nat} {bs : List Byte} (h : bs.length = 2 * n) :
    pairs16 bs = (List.range n).map fun k => fromBe16 (bs.getD (2 * k) 0) (bs.getD (2 * k + 1) 0) := by
  induction n generalizing bs with
  | zero => have : bs = [] := List.eq_nil_of_length_eq_zero (by omega); subst this; rfl
  | succ n ih =>
    match bs, h with
    | b0 :: b1 :: bs, h =>
      rw [pairs16, ih (by simp at h; omega), List.range_succ_eq_map]
      simp [Nat.mul_succ]

/-! ## Readers after writers (R83) -/

@[simp] theorem readU8_cons (b : Byte) (rest : List Byte) : readU8 (b :: rest) = some (b, rest) := rfl

@[simp] theorem readU16_be16 (v : U16) (rest : List Byte) : readU16 (be16 v ++ rest) = some (v, rest) := by
  simp [be16, readU16]

@[simp] theorem readU32_be32 (v : U32) (rest : List Byte) : readU32 (be32 v ++ rest) = some (v, rest) := by
  simp [be32, readU32]

@[simp] theorem takeBytes_append (xs rest : List Byte) : takeBytes xs.length (xs ++ rest) = some (xs, rest) := by
  simp [takeBytes]

theorem readBytes_writeBytes {xs : List Byte} (h : fitsCount xs) (rest : List Byte) :
    readBytes (writeBytes xs ++ rest) = some (xs, rest) := by
  have e : xs.length % 4294967296 = xs.length := Nat.mod_eq_of_lt h
  simp [readBytes, writeBytes, e]

theorem readU16s_writeU16s {xs : List U16} (h : fitsCount xs) (rest : List Byte) :
    readU16s (writeU16s xs ++ rest) = some (xs, rest) := by
  have := takeBytes_append (xs.flatMap be16) rest
  rw [flatMap_be16_length] at this
  have e : xs.length % 4294967296 = xs.length := Nat.mod_eq_of_lt h
  simp [readU16s, writeU16s, e, this]

/-! ## What a reader takes is what a writer writes -/

theorem readU8_some {bs rest : List Byte} {b : Byte} (h : readU8 bs = some (b, rest)) : bs = b :: rest := by
  match bs, h with
  | _ :: _, h => simpa [readU8] using h

theorem readU16_some {bs rest : List Byte} {v : U16} (h : readU16 bs = some (v, rest)) : bs = be16 v ++ rest := by
  match bs, h with
  | b0 :: b1 :: bs, h =>
    simp only [readU16, Option.some.injEq, Prod.mk.injEq] at h
    simp [← h.1, h.2]

theorem readU32_some {bs rest : List Byte} {v : U32} (h : readU32 bs = some (v, rest)) : bs = be32 v ++ rest := by
  match bs, h with
  | b0 :: b1 :: b2 :: b3 :: bs, h =>
    simp only [readU32, Option.some.injEq, Prod.mk.injEq] at h
    simp [← h.1, h.2]

theorem takeBytes_some {n : Nat} {bs xs rest : List Byte} (h : takeBytes n bs = some (xs, rest)) :
    xs.length = n ∧ bs = xs ++ rest := by
  simp only [takeBytes] at h
  split at h
  · simp at h
  · simp only [Option.some.injEq, Prod.mk.injEq] at h
    obtain ⟨rfl, rfl⟩ := h
    simp only [List.length_take, List.take_append_drop, and_true]
    omega

theorem readBytes_some {bs xs rest : List Byte} (h : readBytes bs = some (xs, rest)) :
    fitsCount xs ∧ bs = writeBytes xs ++ rest := by
  simp only [readBytes] at h
  split at h
  · rename_i n r hn
    obtain ⟨hl, rfl⟩ := takeBytes_some h
    have := n.isLt
    exact ⟨by simp only [fitsCount]; omega, by simp [readU32_some hn, writeBytes, hl]⟩
  · simp at h

theorem readU16s_some {bs rest : List Byte} {xs : List U16} (h : readU16s bs = some (xs, rest)) :
    fitsCount xs ∧ bs = writeU16s xs ++ rest := by
  simp only [readU16s] at h
  split at h
  · rename_i n r hn
    split at h
    · rename_i body r' hb
      simp only [Option.some.injEq, Prod.mk.injEq] at h
      obtain ⟨rfl, rfl⟩ := h
      obtain ⟨hl, rfl⟩ := takeBytes_some hb
      obtain ⟨h1, h2⟩ := flatMap_pairs16 hl
      have := n.isLt
      exact ⟨by simp only [fitsCount]; omega, by simp [readU32_some hn, writeU16s, h1, h2]⟩
    · simp at h
  · simp at h

end Sys2Proof
end

