-- ==== Sys2Proof/Laws/Checksum.lean ====
section
/-! SUPPORT. The XOR-fold (00_scope.md R14) and what one flipped bit does to a frame (41_codec_builders.md R128, R129). -/

namespace Sys2Proof.Machine

@[simp] theorem xorfold_nil : xorfold [] = 0 := rfl

theorem foldl_xor (bs : List Byte) (x : Byte) : bs.foldl (· ^^^ ·) x = x ^^^ xorfold bs := by
  induction bs generalizing x with
  | nil => simp
  | cons b bs ih =>
    rw [List.foldl_cons, ih, show xorfold (b :: bs) = bs.foldl (· ^^^ ·) (0#8 ^^^ b) from rfl, ih, BitVec.zero_xor,
      BitVec.xor_assoc]

@[simp] theorem xorfold_cons (b : Byte) (bs : List Byte) : xorfold (b :: bs) = b ^^^ xorfold bs := by
  rw [← foldl_xor]; simp [xorfold]

@[simp] theorem xorfold_append (xs ys : List Byte) : xorfold (xs ++ ys) = xorfold xs ^^^ xorfold ys := by
  induction xs with
  | nil => simp
  | cons x xs ih => simp [ih, BitVec.xor_assoc]

/-- A body with its checksum folds to 0 (R128). -/
@[simp] theorem xorfold_withXor (body : List Byte) : xorfold (withXor body) = 0 := by simp [withXor]

/-- A frame that folds to 0 ends in the fold of what comes before (R128). -/
theorem xorfold_zero_iff {f : List Byte} (h : f ≠ []) : xorfold f = 0 ↔ f = withXor f.dropLast := by
  obtain ⟨xs, x, rfl⟩ := List.eq_nil_or_concat f |>.resolve_left h
  constructor
  · intro e
    simp only [List.concat_eq_append, xorfold_append, xorfold_cons, xorfold_nil] at e
    simp [withXor, BitVec.xor_eq_zero_iff.mp (by simpa using e)]
  · intro e; rw [e]; exact xorfold_withXor _

@[simp] theorem flipBit_length (f : List Byte) (k j : Nat) : (flipBit f k j).length = f.length := by simp [flipBit]

/-- One flipped bit flips the same bit of the fold (R129). -/
theorem xorfold_flipBit {f : List Byte} {k : Nat} (j : Nat) (h : k < f.length) :
    xorfold (flipBit f k j) = xorfold f ^^^ (1#8 <<< j) := by
  induction f generalizing k with
  | nil => simp at h
  | cons b f ih =>
    cases k with
    | zero => simp [flipBit, BitVec.xor_assoc, BitVec.xor_comm (xorfold f)]
    | succ k =>
      have := @ih k (by simpa using h)
      simp only [flipBit] at this
      simp [flipBit, this, BitVec.xor_assoc]

/-- A bit mask of a byte is not 0. -/
theorem mask_ne_zero {j : Nat} (h : j < 8) : (1#8 <<< j) ≠ 0 := by
  intro e
  have := congrArg (·.getLsbD j) e
  simp [h] at this

/-- A flipped byte differs. -/
theorem xor_mask_ne {j : Nat} (h : j < 8) (b : Byte) : b ^^^ (1#8 <<< j) ≠ b := fun e =>
  mask_ne_zero h (by simpa using e)

end Sys2Proof.Machine
end

