-- ==== Sys2Proof/Laws/State.lean ====
section
/-! SUPPORT. One lemma per field for each update of State, so that no proof unfolds a record update. -/

namespace Sys2Proof.Machine

variable (s : State)

/-! ## answer -/

@[simp] theorem answer_sync (o : Byte) (r : Result) : (State.answer o r s).sync = s.sync := rfl
@[simp] theorem answer_busy (o : Byte) (r : Result) : (State.answer o r s).busy = s.busy := rfl
@[simp] theorem answer_pollBudget (o : Byte) (r : Result) : (State.answer o r s).pollBudget = s.pollBudget := rfl
@[simp] theorem answer_txn (o : Byte) (r : Result) : (State.answer o r s).txn = s.txn := rfl
@[simp] theorem answer_spc (o : Byte) (r : Result) : (State.answer o r s).spc = s.spc := rfl
@[simp] theorem answer_nvar (o : Byte) (r : Result) : (State.answer o r s).nvar = s.nvar := rfl
@[simp] theorem answer_att (o : Byte) (r : Result) : (State.answer o r s).att = s.att := rfl
@[simp] theorem answer_rxbuf (o : Byte) (r : Result) : (State.answer o r s).rxbuf = s.rxbuf := rfl
@[simp] theorem answer_hist (o : Byte) (r : Result) : (State.answer o r s).hist = s.hist := rfl
@[simp] theorem answer_cur (o : Byte) (r : Result) : (State.answer o r s).cur = s.cur := rfl
@[simp] theorem answer_budget (o : Byte) (r : Result) : (State.answer o r s).budget = s.budget := rfl
@[simp] theorem answer_results (o : Byte) (r : Result) : (State.answer o r s).results = s.results ++ [⟨o, r⟩] := rfl
@[simp] theorem answer_txq (o : Byte) (r : Result) : (State.answer o r s).txq = s.txq := rfl
@[simp] theorem answer_rxq (o : Byte) (r : Result) : (State.answer o r s).rxq = s.rxq := rfl
@[simp] theorem answer_inputs (o : Byte) (r : Result) : (State.answer o r s).inputs = s.inputs := rfl

/-! ## finish -/

@[simp] theorem finish_sync (r : Result) : (State.finish r s).sync = if r.status = .protocolViolation then false else s.sync := rfl
@[simp] theorem finish_busy (r : Result) : (State.finish r s).busy = false := rfl
@[simp] theorem finish_pollBudget (r : Result) : (State.finish r s).pollBudget = s.pollBudget := rfl
@[simp] theorem finish_txn (r : Result) : (State.finish r s).txn = s.txn := rfl
@[simp] theorem finish_spc (r : Result) : (State.finish r s).spc = s.spc := rfl
@[simp] theorem finish_nvar (r : Result) : (State.finish r s).nvar = s.nvar := rfl
@[simp] theorem finish_att (r : Result) : (State.finish r s).att = s.att := rfl
@[simp] theorem finish_rxbuf (r : Result) : (State.finish r s).rxbuf = s.rxbuf := rfl
@[simp] theorem finish_hist (r : Result) : (State.finish r s).hist = s.hist := rfl
@[simp] theorem finish_cur (r : Result) : (State.finish r s).cur = none := rfl
@[simp] theorem finish_budget (r : Result) : (State.finish r s).budget = s.budget := rfl
@[simp] theorem finish_results (r : Result) : (State.finish r s).results = s.results ++ [⟨s.txn, r⟩] := rfl
@[simp] theorem finish_txq (r : Result) : (State.finish r s).txq = s.txq := rfl
@[simp] theorem finish_rxq (r : Result) : (State.finish r s).rxq = s.rxq := rfl
@[simp] theorem finish_inputs (r : Result) : (State.finish r s).inputs = s.inputs := rfl

/-! ## accept -/

@[simp] theorem accept_sync (i : Instr) : (State.accept i s).sync = s.sync := rfl
@[simp] theorem accept_busy (i : Instr) : (State.accept i s).busy = true := rfl
@[simp] theorem accept_pollBudget (i : Instr) : (State.accept i s).pollBudget = s.pollBudget := rfl
@[simp] theorem accept_txn (i : Instr) : (State.accept i s).txn = selector i := rfl
@[simp] theorem accept_spc (i : Instr) : (State.accept i s).spc = 0 := rfl
@[simp] theorem accept_nvar (i : Instr) : (State.accept i s).nvar = s.nvar := rfl
@[simp] theorem accept_att (i : Instr) : (State.accept i s).att = s.att := rfl
@[simp] theorem accept_rxbuf (i : Instr) : (State.accept i s).rxbuf = [] := rfl
@[simp] theorem accept_hist (i : Instr) : (State.accept i s).hist = s.hist := rfl
@[simp] theorem accept_cur (i : Instr) : (State.accept i s).cur = some i := rfl
@[simp] theorem accept_budget (i : Instr) : (State.accept i s).budget = s.pollBudget := rfl
@[simp] theorem accept_results (i : Instr) : (State.accept i s).results = s.results := rfl
@[simp] theorem accept_txq (i : Instr) : (State.accept i s).txq = s.txq := rfl
@[simp] theorem accept_rxq (i : Instr) : (State.accept i s).rxq = s.rxq := rfl
@[simp] theorem accept_inputs (i : Instr) : (State.accept i s).inputs = s.inputs := rfl

/-! ## log -/

@[simp] theorem log_sync (e : Event) : (State.log e s).sync = s.sync := rfl
@[simp] theorem log_busy (e : Event) : (State.log e s).busy = s.busy := rfl
@[simp] theorem log_pollBudget (e : Event) : (State.log e s).pollBudget = s.pollBudget := rfl
@[simp] theorem log_txn (e : Event) : (State.log e s).txn = s.txn := rfl
@[simp] theorem log_spc (e : Event) : (State.log e s).spc = s.spc := rfl
@[simp] theorem log_nvar (e : Event) : (State.log e s).nvar = s.nvar := rfl
@[simp] theorem log_att (e : Event) : (State.log e s).att = s.att := rfl
@[simp] theorem log_rxbuf (e : Event) : (State.log e s).rxbuf = s.rxbuf := rfl
@[simp] theorem log_hist (e : Event) : (State.log e s).hist = s.hist ++ [e] := rfl
@[simp] theorem log_cur (e : Event) : (State.log e s).cur = s.cur := rfl
@[simp] theorem log_budget (e : Event) : (State.log e s).budget = s.budget := rfl
@[simp] theorem log_results (e : Event) : (State.log e s).results = s.results := rfl
@[simp] theorem log_txq (e : Event) : (State.log e s).txq = s.txq := rfl
@[simp] theorem log_rxq (e : Event) : (State.log e s).rxq = s.rxq := rfl
@[simp] theorem log_inputs (e : Event) : (State.log e s).inputs = s.inputs := rfl

/-! ## nextStep -/

@[simp] theorem nextStep_sync : (State.nextStep s).sync = s.sync := rfl
@[simp] theorem nextStep_busy : (State.nextStep s).busy = s.busy := rfl
@[simp] theorem nextStep_pollBudget : (State.nextStep s).pollBudget = s.pollBudget := rfl
@[simp] theorem nextStep_txn : (State.nextStep s).txn = s.txn := rfl
@[simp] theorem nextStep_spc : (State.nextStep s).spc = s.spc + 1 := rfl
@[simp] theorem nextStep_nvar : (State.nextStep s).nvar = s.nvar := rfl
@[simp] theorem nextStep_att : (State.nextStep s).att = s.att := rfl
@[simp] theorem nextStep_rxbuf : (State.nextStep s).rxbuf = s.rxbuf := rfl
@[simp] theorem nextStep_hist : (State.nextStep s).hist = s.hist := rfl
@[simp] theorem nextStep_cur : (State.nextStep s).cur = s.cur := rfl
@[simp] theorem nextStep_budget : (State.nextStep s).budget = s.budget := rfl
@[simp] theorem nextStep_results : (State.nextStep s).results = s.results := rfl
@[simp] theorem nextStep_txq : (State.nextStep s).txq = s.txq := rfl
@[simp] theorem nextStep_rxq : (State.nextStep s).rxq = s.rxq := rfl
@[simp] theorem nextStep_inputs : (State.nextStep s).inputs = s.inputs := rfl

/-! ## blockReset -/

@[simp] theorem blockReset_sync : (State.blockReset s).sync = false := rfl
@[simp] theorem blockReset_busy : (State.blockReset s).busy = false := rfl
@[simp] theorem blockReset_pollBudget : (State.blockReset s).pollBudget = s.pollBudget := rfl
@[simp] theorem blockReset_txn : (State.blockReset s).txn = s.txn := rfl
@[simp] theorem blockReset_spc : (State.blockReset s).spc = s.spc := rfl
@[simp] theorem blockReset_nvar : (State.blockReset s).nvar = s.nvar := rfl
@[simp] theorem blockReset_att : (State.blockReset s).att = s.att := rfl
@[simp] theorem blockReset_rxbuf : (State.blockReset s).rxbuf = [] := rfl
@[simp] theorem blockReset_hist : (State.blockReset s).hist = [] := rfl
@[simp] theorem blockReset_cur : (State.blockReset s).cur = none := rfl
@[simp] theorem blockReset_budget : (State.blockReset s).budget = s.budget := rfl
@[simp] theorem blockReset_results : (State.blockReset s).results = s.results := rfl
@[simp] theorem blockReset_txq : (State.blockReset s).txq = s.txq := rfl
@[simp] theorem blockReset_rxq : (State.blockReset s).rxq = s.rxq := rfl
@[simp] theorem blockReset_inputs : (State.blockReset s).inputs = s.inputs := rfl

/-! ## enter: only ATT can change -/

@[simp] theorem enter_sync (m : Micro) : (State.enter m s).sync = s.sync := by cases m <;> rfl
@[simp] theorem enter_busy (m : Micro) : (State.enter m s).busy = s.busy := by cases m <;> rfl
@[simp] theorem enter_pollBudget (m : Micro) : (State.enter m s).pollBudget = s.pollBudget := by cases m <;> rfl
@[simp] theorem enter_txn (m : Micro) : (State.enter m s).txn = s.txn := by cases m <;> rfl
@[simp] theorem enter_spc (m : Micro) : (State.enter m s).spc = s.spc := by cases m <;> rfl
@[simp] theorem enter_nvar (m : Micro) : (State.enter m s).nvar = s.nvar := by cases m <;> rfl
@[simp] theorem enter_rxbuf (m : Micro) : (State.enter m s).rxbuf = s.rxbuf := by cases m <;> rfl
@[simp] theorem enter_hist (m : Micro) : (State.enter m s).hist = s.hist := by cases m <;> rfl
@[simp] theorem enter_cur (m : Micro) : (State.enter m s).cur = s.cur := by cases m <;> rfl
@[simp] theorem enter_budget (m : Micro) : (State.enter m s).budget = s.budget := by cases m <;> rfl
@[simp] theorem enter_results (m : Micro) : (State.enter m s).results = s.results := by cases m <;> rfl
@[simp] theorem enter_txq (m : Micro) : (State.enter m s).txq = s.txq := by cases m <;> rfl
@[simp] theorem enter_rxq (m : Micro) : (State.enter m s).rxq = s.rxq := by cases m <;> rfl
@[simp] theorem enter_inputs (m : Micro) : (State.enter m s).inputs = s.inputs := by cases m <;> rfl

end Sys2Proof.Machine
end

