-- ==== Sys2Proof/Laws/Ops.lean ====
section
/-! SUPPORT. What each shared operation can do: the checks, the link primitives, the steps of a step list and the run of
a list. Proofs cite these and do not unfold the operations. -/

namespace Sys2Proof.Machine

/-! ## Results and checks -/

@[simp] theorem err_status (r : Reason) (i : Option Byte) (x : Option Site) : (Result.err r i x).status = r.status := rfl
@[simp] theorem err_reason (r : Reason) (i : Option Byte) (x : Option Site) : (Result.err r i x).reason = r := rfl
@[simp] theorem err_value (r : Reason) (i : Option Byte) (x : Option Site) : (Result.err r i x).value = none := rfl
@[simp] theorem done_status (v : Option Value) : (Result.done v).status = .ok := rfl
@[simp] theorem done_value (v : Option Value) : (Result.done v).value = v := rfl

/-- 0x79 and 0x1F, in simp's form of them (R183). -/
@[simp] theorem classify_ack : classify 121#8 = .ack := rfl
@[simp] theorem classify_nack : classify 31#8 = .nack := rfl

theorem classify_other {b : Byte} (h : b ≠ 0x79) (h' : b ≠ 0x1F) : classify b = .other := by
  rw [classify, if_neg h, if_neg h']

theorem rangeCheck_none {n : Nat} (h : 1 ≤ n ∧ n ≤ 256) : rangeCheck n = none := by
  exact if_neg (by simp only [maxChunk]; omega)

theorem rangeCheck_some {n : Nat} (h : n < 1 ∨ 256 < n) : rangeCheck n = some .range := by
  exact if_pos (by simp only [maxChunk]; omega)

theorem rangeCheck_iff {n : Nat} : rangeCheck n = none ↔ 1 ≤ n ∧ n ≤ 256 := by
  constructor
  · intro h
    by_contra hn
    rw [rangeCheck_some (by omega)] at h
    cases h
  · exact rangeCheck_none

/-- A code is a sentinel exactly when it is one of the three (R38). -/
theorem sentinels_contains (c : U16) : sentinels.contains c = true ↔ c = 0xFFFF ∨ c = 0xFFFE ∨ c = 0xFFFD := by
  simp [sentinels, List.contains_eq_mem]

/-- A page list holds a sentinel exactly when some page is one of the three. -/
theorem any_sentinel (ps : List U16) :
    ps.any (sentinels.contains ·) = true ↔ ∃ p ∈ ps, p = 0xFFFF ∨ p = 0xFFFE ∨ p = 0xFFFD := by
  simp only [List.any_eq_true, sentinels_contains]

theorem pageListCheck_none {ps : List U16} :
    pageListCheck ps = none ↔ 1 ≤ ps.length ∧ ps.length ≤ 65532 ∧ ∀ p ∈ ps, p.toNat < 65533 := by
  have key : (∃ p ∈ ps, p = 0xFFFF ∨ p = 0xFFFE ∨ p = 0xFFFD) ↔ ¬ ∀ p ∈ ps, p.toNat < 65533 := by
    simp only [not_forall, exists_prop]
    constructor
    · rintro ⟨p, hp, h⟩; exact ⟨p, hp, by rcases h with h | h | h <;> subst h <;> decide⟩
    · rintro ⟨p, hp, h⟩; exact ⟨p, hp, by bv_omega⟩
  simp only [pageListCheck, any_sentinel, key]
  repeat' split
  all_goals first | (simp only [reduceCtorEq, false_iff]; intro hh; omega) | skip
  · rename_i h; simp only [reduceCtorEq, false_iff]; exact fun hh => h hh.2.2
  · rename_i h; simp only [true_iff]; exact ⟨by omega, by omega, not_not.mp h⟩

theorem specialCheck_none {c : U16} : specialCheck c = none ↔ 65533 ≤ c.toNat := by
  simp only [specialCheck, sentinels_contains]
  split
  · rename_i h; simp only [true_iff]; rcases h with h | h | h <;> subst h <;> decide
  · rename_i h; simp only [reduceCtorEq, false_iff, not_le]; bv_omega

/-! ## Admission -/

theorem admission_busy {d : SyncDuty} {s : State} (h : s.busy = true) : s.admission d = some .busy := by
  simp [State.admission, h]

theorem admission_synced {s : State} (hb : s.busy = false) :
    s.admission .synced = if s.sync then none else some .notSynced := by
  simp [State.admission, hb]

theorem admission_unsynced {s : State} (hb : s.busy = false) :
    s.admission .unsynced = if s.sync then some .alreadySynced else none := by
  simp [State.admission, hb]

/-- An admitted operation runs its steps from acceptance (R184). -/
theorem request_runs {i : Instr} {d : SyncDuty} {p : Plan} {s : State} (h : s.admission d = none) :
    s.request i d none p = runSteps p.kind p.steps (s.accept i) := by
  simp [State.request, h]

/-- A request the flags refuse is answered and changes nothing (R276). -/
theorem request_refused {i : Instr} {d : SyncDuty} {c : Option Result} {p : Plan} {s : State} {r : Reason}
    (h : s.admission d = some r) : s.request i d c p = s.answer (selector i) (.err r none none) := by
  simp [State.request, h]

/-- A request whose own check fails is answered and changes nothing (R216). -/
theorem request_checked {i : Instr} {d : SyncDuty} {r : Result} {p : Plan} {s : State}
    (h : s.admission d = none) : s.request i d (some r) p = s.answer (selector i) r := by
  simp [State.request, h]

/-! ## Link primitives -/

theorem txStep_ok {f : List Byte} {x : Option Site} {s : State} {q : List TxOutcome} (h : s.txq = .ok :: q) :
    txStep f x s = .completed ({ s with txq := q }.log (.tx f .ok)) := by simp [txStep, h]

theorem txStep_fail {f : List Byte} {x : Option Site} {s : State} {q : List TxOutcome} (h : s.txq = .fail :: q) :
    txStep f x s = .ended (.err .txFail none x) ({ s with txq := q }.log (.tx f .fail)) := by simp [txStep, h]

theorem txStep_waits {f : List Byte} {x : Option Site} {s : State} (h : s.txq = []) :
    txStep f x s = .waiting s := by simp [txStep, h]

/-- `n` bytes at the front of the queue are what `RX(n)` gets (R51). -/
theorem takeRx_bytes (bs : List Byte) (q : List (Option Byte)) : takeRx bs.length (bs.map some ++ q) = .ok bs q := by
  induction bs with
  | nil => rfl
  | cons b bs ih => simp [takeRx, ih]

/-- What `RX(n)` gets has `n` bytes (R51). -/
theorem takeRx_ok_length {n : Nat} {q rest : List (Option Byte)} {bs : List Byte} (h : takeRx n q = .ok bs rest) :
    bs.length = n ∧ q = bs.map some ++ rest := by
  induction n generalizing q bs rest with
  | zero => simp only [takeRx, RxGot.ok.injEq] at h; simp [← h.1, h.2]
  | succ n ih =>
    match q with
    | [] => simp [takeRx] at h
    | none :: q => simp [takeRx] at h
    | some b :: q =>
      simp only [takeRx] at h
      split at h <;> simp only [RxGot.ok.injEq, reduceCtorEq] at h
      rename_i bs' rest' heq
      obtain ⟨rfl, rfl⟩ := h
      obtain ⟨h1, h2⟩ := ih heq
      simp [h1, h2]

/-- More answers at the end of the queue do not change what `RX(n)` already got. -/
theorem takeRx_append_ok {n : Nat} {q rest : List (Option Byte)} {bs : List Byte} (x : List (Option Byte))
    (h : takeRx n q = .ok bs rest) : takeRx n (q ++ x) = .ok bs (rest ++ x) := by
  obtain ⟨rfl, rfl⟩ := takeRx_ok_length h
  rw [List.append_assoc, takeRx_bytes]

theorem takeRx_append_fail {n : Nat} {q rest : List (Option Byte)} (x : List (Option Byte))
    (h : takeRx n q = .fail rest) : takeRx n (q ++ x) = .fail (rest ++ x) := by
  induction n generalizing q rest with
  | zero => simp [takeRx] at h
  | succ n ih =>
    match q with
    | [] => simp [takeRx] at h
    | none :: q => simp only [takeRx, RxGot.fail.injEq] at h; simp [takeRx, h]
    | some b :: q =>
      simp only [takeRx] at h
      split at h <;> simp only [RxGot.fail.injEq, reduceCtorEq] at h
      rename_i rest' heq
      subst h
      simp [takeRx, ih heq]

theorem rxStep_waits {n : Nat} {r : Result} {g : List Byte → State → Progress} {s : State}
    (h : takeRx n s.rxq = .nothing) : rxStep n r g s = .waiting s := by simp [rxStep, h]

theorem rxByte_waits {r : Result} {g : Byte → State → Progress} {s : State} (h : s.rxq = []) :
    rxByte r g s = .waiting s := by simp [rxByte, rxStep, h, takeRx]

theorem rxByte_fails {r : Result} {g : Byte → State → Progress} {s : State} {q : List (Option Byte)}
    (h : s.rxq = none :: q) : rxByte r g s = .ended r ({ s with rxq := q }.log (.rx 1 .fail)) := by
  simp [rxByte, rxStep, h, takeRx]

theorem rxByte_gets {r : Result} {g : Byte → State → Progress} {s : State} {b : Byte} {q : List (Option Byte)}
    (h : s.rxq = some b :: q) : rxByte r g s = g b ({ s with rxq := q }.log (.rx 1 (.ok [b]))) := by
  simp [rxByte, rxStep, h, takeRx]

/-- A DATA step that finds its bytes (R210). -/
theorem dataStep_gets {n : Nat} {s : State} {bs : List Byte} {q : List (Option Byte)} (hn : bs.length = n)
    (h : s.rxq = bs.map some ++ q) : dataStep n s =
      .completed (if n = 0 then s else
        { s with rxq := q, hist := s.hist ++ [.rx n (.ok bs)], rxbuf := s.rxbuf ++ bs }) := by
  subst hn
  simp only [dataStep]
  split
  · rfl
  · simp [rxStep, h, takeRx_bytes, State.log]

/-- A DATA step of count 0 reads nothing (R210). -/
@[simp] theorem dataStep_zero (s : State) : dataStep 0 s = .completed s := rfl

/-- A DATA step of another count takes that many bytes (R210). -/
theorem dataStep_takes {n : Nat} {s : State} (bs : List Byte) (q : List (Option Byte)) (h0 : n ≠ 0)
    (hn : bs.length = n) (h : s.rxq = bs.map some ++ q) : dataStep n s =
      .completed { s with rxq := q, hist := s.hist ++ [.rx n (.ok bs)], rxbuf := s.rxbuf ++ bs } := by
  rw [dataStep_gets hn h, if_neg h0]

/-- Failed reads below the budget, one after the other (R186). -/
theorem pollLoop_fails {r : Result} {g : Byte → State → Progress} (k : Nat) (q : List (Option Byte)) (s : State)
    (h : s.att + k < s.budget) : pollLoop r g (List.replicate k none ++ q) s =
      pollLoop r g q { s with
        rxq := if k = 0 then s.rxq else q, att := s.att + k, hist := s.hist ++ List.replicate k (.rx 1 .fail) } := by
  induction k generalizing s with
  | zero => simp
  | succ k ih =>
    have hne : ¬ s.att + 1 = s.budget := by omega
    simp only [List.replicate_succ, List.cons_append, pollLoop, State.log, hne, if_false]
    rw [ih _ (by simp only; omega)]
    congr 1
    simp only [List.append_assoc, List.singleton_append, State.mk.injEq, true_and, and_true]
    refine ⟨by omega, ?_⟩
    split <;> simp_all

/-- As many failed reads as the budget has left end the poll (R186). -/
theorem pollLoop_exhausts {r : Result} {g : Byte → State → Progress} (k : Nat) (q : List (Option Byte)) (s : State)
    (hk : 1 ≤ k) (h : s.att + k = s.budget) : pollLoop r g (List.replicate k none ++ q) s =
      .ended r { s with rxq := q, att := s.att + k, hist := s.hist ++ List.replicate k (.rx 1 .fail) } := by
  obtain ⟨j, rfl⟩ : ∃ j, k = j + 1 := ⟨k - 1, by omega⟩
  rw [List.replicate_succ', List.append_assoc, pollLoop_fails j _ s (by omega)]
  have e : s.att + j + 1 = s.budget := by omega
  simp [pollLoop, State.log, e, List.replicate_succ', ← h]

/-! ## Runs -/

@[simp] theorem runSteps_nil (k : ValueKind) (s : State) : runSteps k [] s = s.finish (.done (k.value s.rxbuf)) := rfl

theorem runSteps_completed {k : ValueKind} {m : Micro} {ms : List Micro} {s s' : State}
    (h : perform m (s.enter m) = .completed s') : runSteps k (m :: ms) s = runSteps k ms s'.nextStep := by
  simp [runSteps, h]

theorem runSteps_ended {k : ValueKind} {m : Micro} {ms : List Micro} {s s' : State} {r : Result}
    (h : perform m (s.enter m) = .ended r s') : runSteps k (m :: ms) s = s'.finish r := by
  simp [runSteps, h]

theorem runSteps_waiting {k : ValueKind} {m : Micro} {ms : List Micro} {s s' : State}
    (h : perform m (s.enter m) = .waiting s') : runSteps k (m :: ms) s = s' := by
  simp [runSteps, h]

end Sys2Proof.Machine
end

