-- ==== Sys2Proof/Laws/Codec.lean ====
section
/-! SUPPORT. What a builder builds and what a validator answers, as one equation each (41_codec_builders.md,
42_codec_validators.md), and what is in a built frame. -/

namespace Sys2Proof.Machine

/-! ## One answer per codec operation -/

/-- A codec operation has one answer. -/
theorem answers_iff {i : Instr} {r r' : Result} (h : ∀ s, exec i s = .next (s.codec i r)) : Answers i r' ↔ r' = r := by
  constructor
  · intro e
    have := (h State.reset).symm.trans (e State.reset)
    simpa [State.codec, State.answer, eq_comm] using this
  · rintro rfl; exact h

/-- A builder builds its frame exactly when its check passes. -/
theorem builds_iff {i : Instr} {f g : List Byte} {c : Option Reason}
    (h : ∀ s, exec i s = .next (s.codec i (built c g))) : Builds i f ↔ c = none ∧ f = g := by
  rw [Builds, answers_iff h]
  cases c with
  | none => simp [built, Result.done]
  | some r => cases r <;> simp [built, Result.err, Reason.status]

theorem builds_cmdFrame {op : Byte} {f : List Byte} : Builds (.cmdFrame op) f ↔ f = [op, cpl op] := by
  rw [builds_iff fun _ => rfl]; simp [commandFrame]

theorem builds_addrFrame {a : U32} {f : List Byte} : Builds (.addrFrame a) f ↔ f = withXor (be32 a) := by
  rw [builds_iff fun _ => rfl]; simp [addressFrame]

theorem builds_lenFrame {c : U32} {f : List Byte} : Builds (.lenFrame c) f ↔
    (1 ≤ c.toNat ∧ c.toNat ≤ 256) ∧ f = [countByte c.toNat, cpl (countByte c.toNat)] := by
  rw [builds_iff fun _ => rfl, rangeCheck_iff]; rfl

theorem builds_payloadFrame {l : Byte} {d f : List Byte} : Builds (.payloadFrame l d) f ↔
    (1 ≤ d.length ∧ d.length ≤ 256) ∧ f = withXor (l :: d) := by
  rw [builds_iff fun _ => rfl, rangeCheck_iff]; rfl

theorem builds_pageListFrame {p : List U16} {f : List Byte} : Builds (.pageListFrame p) f ↔
    (1 ≤ p.length ∧ p.length ≤ 65532 ∧ ∀ x ∈ p, x.toNat < 65533) ∧ f = pageListBytes p := by
  rw [builds_iff fun _ => rfl, pageListCheck_none]

theorem builds_specialEraseFrame {c : U16} {f : List Byte} : Builds (.specialEraseFrame c) f ↔
    65533 ≤ c.toNat ∧ f = withXor (be16 c) := by
  rw [builds_iff fun _ => rfl, specialCheck_none]; rfl

theorem builds_wpPageFrame {p f : List Byte} : Builds (.wpPageFrame p) f ↔
    (1 ≤ p.length ∧ p.length ≤ 256) ∧ f = withXor (countByte p.length :: p) := by
  rw [builds_iff fun _ => rfl, rangeCheck_iff]; rfl

theorem answers_checkComplement {f : List Byte} {r : Result} : Answers (.checkComplement f) r ↔ r = complementResult f :=
  answers_iff fun _ => rfl
theorem answers_checkXor {f : List Byte} {r : Result} : Answers (.checkXor f) r ↔ r = xorResult f :=
  answers_iff fun _ => rfl
theorem answers_decodeCmdFrame {f : List Byte} {r : Result} : Answers (.decodeCmdFrame f) r ↔ r = cmdFrameResult f :=
  answers_iff fun _ => rfl
theorem answers_decodeAddrFrame {f : List Byte} {r : Result} : Answers (.decodeAddrFrame f) r ↔ r = addrFrameResult f :=
  answers_iff fun _ => rfl
theorem answers_decodeLenFrame {f : List Byte} {r : Result} : Answers (.decodeLenFrame f) r ↔ r = lenFrameResult f :=
  answers_iff fun _ => rfl
theorem answers_decodePayloadFrame {f : List Byte} {r : Result} :
    Answers (.decodePayloadFrame f) r ↔ r = payloadFrameResult f := answers_iff fun _ => rfl
theorem answers_decodePageListFrame {f : List Byte} {r : Result} :
    Answers (.decodePageListFrame f) r ↔ r = pageListFrameResult f := answers_iff fun _ => rfl
theorem answers_decodeSpecialEraseFrame {f : List Byte} {r : Result} :
    Answers (.decodeSpecialEraseFrame f) r ↔ r = specialFrameResult f := answers_iff fun _ => rfl

/-! ## What is in a built frame -/

/-- A frame body is read off its frame. -/
theorem withXor_inj {a b : List Byte} (h : withXor a = withXor b) : a = b := by
  have := congrArg List.dropLast h
  simpa only [withXor, List.dropLast_concat] using this

/-- A frame with its checksum: length, last byte and fold (R128, R130). -/
theorem withXor_frame (b : List Byte) : (withXor b).length = b.length + 1 ∧
    (withXor b).getLast? = some (xorfold (withXor b).dropLast) ∧ xorfold (withXor b) = 0 :=
  ⟨by simp [withXor], by simp [withXor], by simp⟩

/-- The count a length byte stands for (R97). -/
theorem countByte_toNat {n : Nat} (h : 1 ≤ n ∧ n ≤ 256) : (countByte n).toNat + 1 = n := by
  simp [countByte]; omega

theorem countByte_back {c : U32} (h : 1 ≤ c.toNat ∧ c.toNat ≤ 256) : (countByte c.toNat).zeroExtend 32 + 1 = c := by
  apply BitVec.eq_of_toNat_eq
  simp [countByte]; omega

@[simp] theorem pageListBytes_length {p : List U16} : (pageListBytes p).length = 2 * p.length + 3 := by
  simp [pageListBytes, withXor]; omega

/-- The first two bytes of a page-list frame and what is after them. -/
theorem pageListBytes_eq (p : List U16) : pageListBytes p =
    (BitVec.ofNat 16 (p.length - 1)).extractLsb' 8 8 :: (BitVec.ofNat 16 (p.length - 1)).extractLsb' 0 8 ::
      (p.flatMap be16 ++ [xorfold (be16 (BitVec.ofNat 16 (p.length - 1)) ++ p.flatMap be16)]) := by
  simp [pageListBytes, withXor, be16]

/-- Pages below the sentinels, in a number below them, pass the checks of R157. -/
theorem pagesResult_ok {n : Nat} {ps : List U16} (h : n < 65533) (h2 : ∀ x ∈ ps, x.toNat < 65533) :
    pagesResult n ps = .done (some (.pages ps)) := by
  have : ¬ ∃ p ∈ ps, p = 0xFFFF ∨ p = 0xFFFE ∨ p = 0xFFFD := by
    rintro ⟨p, hp, hh⟩
    have := h2 p hp
    rcases hh with hh | hh | hh <;> subst hh <;> revert this <;> decide
  simp only [pagesResult, any_sentinel, if_neg this, if_neg (show ¬ 65533 ≤ n by omega)]

end Sys2Proof.Machine
end

