-- ==== Sys2Proof/Laws/Run.lean ====
section
/-! SUPPORT. What one step of a step list, a run of a list, and one instruction leave unchanged; what a waiting step
does; and answers that come later. -/

namespace Sys2Proof.Machine

/-! ## The frame of a step -/

/-- The state a step leaves, however it went. -/
def Progress.state : Progress → State
  | .completed s => s
  | .ended _ s => s
  | .waiting s => s

/-- What no step changes, and how HIST changes (R31, R210). -/
structure SameFrame (s t : State) : Prop where
  busy : t.busy = s.busy
  pollBudget : t.pollBudget = s.pollBudget
  txn : t.txn = s.txn
  spc : t.spc = s.spc
  cur : t.cur = s.cur
  budget : t.budget = s.budget
  results : t.results = s.results
  inputs : t.inputs = s.inputs
  hist : ∃ es, t.hist = s.hist ++ es

theorem SameFrame.refl (s : State) : SameFrame s s := ⟨rfl, rfl, rfl, rfl, rfl, rfl, rfl, rfl, [], by simp⟩

theorem SameFrame.trans {s t u : State} (h : SameFrame s t) (h' : SameFrame t u) : SameFrame s u := by
  obtain ⟨es, he⟩ := h.hist
  obtain ⟨es', he'⟩ := h'.hist
  exact ⟨h'.busy.trans h.busy, h'.pollBudget.trans h.pollBudget, h'.txn.trans h.txn, h'.spc.trans h.spc,
    h'.cur.trans h.cur, h'.budget.trans h.budget, h'.results.trans h.results, h'.inputs.trans h.inputs,
    es ++ es', by simp [he', he]⟩

theorem log_frame {e : Event} {s t : State} (h1 : t.busy = s.busy) (h2 : t.pollBudget = s.pollBudget)
    (h3 : t.txn = s.txn) (h4 : t.spc = s.spc) (h5 : t.cur = s.cur) (h6 : t.budget = s.budget)
    (h7 : t.results = s.results) (h8 : t.inputs = s.inputs) (h9 : t.hist = s.hist) : SameFrame s (t.log e) :=
  ⟨h1, h2, h3, h4, h5, h6, h7, h8, [e], by simp [h9]⟩

theorem txStep_frame (f : List Byte) (x : Option Site) (s : State) :
    SameFrame s (txStep f x s).state ∧ (txStep f x s).state.sync = s.sync := by
  unfold txStep
  split
  · exact ⟨.refl s, rfl⟩
  · exact ⟨⟨rfl, rfl, rfl, rfl, rfl, rfl, rfl, rfl, _, rfl⟩, rfl⟩
  · exact ⟨⟨rfl, rfl, rfl, rfl, rfl, rfl, rfl, rfl, _, rfl⟩, rfl⟩

theorem rxStep_frame (n : Nat) (r : Result) (g : List Byte → State → Progress) (s : State)
    (hg : ∀ bs u, SameFrame u (g bs u).state) : SameFrame s (rxStep n r g s).state := by
  unfold rxStep
  split
  · refine .trans ?_ (hg _ _); exact log_frame rfl rfl rfl rfl rfl rfl rfl rfl rfl
  · exact ⟨rfl, rfl, rfl, rfl, rfl, rfl, rfl, rfl, _, rfl⟩
  · exact .refl s

theorem rxStep_sync (n : Nat) (r : Result) (g : List Byte → State → Progress) (s : State)
    (hg : ∀ bs u, (g bs u).state.sync = u.sync) : (rxStep n r g s).state.sync = s.sync := by
  unfold rxStep
  split <;> first | rfl | exact hg _ _

theorem rxByte_frame (r : Result) (g : Byte → State → Progress) (s : State)
    (hg : ∀ b u, SameFrame u (g b u).state) : SameFrame s (rxByte r g s).state := by
  refine rxStep_frame _ _ _ _ fun bs u => ?_
  cases bs with
  | nil => exact .refl u
  | cons b bs => exact hg b u

theorem rxByte_sync (r : Result) (g : Byte → State → Progress) (s : State)
    (hg : ∀ b u, (g b u).state.sync = u.sync) : (rxByte r g s).state.sync = s.sync := by
  refine rxStep_sync _ _ _ _ fun bs u => ?_
  cases bs with
  | nil => rfl
  | cons b bs => exact hg b u

theorem pollLoop_frame (r : Result) (g : Byte → State → Progress) (q : List (Option Byte)) (s : State)
    (hg : ∀ b u, SameFrame u (g b u).state) : SameFrame s (pollLoop r g q s).state := by
  induction q generalizing s with
  | nil => exact .refl s
  | cons a q ih =>
    cases a with
    | none =>
      simp only [pollLoop]
      split
      · exact ⟨rfl, rfl, rfl, rfl, rfl, rfl, rfl, rfl, _, rfl⟩
      · refine .trans ?_ (ih _); exact log_frame rfl rfl rfl rfl rfl rfl rfl rfl rfl
    | some b => refine .trans ?_ (hg _ _); exact log_frame rfl rfl rfl rfl rfl rfl rfl rfl rfl

theorem pollLoop_sync (r : Result) (g : Byte → State → Progress) (q : List (Option Byte)) (s : State)
    (hg : ∀ b u, (g b u).state.sync = u.sync) : (pollLoop r g q s).state.sync = s.sync := by
  induction q generalizing s with
  | nil => rfl
  | cons a q ih =>
    cases a with
    | none => simp only [pollLoop]; split <;> first | rfl | exact ih _
    | some b => exact hg _ _

/-- A handshake byte changes no state (R210, R211). -/
theorem ackByte_state (x : Site) (b : Byte) (s : State) : (ackByte x b s).state = s := by
  unfold ackByte; split <;> rfl

theorem responseByte_state (b : Byte) (s : State) : (responseByte b s).state = s := by
  unfold responseByte; split <;> rfl

/-- The byte INIT reads changes SYNC at most (R180). -/
theorem initByte_state (b : Byte) (s : State) : ∃ v, (initByte b s).state = { s with sync := v } := by
  unfold initByte; split <;> exact ⟨_, rfl⟩

/-- What a step leaves unchanged: all but SYNC, NVAR, ATT, RXBUF, the queues of the oracle and the end of HIST. -/
theorem perform_frame (m : Micro) (s : State) : SameFrame s (perform m s).state := by
  have hack : ∀ x b u, SameFrame u (ackByte x b u).state := fun x b u => by
    rw [ackByte_state]; exact .refl u
  have hres : ∀ b u, SameFrame u (responseByte b u).state := fun b u => by
    rw [responseByte_state]; exact .refl u
  cases m <;> simp only [perform]
  case tx => exact (txStep_frame _ _ _).1
  case ack => exact rxByte_frame _ _ _ (hack _)
  case poll => exact pollLoop_frame _ _ _ _ (hack _)
  case len => exact rxByte_frame _ _ _ fun _ _ => ⟨rfl, rfl, rfl, rfl, rfl, rfl, rfl, rfl, [], by simp [Progress.state]⟩
  case rejectZeroLen => split <;> exact .refl s
  case data =>
    unfold dataStep
    split
    · exact .refl s
    · exact rxStep_frame _ _ _ _ fun _ _ => ⟨rfl, rfl, rfl, rfl, rfl, rfl, rfl, rfl, [], by simp [Progress.state]⟩
  case initAck =>
    refine rxByte_frame _ _ _ fun b u => ?_
    obtain ⟨v, hv⟩ := initByte_state b u
    rw [hv]
    exact ⟨rfl, rfl, rfl, rfl, rfl, rfl, rfl, rfl, [], by simp⟩
  case response => exact rxByte_frame _ _ _ hres
  case pollResponse => exact pollLoop_frame _ _ _ _ hres

/-- Only the step that reads INIT's answer changes SYNC (R22, R180). -/
theorem perform_sync {m : Micro} (h : m ≠ .initAck) (s : State) : (perform m s).state.sync = s.sync := by
  cases m <;> simp only [perform]
  case tx => exact (txStep_frame _ _ _).2
  case ack => exact rxByte_sync _ _ _ fun _ _ => by rw [ackByte_state]
  case poll => exact pollLoop_sync _ _ _ _ fun _ _ => by rw [ackByte_state]
  case len => exact rxByte_sync _ _ _ fun _ _ => rfl
  case rejectZeroLen => split <;> rfl
  case data =>
    unfold dataStep
    split
    · rfl
    · exact rxStep_sync _ _ _ _ fun _ _ => rfl
  case initAck => exact absurd rfl h
  case response => exact rxByte_sync _ _ _ fun _ _ => by rw [responseByte_state]
  case pollResponse => exact pollLoop_sync _ _ _ _ fun _ _ => by rw [responseByte_state]

theorem enter_frame (m : Micro) (s : State) : SameFrame s (s.enter m) ∧ (s.enter m).sync = s.sync := by
  cases m <;> exact ⟨⟨rfl, rfl, rfl, rfl, rfl, rfl, rfl, rfl, [], by simp [State.enter]⟩, rfl⟩

/-! ## The frame of a run -/

/-- What a run of an operation changes: it goes on, or it has ended with one result (R184, R189, R280). -/
structure RunFrame (s t : State) : Prop where
  pollBudget : t.pollBudget = s.pollBudget
  txn : t.txn = s.txn
  budget : t.budget = s.budget
  inputs : t.inputs = s.inputs
  hist : ∃ es, t.hist = s.hist ++ es
  outcome : (t.busy = s.busy ∧ t.cur = s.cur ∧ t.results = s.results) ∨
    (t.busy = false ∧ t.cur = none ∧ ∃ r, t.results = s.results ++ [⟨s.txn, r⟩])

theorem RunFrame.refl (s : State) : RunFrame s s := ⟨rfl, rfl, rfl, rfl, ⟨[], by simp⟩, .inl ⟨rfl, rfl, rfl⟩⟩

/-- A state in the same frame, then a run. -/
theorem RunFrame.after {s t u : State} (h : SameFrame s t) (h' : RunFrame t u) : RunFrame s u := by
  obtain ⟨es, he⟩ := h.hist
  obtain ⟨es', he'⟩ := h'.hist
  refine ⟨h'.pollBudget.trans h.pollBudget, h'.txn.trans h.txn, h'.budget.trans h.budget, h'.inputs.trans h.inputs,
    ⟨es ++ es', by simp [he', he]⟩, ?_⟩
  rcases h'.outcome with ⟨h1, h2, h3⟩ | ⟨h1, h2, r, h3⟩
  · exact .inl ⟨h1.trans h.busy, h2.trans h.cur, h3.trans h.results⟩
  · exact .inr ⟨h1, h2, r, by rw [h3, h.results, h.txn]⟩

theorem finish_runFrame (r : Result) (s : State) : RunFrame s (s.finish r) :=
  ⟨rfl, rfl, rfl, rfl, ⟨[], by simp⟩, .inr ⟨rfl, rfl, r, rfl⟩⟩

theorem nextStep_runFrame {s t : State} (h : RunFrame s.nextStep t) : RunFrame s t :=
  ⟨h.pollBudget, h.txn, h.budget, h.inputs, h.hist, h.outcome⟩

/-- A run of steps. -/
theorem runSteps_frame (k : ValueKind) (ms : List Micro) (s : State) : RunFrame s (runSteps k ms s) := by
  induction ms generalizing s with
  | nil => exact finish_runFrame _ s
  | cons m ms ih =>
    have hf := (enter_frame m s).1.trans (perform_frame m (s.enter m))
    unfold runSteps
    split <;> rename_i u hp <;> rw [hp] at hf
    · exact .after hf (nextStep_runFrame (ih _))
    · exact .after hf (finish_runFrame _ _)
    · exact .after hf (.refl _)

theorem planResume_frame (p : Plan) (s : State) : RunFrame s (p.resume s) := by
  unfold Plan.resume
  split
  · exact .refl s
  · rename_i m ms _
    have hf := perform_frame m s
    split <;> rename_i u hp <;> rw [hp] at hf
    · exact .after hf (nextStep_runFrame (runSteps_frame _ _ _))
    · exact .after hf (finish_runFrame _ _)
    · exact .after hf (.refl _)

/-- Going on with the operation in flight, if any. -/
theorem resume_frame (s : State) : RunFrame s s.resume := by
  unfold State.resume
  split
  · split
    · exact planResume_frame _ s
    · exact .refl s
  · exact .refl s

/-- An idle block does not go on. -/
@[simp] theorem resume_idle {s : State} (h : s.busy = false) : s.resume = s := by simp [State.resume, h]

theorem resume_busy {s : State} {i : Instr} (h : s.busy = true) (hc : s.cur = some i) :
    s.resume = (planOf i).resume s := by simp [State.resume, h, hc]

/-- A link operation that is admitted and checked runs its plan. -/
theorem resume_step {p : Plan} {s : State} {m : Micro} (h : p.steps[s.spc]? = some m) :
    p.resume s = match perform m s with
      | .completed s' => runSteps p.kind (p.steps.drop (s.spc + 1)) s'.nextStep
      | .ended r s' => s'.finish r
      | .waiting s' => s' := by
  have : p.steps.drop s.spc = m :: p.steps.drop (s.spc + 1) := by
    obtain ⟨hl, rfl⟩ := List.getElem?_eq_some_iff.mp h
    exact List.drop_eq_getElem_cons hl
  unfold Plan.resume
  generalize p.steps.drop s.spc = l at this
  subst this
  rfl

/-! ## Waiting -/

theorem pollLoop_waiting {r : Result} {g : Byte → State → Progress} {q : List (Option Byte)} {s t : State}
    (hg : ∀ b u v, g b u ≠ .waiting v) (hq : s.rxq = q) (h : pollLoop r g q s = .waiting t) :
    t.rxq = [] ∧ (s.att < s.budget → t.att < t.budget) := by
  induction q generalizing s with
  | nil =>
    simp only [pollLoop, Progress.waiting.injEq] at h
    subst h
    exact ⟨hq, id⟩
  | cons a q ih =>
    cases a with
    | none =>
      simp only [pollLoop] at h
      split at h
      · simp at h
      · rename_i hne
        obtain ⟨h1, h2⟩ := ih (s := { s with rxq := q, att := s.att + 1 }.log (.rx 1 .fail)) rfl h
        exact ⟨h1, fun hb => h2 (by simp only [log_att, log_budget] at hne ⊢; omega)⟩
    | some b => exact absurd h (hg _ _ _)

theorem ackByte_ne_waiting (x : Site) (b : Byte) (u v : State) : ackByte x b u ≠ .waiting v := by
  unfold ackByte; split <;> simp

theorem responseByte_ne_waiting (b : Byte) (u v : State) : responseByte b u ≠ .waiting v := by
  unfold responseByte; split <;> simp

theorem rxStep_waiting {n : Nat} {r : Result} {g : List Byte → State → Progress} {s t : State}
    (hg : ∀ bs u v, bs.length = n → g bs u ≠ .waiting v) (h : rxStep n r g s = .waiting t) :
    t = s ∧ takeRx n s.rxq = .nothing := by
  unfold rxStep at h
  split at h
  · rename_i bs rest hq; exact absurd h (hg _ _ _ (takeRx_ok_length hq).1)
  · simp at h
  · rename_i hq; exact ⟨by simpa using h.symm, hq⟩

theorem rxByte_waiting {r : Result} {g : Byte → State → Progress} {s t : State}
    (hg : ∀ b u v, g b u ≠ .waiting v) (h : rxByte r g s = .waiting t) : t = s := by
  refine (rxStep_waiting (fun bs u v hl => ?_) h).1
  match bs, hl with
  | [b], _ => exact hg b u v

/-- A step that waits has changed nothing, but for a poll, which has counted the failed reads it got; and it waits
again in the state it leaves (R227). -/
theorem perform_waiting {m : Micro} {s t : State} (h : perform m s = .waiting t) : perform m t = .waiting t ∧
    (t = s ∨ (m = .pollResponse ∨ ∃ x, m = .poll x) ∧ (s.att < s.budget → t.att < t.budget)) := by
  have poll : ∀ {r : Result} {g : Byte → State → Progress}, (∀ b u v, g b u ≠ .waiting v) →
      pollLoop r g s.rxq s = .waiting t → pollLoop r g t.rxq t = .waiting t ∧ (s.att < s.budget → t.att < t.budget) := by
    intro r g hg h
    obtain ⟨h1, h2⟩ := pollLoop_waiting hg rfl h
    exact ⟨by rw [h1]; rfl, h2⟩
  have same : t = s → perform m t = .waiting t ∧
      (t = s ∨ (m = .pollResponse ∨ ∃ x, m = .poll x) ∧ (s.att < s.budget → t.att < t.budget)) := by
    rintro rfl; exact ⟨h, .inl rfl⟩
  cases m <;> simp only [perform] at h
  case tx =>
    unfold txStep at h
    split at h <;> simp only [Progress.waiting.injEq, reduceCtorEq] at h
    exact same h.symm
  case ack => exact same (rxByte_waiting (ackByte_ne_waiting _) h)
  case poll x => have := poll (ackByte_ne_waiting x) h; exact ⟨this.1, .inr ⟨.inr ⟨x, rfl⟩, this.2⟩⟩
  case len => exact same (rxByte_waiting (by simp) h)
  case rejectZeroLen => split at h <;> simp at h
  case data =>
    unfold dataStep at h
    split at h
    · simp at h
    · exact same (rxStep_waiting (by simp) h).1
  case initAck => exact same (rxByte_waiting (by intro b u v; unfold initByte; split <;> simp) h)
  case response => exact same (rxByte_waiting responseByte_ne_waiting h)
  case pollResponse => have := poll responseByte_ne_waiting h; exact ⟨this.1, .inr ⟨.inl rfl, this.2⟩⟩

end Sys2Proof.Machine
end

