-- ==== Sys2Proof/Laws/Exec.lean ====
section
/-! SUPPORT. What one instruction can do, said once for all of them; and what answers that come later do. -/

namespace Sys2Proof.Machine

/-! ## Requests -/

/-- A request is answered at once, by the flags or by its check, or its steps run from acceptance (R184, R216). -/
theorem request_cases (i : Instr) (d : SyncDuty) (c : Option Result) (p : Plan) (s : State) :
    (∃ r, s.admission d = some r ∧ s.request i d c p = s.answer (selector i) (.err r none none)) ∨
    (s.admission d = none ∧ ∃ r, c = some r ∧ s.request i d c p = s.answer (selector i) r) ∨
    (s.admission d = none ∧ c = none ∧ s.request i d c p = runSteps p.kind p.steps (s.accept i)) := by
  unfold State.request
  cases s.admission d with
  | some r => exact .inl ⟨r, rfl, rfl⟩
  | none =>
    cases c with
    | some r => exact .inr (.inl ⟨rfl, r, rfl, rfl⟩)
    | none => exact .inr (.inr ⟨rfl, rfl, rfl⟩)

/-- The flags refuse with the status REFUSED (R86). -/
theorem admission_status {d : SyncDuty} {s : State} {r : Reason} (h : s.admission d = some r) : r.status = .refused := by
  unfold State.admission at h
  split at h
  · cases h; rfl
  · split at h <;> split at h <;> cases h <;> rfl

theorem admission_none {d : SyncDuty} {s : State} (h : s.admission d = none) :
    s.busy = false ∧ s.sync = decide (d = .synced) := by
  unfold State.admission at h
  split at h
  · simp at h
  · rename_i hb
    split at h <;> split at h <;> simp_all

/-- A result as the block answers a request it does not run (R81, R85, R86). -/
def Result.Plain (r : Result) : Prop := r.WellFormed ∧ r.status ≠ .protocolViolation

theorem err_wf {r : Reason} {i : Option Byte} {x : Option Site} (h : r ≠ .partWritten) :
    (Result.err r i x).WellFormed :=
  ⟨rfl, fun _ => rfl, by cases r <;> simp [Reason.status] at h ⊢⟩

theorem done_wf (v : Option Value) : (Result.done v).WellFormed := ⟨rfl, by simp, by simp⟩

theorem rangeCheck_reason {n : Nat} {r : Reason} (h : rangeCheck n = some r) : r = .range := by
  unfold rangeCheck at h; split at h <;> simp_all

theorem pageListCheck_reason {ps : List U16} {r : Reason} (h : pageListCheck ps = some r) :
    r = .range ∨ r = .reservedSentinel := by
  unfold pageListCheck at h; repeat' split at h
  all_goals simp_all

theorem specialCheck_reason {c : U16} {r : Reason} (h : specialCheck c = some r) : r = .notSentinel := by
  unfold specialCheck at h; split at h <;> simp_all

theorem writeChunkCheck_reason {a : U32} {d : List Byte} {r : Reason} (h : writeChunkCheck a d = some r) :
    r = .misaligned ∨ r = .range := by
  unfold writeChunkCheck at h
  split at h
  · simp_all
  · exact .inr (rangeCheck_reason h)

theorem nonEmptyCheck_reason {f : List Byte} {r : Reason} (h : nonEmptyCheck f = some r) : r = .range := by
  unfold nonEmptyCheck at h; split at h <;> simp_all

/-- The status of a failed argument check (R274). -/
theorem reason_plain {r : Reason} {i : Option Byte} {x : Option Site} (h : r.status ≠ .protocolViolation)
    (h' : r ≠ .partWritten) : (Result.err r i x).Plain := ⟨err_wf h', h⟩

theorem built_plain {c : Option Reason} {f : List Byte} (h : ∀ r, c = some r → r.status = .invalidArgument) :
    (built c f).Plain := by
  cases c with
  | none => exact ⟨done_wf _, by simp [built]⟩
  | some r =>
    have hr := h r rfl
    exact reason_plain (by rw [hr]; simp) (by rintro rfl; simp [Reason.status] at hr)

/-! ## Answers of the validators -/

theorem done_plain (v : Option Value) : (Result.done v).Plain := ⟨done_wf v, by simp⟩

theorem complementResult_plain (f : List Byte) : (complementResult f).Plain := by
  unfold complementResult; split
  · exact done_plain _
  · exact reason_plain (by simp [Reason.status]) (by simp)

theorem xorResult_plain (f : List Byte) : (xorResult f).Plain := by
  unfold xorResult; split
  · exact reason_plain (by simp [Reason.status]) (by simp)
  · exact done_plain _

theorem cmdFrameResult_plain (f : List Byte) : (cmdFrameResult f).Plain := by
  unfold cmdFrameResult; repeat' split
  all_goals first | exact done_plain _ | exact reason_plain (by simp [Reason.status]) (by simp)

theorem addrFrameResult_plain (f : List Byte) : (addrFrameResult f).Plain := by
  unfold addrFrameResult; repeat' split
  all_goals first | exact done_plain _ | exact reason_plain (by simp [Reason.status]) (by simp)

theorem lenFrameResult_plain (f : List Byte) : (lenFrameResult f).Plain := by
  unfold lenFrameResult; repeat' split
  all_goals first | exact done_plain _ | exact reason_plain (by simp [Reason.status]) (by simp)

theorem payloadFrameResult_plain (f : List Byte) : (payloadFrameResult f).Plain := by
  unfold payloadFrameResult; repeat' split
  all_goals first | exact done_plain _ | exact reason_plain (by simp [Reason.status]) (by simp)

theorem pagesResult_plain (n : Nat) (ps : List U16) : (pagesResult n ps).Plain := by
  unfold pagesResult; repeat' split
  all_goals first | exact done_plain _ | exact reason_plain (by simp [Reason.status]) (by simp)

theorem pageListFrameResult_plain (f : List Byte) : (pageListFrameResult f).Plain := by
  unfold pageListFrameResult
  split
  · exact reason_plain (by simp [Reason.status]) (by simp)
  · split
    · dsimp only
      split
      · exact reason_plain (by simp [Reason.status]) (by simp)
      · split
        · exact reason_plain (by simp [Reason.status]) (by simp)
        · exact pagesResult_plain _ _
    · exact reason_plain (by simp [Reason.status]) (by simp)

theorem specialFrameResult_plain (f : List Byte) : (specialFrameResult f).Plain := by
  unfold specialFrameResult; repeat' split
  all_goals first | exact done_plain _ | exact reason_plain (by simp [Reason.status]) (by simp)

/-! ## One instruction -/

/-- What one instruction can do: answer at once and change nothing else; run an admitted operation from acceptance; or
be an event of the link. -/
inductive Does (i : Instr) (s : State) : State → Prop
  | answers (r : Result) (hr : r.Plain) (hc : channel i = .request) : Does i s (s.answer (selector i) r)
  | runs (hb : s.busy = false) (hs : s.sync = false ↔ i = .autobaudInit) (ha : Admissible i) :
      Does i s (runSteps (planOf i).kind (planOf i).steps (s.accept i))
  | sends (f : List Byte) (hc : channel i = .toDevice) : Does i s (s.frameSent f)
  | receives (bs : List Byte) (hc : channel i = .fromDevice) : Does i s (s.bytesArrive bs)

/-- A link operation with an argument check (R216). -/
theorem does_request {i : Instr} {d : SyncDuty} {c : Option Result} {s : State} (hd : d = .unsynced ↔ i = .autobaudInit)
    (hi : channel i = .request) (hc : ∀ r, c = some r → r.Plain) (ha : c = none → Admissible i) :
    Does i s (s.request i d c (planOf i)) := by
  rcases request_cases i d c (planOf i) s with ⟨r, h1, h2⟩ | ⟨_, r, h1, h2⟩ | ⟨h1, h2, h3⟩
  · rw [h2]
    have := admission_status h1
    exact .answers _ (reason_plain (by rw [this]; simp) (by rintro rfl; simp [Reason.status] at this)) hi
  · rw [h2]; exact .answers _ (hc r h1) hi
  · rw [h3]
    obtain ⟨hb, hs⟩ := admission_none h1
    refine .runs hb ?_ (ha h2)
    rw [hs, decide_eq_false_iff_not, ← hd]
    cases d <;> simp

theorem checked_plain {c : Option Reason} {r : Result} (h : ∀ x, c = some x → x.status = .invalidArgument)
    (hr : checked c = some r) : r.Plain := by
  cases c with
  | none => simp [checked] at hr
  | some x =>
    simp only [checked, Option.map_some, Option.some.injEq] at hr
    subst hr
    have hx := h x rfl
    exact reason_plain (by rw [hx]; simp) (by rintro rfl; simp [Reason.status] at hx)

theorem checked_none {c : Option Reason} (h : checked c = none) : c = none := by cases c <;> simp_all [checked]

/-- Every instruction gives a next state, and this is all it can do. -/
theorem exec_does (i : Instr) (s : State) : ∃ t, exec i s = .next t ∧ Does i s t := by
  have none_plain : ∀ r : Result, none = some r → r.Plain := by simp
  have range : ∀ {n : Nat} x, rangeCheck n = some x → x.status = .invalidArgument := by
    intro n x h; rw [rangeCheck_reason h]; rfl
  have pages : ∀ {p} x, pageListCheck p = some x → x.status = .invalidArgument := by
    intro p x h; rcases pageListCheck_reason h with rfl | rfl <;> rfl
  have special : ∀ {p} x, specialCheck p = some x → x.status = .invalidArgument := by
    intro p x h; rw [specialCheck_reason h]; rfl
  cases i <;> refine ⟨_, rfl, ?_⟩
  case cmdFrame => exact .answers _ (built_plain (by simp)) rfl
  case addrFrame => exact .answers _ (built_plain (by simp)) rfl
  case lenFrame => exact .answers _ (built_plain range) rfl
  case payloadFrame => exact .answers _ (built_plain range) rfl
  case pageListFrame => exact .answers _ (built_plain pages) rfl
  case specialEraseFrame => exact .answers _ (built_plain special) rfl
  case wpPageFrame => exact .answers _ (built_plain range) rfl
  case checkComplement => exact .answers _ (complementResult_plain _) rfl
  case checkXor => exact .answers _ (xorResult_plain _) rfl
  case decodeCmdFrame => exact .answers _ (cmdFrameResult_plain _) rfl
  case decodeAddrFrame => exact .answers _ (addrFrameResult_plain _) rfl
  case decodeLenFrame => exact .answers _ (lenFrameResult_plain _) rfl
  case decodePayloadFrame => exact .answers _ (payloadFrameResult_plain _) rfl
  case decodePageListFrame => exact .answers _ (pageListFrameResult_plain _) rfl
  case decodeSpecialEraseFrame => exact .answers _ (specialFrameResult_plain _) rfl
  case autobaudInit => exact does_request (by simp) rfl none_plain fun _ => trivial
  case sendCommand op =>
    refine does_request (by simp) rfl ?_ ?_
    · intro r h
      unfold commandCheck at h
      split at h <;> simp only [Option.some.injEq, reduceCtorEq] at h
      subst h; exact reason_plain (by simp [Reason.status]) (by simp)
    · intro h
      unfold commandCheck at h
      split at h <;> simp only [reduceCtorEq] at h
      rename_i hc; simpa [Admissible] using hc
  case awaitAck => exact does_request (by simp) rfl none_plain fun _ => trivial
  case pollAwaitAck => exact does_request (by simp) rfl none_plain fun _ => trivial
  case sendFrame f =>
    refine does_request (by simp) rfl (fun r h => checked_plain (fun x h => by rw [nonEmptyCheck_reason h]; rfl) h) ?_
    intro h
    have := checked_none h
    unfold nonEmptyCheck at this
    split at this <;> simp only [reduceCtorEq] at this
    rename_i hf; simpa [Admissible] using hf
  case txnGet => exact does_request (by simp) rfl none_plain fun _ => trivial
  case txnGetRps => exact does_request (by simp) rfl none_plain fun _ => trivial
  case txnGetId => exact does_request (by simp) rfl none_plain fun _ => trivial
  case txnReadChunk =>
    exact does_request (by simp) rfl (fun r h => checked_plain range h) fun h => rangeCheck_iff.mp (checked_none h)
  case txnWriteChunk a d =>
    refine does_request (by simp) rfl (fun r h => checked_plain (fun x h => ?_) h) fun h => ?_
    · rcases writeChunkCheck_reason h with rfl | rfl <;> rfl
    · have := checked_none h
      unfold writeChunkCheck at this
      split at this <;> [simp at this; rename_i hd]
      exact ⟨by simpa using hd, rangeCheck_iff.mp this⟩
  case txnErasePages =>
    exact does_request (by simp) rfl (fun r h => checked_plain pages h) fun h => pageListCheck_none.mp (checked_none h)
  case txnEraseSpecial =>
    exact does_request (by simp) rfl (fun r h => checked_plain special h) fun h => specialCheck_none.mp (checked_none h)
  case txnWriteProtect =>
    exact does_request (by simp) rfl (fun r h => checked_plain range h) fun h => rangeCheck_iff.mp (checked_none h)
  case txnWriteUnprotect => exact does_request (by simp) rfl none_plain fun _ => trivial
  case txnReadoutProtect => exact does_request (by simp) rfl none_plain fun _ => trivial
  case txnReadoutUnprotect => exact does_request (by simp) rfl none_plain fun _ => trivial
  case wireAck => exact .receives _ rfl
  case wireNack => exact .receives _ rfl
  all_goals exact .sends _ rfl

/-- What an instruction that gives `t` has done. -/
theorem exec_next {i : Instr} {s t : State} (h : exec i s = .next t) : Does i s t := by
  obtain ⟨u, hu, hd⟩ := exec_does i s
  rw [hu] at h
  cases h
  exact hd

/-- The frame of any instruction: POLL_BUDGET, the inputs and what HIST and the results hold stay; at most one result
is added (R31, R189, R282). -/
structure ExecFrame (s t : State) : Prop where
  pollBudget : t.pollBudget = s.pollBudget
  inputs : t.inputs = s.inputs
  hist : ∃ es, t.hist = s.hist ++ es
  results : t.results = s.results ∨ ∃ a, t.results = s.results ++ [a]

theorem RunFrame.exec {s t : State} (h : RunFrame s t) : ExecFrame s t :=
  ⟨h.pollBudget, h.inputs, h.hist, by
    rcases h.outcome with ⟨_, _, h⟩ | ⟨_, _, r, h⟩
    · exact .inl h
    · exact .inr ⟨_, h⟩⟩

theorem txAnswered_frame (o : TxOutcome) (s : State) : RunFrame s (s.txAnswered o) :=
  RunFrame.after (t := { s with txq := s.txq ++ [o] }) ⟨rfl, rfl, rfl, rfl, rfl, rfl, rfl, rfl, [], by simp⟩ (resume_frame _)

theorem frameSent_frame (f : List Byte) (s : State) : RunFrame s (s.frameSent f) := by
  unfold State.frameSent
  split
  · exact txAnswered_frame _ s
  · exact .refl s

theorem bytesArrive_frame (bs : List Byte) (s : State) : RunFrame s (s.bytesArrive bs) :=
  RunFrame.after (t := { s with rxq := s.rxq ++ bs.map some }) ⟨rfl, rfl, rfl, rfl, rfl, rfl, rfl, rfl, [], by simp⟩ (resume_frame _)

theorem readFails_frame (s : State) : RunFrame s s.readFails :=
  RunFrame.after (t := { s with rxq := s.rxq ++ [none] }) ⟨rfl, rfl, rfl, rfl, rfl, rfl, rfl, rfl, [], by simp⟩ (resume_frame _)

theorem exec_frame {i : Instr} {s t : State} (h : exec i s = .next t) : ExecFrame s t := by
  cases exec_next h with
  | answers r => exact ⟨rfl, rfl, ⟨[], by simp⟩, .inr ⟨_, rfl⟩⟩
  | runs =>
    have := (runSteps_frame (planOf i).kind (planOf i).steps (s.accept i)).exec
    exact ⟨this.pollBudget, this.inputs, this.hist, this.results⟩
  | sends f => exact (frameSent_frame f s).exec
  | receives bs => exact (bytesArrive_frame bs s).exec

/-! ## Later answers (R326) -/

/-- The oracle holds more answers. -/
def State.more (a : List TxOutcome) (b : List (Option Byte)) (s : State) : State :=
  { s with txq := s.txq ++ a, rxq := s.rxq ++ b }

/-- How a step goes with more answers held, from how it goes without. -/
def Progress.more (a : List TxOutcome) (b : List (Option Byte)) (again : State → Progress) : Progress → Progress
  | .completed s => .completed (s.more a b)
  | .ended r s => .ended r (s.more a b)
  | .waiting s => again (s.more a b)

variable {a : List TxOutcome} {b : List (Option Byte)}

theorem txStep_more (f : List Byte) (x : Option Site) (s : State) :
    txStep f x (s.more a b) = (txStep f x s).more a b (txStep f x) := by
  cases h : s.txq with
  | nil => simp [txStep, h, Progress.more]
  | cons o q => cases o <;> simp [txStep, h, Progress.more, State.more, State.log]

theorem rxStep_more (n : Nat) (r : Result) (g : List Byte → State → Progress) (s : State)
    (hg : ∀ bs u, bs.length = n → g bs (u.more a b) = (g bs u).more a b fun _ => .waiting u)
    (hw : ∀ bs u v, bs.length = n → g bs u ≠ .waiting v) :
    rxStep n r g (s.more a b) = (rxStep n r g s).more a b (rxStep n r g) := by
  cases h : takeRx n s.rxq with
  | ok bs rest =>
    have hl := (takeRx_ok_length h).1
    have e : rxStep n r g (s.more a b) = g bs (State.more a b ({ s with rxq := rest }.log (.rx n (.ok bs)))) := by
      simp [rxStep, State.more, takeRx_append_ok b h, State.log]
    rw [e, hg _ _ hl]
    simp only [rxStep, h]
    cases hp : g bs ({ s with rxq := rest }.log (.rx n (.ok bs))) with
    | completed u => rfl
    | ended r' u => rfl
    | waiting u => exact absurd hp (hw _ _ _ hl)
  | fail rest => simp [rxStep, h, State.more, takeRx_append_fail b h, Progress.more, State.log]
  | nothing =>
    rw [rxStep_waits h]; rfl

theorem rxByte_more (r : Result) (g : Byte → State → Progress) (s : State)
    (hg : ∀ c u, g c (u.more a b) = (g c u).more a b fun _ => .waiting u) (hw : ∀ c u v, g c u ≠ .waiting v) :
    rxByte r g (s.more a b) = (rxByte r g s).more a b (rxByte r g) := by
  refine rxStep_more _ _ _ _ (fun bs u hl => ?_) (fun bs u v hl => ?_)
  · match bs, hl with
    | [c], _ => exact hg c u
  · match bs, hl with
    | [c], _ => exact hw c u v

theorem pollLoop_more (r : Result) (g : Byte → State → Progress) (q : List (Option Byte)) (s : State) (hq : s.rxq = q)
    (hg : ∀ c u, g c (u.more a b) = (g c u).more a b fun _ => .waiting u) (hw : ∀ c u v, g c u ≠ .waiting v) :
    pollLoop r g (q ++ b) (s.more a b) = (pollLoop r g q s).more a b fun u => pollLoop r g u.rxq u := by
  induction q generalizing s with
  | nil => simp [pollLoop, Progress.more, State.more, hq]
  | cons c q ih =>
    cases c with
    | none =>
      have := ih (s := { s with rxq := q, att := s.att + 1 }.log (.rx 1 .fail)) rfl
      by_cases h : s.att + 1 = s.budget
      · simp [pollLoop, h, Progress.more, State.more, State.log]
      · have e : pollLoop r g (none :: q) s = pollLoop r g q ({ s with rxq := q, att := s.att + 1 }.log (.rx 1 .fail)) := by
          simp [pollLoop, h]
        have e' : pollLoop r g (none :: q ++ b) (s.more a b) =
            pollLoop r g (q ++ b) (State.more a b ({ s with rxq := q, att := s.att + 1 }.log (.rx 1 .fail))) := by
          simp [pollLoop, h, State.more, State.log]
        rw [e, e', this]
    | some c =>
      simp only [List.cons_append, pollLoop]
      have e := hg c ({ s with rxq := q }.log (.rx 1 (.ok [c])))
      simp only [State.log, State.more] at e ⊢
      rw [e]
      cases hp : g c ({ s with rxq := q, hist := s.hist ++ [.rx 1 (.ok [c])] }) with
      | completed u => rfl
      | ended r' u => rfl
      | waiting u => exact absurd hp (hw _ _ _)

theorem ackByte_more (x : Site) (c : Byte) (u : State) :
    ackByte x c (u.more a b) = (ackByte x c u).more a b fun _ => .waiting u := by
  unfold ackByte; split <;> rfl

theorem responseByte_more (c : Byte) (u : State) :
    responseByte c (u.more a b) = (responseByte c u).more a b fun _ => .waiting u := by
  unfold responseByte; split <;> rfl

theorem initByte_more (c : Byte) (u : State) :
    initByte c (u.more a b) = (initByte c u).more a b fun _ => .waiting u := by
  unfold initByte; split <;> rfl

/-- A step with more answers held goes as it went, or, where it waited, goes on from there. -/
theorem perform_more (m : Micro) (s : State) :
    perform m (s.more a b) = (perform m s).more a b (perform m) := by
  cases m
  case tx => exact txStep_more _ _ s
  case ack => exact rxByte_more _ _ s (ackByte_more _) (ackByte_ne_waiting _)
  case poll => exact pollLoop_more _ _ _ s rfl (ackByte_more _) (ackByte_ne_waiting _)
  case len => exact rxByte_more _ _ s (fun _ _ => rfl) (by simp)
  case rejectZeroLen =>
    by_cases h : s.nvar = 0
    · simp [perform, h, Progress.more, State.more]
    · simp only [perform, if_neg h]
      rw [if_neg (by simpa [State.more] using h)]
      rfl
  case data n =>
    have e : n.bytes (s.more a b) = n.bytes s := by cases n <;> rfl
    by_cases h : n.bytes s = 0
    · simp only [perform, e, h, dataStep_zero, Progress.more]
    · have key := rxStep_more (a := a) (b := b) (n.bytes s) (.err .rxFail none (some .data))
        (fun bs s' => .completed { s' with rxbuf := s'.rxbuf ++ bs }) s (fun _ _ _ => rfl) (by simp)
      have lhs : perform (.data n) (s.more a b) = rxStep (n.bytes s) (.err .rxFail none (some .data))
          (fun bs s' => .completed { s' with rxbuf := s'.rxbuf ++ bs }) (s.more a b) := by
        simp only [perform, e, dataStep, if_neg h]
      have rhs : perform (.data n) s = rxStep (n.bytes s) (.err .rxFail none (some .data))
          (fun bs s' => .completed { s' with rxbuf := s'.rxbuf ++ bs }) s := by
        simp only [perform, dataStep, if_neg h]
      rw [rhs]
      cases hp : rxStep (n.bytes s) (.err .rxFail none (some .data))
        (fun bs s' => .completed { s' with rxbuf := s'.rxbuf ++ bs }) s with
      | completed u => rw [lhs, key, hp]; rfl
      | ended r' u => rw [lhs, key, hp]; rfl
      | waiting u =>
        obtain ⟨rfl, _⟩ := rxStep_waiting (by simp) hp
        rfl
  case initAck =>
    exact rxByte_more _ _ s initByte_more (by intro b u v; unfold initByte; split <;> simp)
  case response => exact rxByte_more _ _ s responseByte_more responseByte_ne_waiting
  case pollResponse => exact pollLoop_more _ _ _ s rfl responseByte_more responseByte_ne_waiting

theorem enter_more (m : Micro) (s : State) : (s.more a b).enter m = (s.enter m).more a b := by cases m <;> rfl

/-- A run with more answers held is the run without them, gone on with after they are there (R326). -/
theorem runSteps_more (p : Plan) (ms : List Micro) (s : State) (hb : s.busy = true) (hd : p.steps.drop s.spc = ms) :
    runSteps p.kind ms (s.more a b) =
      if (runSteps p.kind ms s).busy then p.resume ((runSteps p.kind ms s).more a b)
      else (runSteps p.kind ms s).more a b := by
  induction ms generalizing s with
  | nil => rfl
  | cons m ms ih =>
    have hf := (enter_frame m s).1.trans (perform_frame m (s.enter m))
    unfold runSteps
    rw [enter_more, perform_more]
    cases hp : perform m (s.enter m) with
    | completed u =>
      rw [hp] at hf
      have := ih u.nextStep (hf.busy.trans hb) (by
        have h1 : u.spc = s.spc := hf.spc
        simp only [nextStep_spc, h1, ← List.drop_drop, hd, List.drop_succ_cons, List.drop_zero])
      exact this
    | ended r u => rfl
    | waiting u =>
      rw [hp] at hf
      have h1 : u.busy = true := hf.busy.trans hb
      have h2 : u.spc = s.spc := hf.spc
      have h3 : p.steps.drop (u.more a b).spc = m :: ms := by
        show p.steps.drop u.spc = m :: ms
        rw [h2, hd]
      simp only [Progress.more, h1, if_true, Plan.resume, h3]

/-- A request that comes to an idle block while more answers are held does what it does without them, gone on with
after they are there (R326). -/
theorem request_more {i : Instr} {d : SyncDuty} {c : Option Result} {s : State} (hb : s.busy = false) :
    (s.more a b).request i d c (planOf i) = ((s.request i d c (planOf i)).more a b).resume := by
  have hadm : (s.more a b).admission d = s.admission d := rfl
  rcases request_cases i d c (planOf i) s with ⟨r, h1, h2⟩ | ⟨h0, r, h1, h2⟩ | ⟨h1, h2, h3⟩
  · rw [request_refused (hadm.trans h1), h2, resume_idle (by exact hb)]; rfl
  · subst h1; rw [request_checked (hadm.trans h0), h2, resume_idle (by exact hb)]; rfl
  · subst h2
    have hf := runSteps_frame (planOf i).kind (planOf i).steps (s.accept i)
    have e : (s.more a b).accept i = (s.accept i).more a b := rfl
    rw [request_runs (hadm.trans h1), h3, e, runSteps_more (planOf i) (planOf i).steps (s.accept i) rfl rfl]
    rcases hf.outcome with ⟨g1, g2, _⟩ | ⟨g1, _, _⟩
    · rw [if_pos (by rw [g1]; rfl)]
      exact (resume_busy (s := State.more a b _) (i := i) g1 g2).symm
    · rw [if_neg (by simp [g1]), resume_idle (by exact g1)]

theorem exec_more {i : Instr} {s : State} (hc : channel i = .request) (hb : s.busy = false) :
    ∃ t, exec i s = .next t ∧ exec i (s.more a b) = .next ((t.more a b).resume) := by
  cases i <;> first | (simp [channel] at hc; done) | (refine ⟨_, rfl, ?_⟩)
  all_goals first
    | exact congrArg _ (request_more hb)
    | (rw [resume_idle (by exact hb)]; rfl)

/-! ## What a run does not read -/

/-- The state `s` with the fields that no step reads or writes taken from `o`. -/
def State.graft (o s : State) : State :=
  { s with
    busy := o.busy, pollBudget := o.pollBudget, txn := o.txn, spc := o.spc, cur := o.cur, results := o.results
    inputs := o.inputs }

/-- The same progress with those fields taken from `o`. -/
def Progress.graft (o : State) : Progress → Progress
  | .completed s => .completed (o.graft s)
  | .ended r s => .ended r (o.graft s)
  | .waiting s => .waiting (o.graft s)

variable {o : State}

theorem rxStep_graft (k : Nat) (r : Result) (g : List Byte → State → Progress) (s : State)
    (hg : ∀ bs u, g bs (o.graft u) = (g bs u).graft o) :
    rxStep k r g (o.graft s) = (rxStep k r g s).graft o := by
  have e : (o.graft s).rxq = s.rxq := rfl
  unfold rxStep
  rw [e]
  split
  · rename_i bs rest _; exact hg bs ({ s with rxq := rest }.log (.rx k (.ok bs)))
  · rfl
  · rfl

theorem rxByte_graft (r : Result) (g : Byte → State → Progress) (s : State)
    (hg : ∀ c u, g c (o.graft u) = (g c u).graft o) : rxByte r g (o.graft s) = (rxByte r g s).graft o := by
  refine rxStep_graft _ _ _ _ fun bs u => ?_
  cases bs with
  | nil => rfl
  | cons c bs => exact hg c u

theorem pollLoop_graft (r : Result) (g : Byte → State → Progress) (q : List (Option Byte)) (s : State)
    (hg : ∀ c u, g c (o.graft u) = (g c u).graft o) :
    pollLoop r g q (o.graft s) = (pollLoop r g q s).graft o := by
  induction q generalizing s with
  | nil => rfl
  | cons c q ih =>
    cases c with
    | none =>
      by_cases h : s.att + 1 = s.budget
      · simp [pollLoop, State.graft, State.log, h, Progress.graft]
      · have := ih ({ s with rxq := q, att := s.att + 1 }.log (.rx 1 .fail))
        simp only [State.log, State.graft] at this
        simp [pollLoop, State.graft, State.log, h, this]
    | some c => exact hg c ({ s with rxq := q }.log (.rx 1 (.ok [c])))

theorem ackByte_graft (y : Site) (c : Byte) (u : State) : ackByte y c (o.graft u) = (ackByte y c u).graft o := by
  unfold ackByte; split <;> rfl

theorem responseByte_graft (c : Byte) (u : State) :
    responseByte c (o.graft u) = (responseByte c u).graft o := by
  unfold responseByte; split <;> rfl

theorem perform_graft (m : Micro) (s : State) : perform m (o.graft s) = (perform m s).graft o := by
  cases m
  case tx f y =>
    have e : (o.graft s).txq = s.txq := rfl
    simp only [perform, txStep, e]
    split <;> rfl
  case ack => exact rxByte_graft _ _ s (ackByte_graft _)
  case poll => exact pollLoop_graft _ _ _ s (ackByte_graft _)
  case len => exact rxByte_graft _ _ s fun _ _ => rfl
  case rejectZeroLen =>
    have e : (o.graft s).nvar = s.nvar := rfl
    simp only [perform, e]
    split <;> rfl
  case data k =>
    have e : k.bytes (o.graft s) = k.bytes s := by cases k <;> rfl
    simp only [perform, e, dataStep]
    split
    · rfl
    · exact rxStep_graft _ _ _ s fun _ _ => rfl
  case initAck => exact rxByte_graft _ _ s fun c u => by unfold initByte; split <;> rfl
  case response => exact rxByte_graft _ _ s responseByte_graft
  case pollResponse => exact pollLoop_graft _ _ _ s responseByte_graft

/-- The same state with another POLL_BUDGET and other inputs. -/
def State.around (n : Nat) (x : List Input) (s : State) : State := { s with pollBudget := n, inputs := x }

/-- The same progress with another POLL_BUDGET and other inputs. -/
def Progress.around (n : Nat) (x : List Input) : Progress → Progress
  | .completed s => .completed (s.around n x)
  | .ended r s => .ended r (s.around n x)
  | .waiting s => .waiting (s.around n x)

variable {n : Nat} {x : List Input}

theorem SameFrame.graft {s u : State} (h : SameFrame s u) : (s.around n x).graft u = u.around n x := by
  unfold State.graft State.around
  simp only [h.busy, h.txn, h.spc, h.cur, h.results]

theorem perform_around (m : Micro) (s : State) : perform m (s.around n x) = (perform m s).around n x := by
  have hf := perform_frame m s
  have hg := perform_graft (o := s.around n x) m s
  have e : (s.around n x).graft s = s.around n x := SameFrame.graft (.refl s)
  rw [e] at hg
  rw [hg]
  cases hp : perform m s <;> rw [hp] at hf
  case completed u => exact congrArg _ (SameFrame.graft (u := u) hf)
  case ended r u => exact congrArg _ (SameFrame.graft (u := u) hf)
  case waiting u => exact congrArg _ (SameFrame.graft (u := u) hf)

theorem runSteps_around (k : ValueKind) (ms : List Micro) (s : State) :
    runSteps k ms (s.around n x) = (runSteps k ms s).around n x := by
  induction ms generalizing s with
  | nil => rfl
  | cons m ms ih =>
    have e : (s.around n x).enter m = (s.enter m).around n x := by cases m <;> rfl
    unfold runSteps
    rw [e, perform_around]
    cases perform m (s.enter m) with
    | completed u => exact ih u.nextStep
    | ended r u => rfl
    | waiting u => rfl

/-- The operation in flight reads neither POLL_BUDGET nor the inputs (R25). -/
theorem resume_around (s : State) : (s.around n x).resume = s.resume.around n x := by
  unfold State.resume
  have e1 : (s.around n x).busy = s.busy := rfl
  have e2 : (s.around n x).cur = s.cur := rfl
  rw [e1, e2]
  split
  · split
    · rename_i i _
      have e3 : (s.around n x).spc = s.spc := rfl
      unfold Plan.resume
      rw [e3]
      split
      · rfl
      · rename_i m ms _
        rw [perform_around]
        cases perform m s with
        | completed u => exact runSteps_around _ _ u.nextStep
        | ended r u => rfl
        | waiting u => rfl
    · rfl
  · rfl

/-- An instruction does not read the inputs. -/
theorem request_inputs (i : Instr) (d : SyncDuty) (c : Option Result) (p : Plan) (s : State) :
    State.request i d c p { s with inputs := x } = { s.request i d c p with inputs := x } := by
  have hadm : State.admission d { s with inputs := x } = s.admission d := rfl
  rcases request_cases i d c p s with ⟨r, h1, h2⟩ | ⟨h0, r, h1, h2⟩ | ⟨h1, h2, h3⟩
  · rw [request_refused (hadm.trans h1), h2]; rfl
  · subst h1; rw [request_checked (hadm.trans h0), h2]; rfl
  · subst h2
    have hp := (runSteps_frame p.kind p.steps (s.accept i)).pollBudget
    rw [request_runs (hadm.trans h1), h3]
    refine (runSteps_around (n := s.pollBudget) (x := x) p.kind p.steps (s.accept i)).trans ?_
    rw [State.around, ← show _ = s.pollBudget from hp]

theorem exec_inputs {i : Instr} {s t : State} (x : List Input) (hc : channel i = .request) (h : exec i s = .next t) :
    exec i { s with inputs := x } = .next { t with inputs := x } := by
  cases i <;> first | (simp [channel] at hc; done) | (cases h)
  all_goals first
    | exact congrArg Host.Outcome.next (request_inputs _ _ _ _ _)
    | rfl

end Sys2Proof.Machine
end

