-- ==== Sys2Proof/Laws/PerInstr.lean ====
section
/-! SUPPORT. One law per instruction: the number of bytes of its encoding, added up from the operand encodings of
30_encoding.md R83 and the wire rows of R87, R88 and R95. -/

namespace Sys2Proof.Laws

/-- The number of bytes of an instruction: the selector, then each operand (R83). -/
def encodedLength : Instr → Nat
  | .cmdFrame _ => 1 + 1
  | .addrFrame _ => 1 + 4
  | .lenFrame _ => 1 + 4
  | .payloadFrame _ data => 1 + 1 + (4 + data.length)
  | .pageListFrame pages => 1 + (4 + 2 * pages.length)
  | .specialEraseFrame _ => 1 + 2
  | .wpPageFrame pages => 1 + (4 + pages.length)
  | .checkComplement frame => 1 + (4 + frame.length)
  | .checkXor frame => 1 + (4 + frame.length)
  | .decodeCmdFrame frame => 1 + (4 + frame.length)
  | .decodeAddrFrame frame => 1 + (4 + frame.length)
  | .decodeLenFrame frame => 1 + (4 + frame.length)
  | .decodePayloadFrame frame => 1 + (4 + frame.length)
  | .decodePageListFrame frame => 1 + (4 + frame.length)
  | .decodeSpecialEraseFrame frame => 1 + (4 + frame.length)
  | .autobaudInit => 1
  | .sendCommand _ => 1 + 1
  | .awaitAck => 1
  | .pollAwaitAck => 1
  | .sendFrame frame => 1 + (4 + frame.length)
  | .txnGet => 1
  | .txnGetRps => 1
  | .txnGetId => 1
  | .txnReadChunk _ _ => 1 + 4 + 4
  | .txnWriteChunk _ data => 1 + 4 + (4 + data.length)
  | .txnErasePages pages => 1 + (4 + 2 * pages.length)
  | .txnEraseSpecial _ => 1 + 2
  | .txnWriteProtect pages => 1 + (4 + pages.length)
  | .txnWriteUnprotect => 1
  | .txnReadoutProtect => 1
  | .txnReadoutUnprotect => 1
  | .wireGet => 2
  | .wireGetRps => 2
  | .wireGetId => 2
  | .wireReadMemory => 2
  | .wireWriteMemory => 2
  | .wireExtendedErase => 2
  | .wireWriteProtect => 2
  | .wireWriteUnprotect => 2
  | .wireReadoutProtect => 2
  | .wireReadoutUnprotect => 2
  | .wireSync => 1
  | .wireAck => 1
  | .wireNack => 1

/-- The encoding has the length its operands give (R83). -/
def EncodedLength.Statement (i : Instr) : Prop := (encode i).length = encodedLength i

theorem length_writeBytes (xs : List Byte) : (writeBytes xs).length = 4 + xs.length := by
  simp [writeBytes, be32]; omega

theorem length_flatMap_be16 (xs : List U16) : (xs.flatMap be16).length = 2 * xs.length := by
  induction xs with
  | nil => rfl
  | cons x xs ih => simp only [List.flatMap_cons, List.length_append, List.length_cons, ih]; simp [be16]; omega

theorem length_writeU16s (xs : List U16) : (writeU16s xs).length = 4 + 2 * xs.length := by
  simp only [writeU16s, List.length_append, length_flatMap_be16]; simp [be32]

theorem EncodedLength.cmdFrame (op : Byte) : EncodedLength.Statement (.cmdFrame op) := rfl
theorem EncodedLength.addrFrame (addr : U32) : EncodedLength.Statement (.addrFrame addr) := rfl
theorem EncodedLength.lenFrame (count : U32) : EncodedLength.Statement (.lenFrame count) := rfl
theorem EncodedLength.payloadFrame (lenByte : Byte) (data : List Byte) : EncodedLength.Statement (.payloadFrame lenByte data) := by
  simp [EncodedLength.Statement, encode, encodedLength, length_writeBytes]; omega
theorem EncodedLength.pageListFrame (pages : List U16) : EncodedLength.Statement (.pageListFrame pages) := by
  simp [EncodedLength.Statement, encode, encodedLength, length_writeU16s]; omega
theorem EncodedLength.specialEraseFrame (code : U16) : EncodedLength.Statement (.specialEraseFrame code) := rfl
theorem EncodedLength.wpPageFrame (pages : List Byte) : EncodedLength.Statement (.wpPageFrame pages) := by
  simp [EncodedLength.Statement, encode, encodedLength, length_writeBytes]; omega
theorem EncodedLength.checkComplement (frame : List Byte) : EncodedLength.Statement (.checkComplement frame) := by
  simp [EncodedLength.Statement, encode, encodedLength, length_writeBytes]; omega
theorem EncodedLength.checkXor (frame : List Byte) : EncodedLength.Statement (.checkXor frame) := by
  simp [EncodedLength.Statement, encode, encodedLength, length_writeBytes]; omega
theorem EncodedLength.decodeCmdFrame (frame : List Byte) : EncodedLength.Statement (.decodeCmdFrame frame) := by
  simp [EncodedLength.Statement, encode, encodedLength, length_writeBytes]; omega
theorem EncodedLength.decodeAddrFrame (frame : List Byte) : EncodedLength.Statement (.decodeAddrFrame frame) := by
  simp [EncodedLength.Statement, encode, encodedLength, length_writeBytes]; omega
theorem EncodedLength.decodeLenFrame (frame : List Byte) : EncodedLength.Statement (.decodeLenFrame frame) := by
  simp [EncodedLength.Statement, encode, encodedLength, length_writeBytes]; omega
theorem EncodedLength.decodePayloadFrame (frame : List Byte) : EncodedLength.Statement (.decodePayloadFrame frame) := by
  simp [EncodedLength.Statement, encode, encodedLength, length_writeBytes]; omega
theorem EncodedLength.decodePageListFrame (frame : List Byte) : EncodedLength.Statement (.decodePageListFrame frame) := by
  simp [EncodedLength.Statement, encode, encodedLength, length_writeBytes]; omega
theorem EncodedLength.decodeSpecialEraseFrame (frame : List Byte) : EncodedLength.Statement (.decodeSpecialEraseFrame frame) := by
  simp [EncodedLength.Statement, encode, encodedLength, length_writeBytes]; omega
theorem EncodedLength.autobaudInit : EncodedLength.Statement .autobaudInit := rfl
theorem EncodedLength.sendCommand (op : Byte) : EncodedLength.Statement (.sendCommand op) := rfl
theorem EncodedLength.awaitAck : EncodedLength.Statement .awaitAck := rfl
theorem EncodedLength.pollAwaitAck : EncodedLength.Statement .pollAwaitAck := rfl
theorem EncodedLength.sendFrame (frame : List Byte) : EncodedLength.Statement (.sendFrame frame) := by
  simp [EncodedLength.Statement, encode, encodedLength, length_writeBytes]; omega
theorem EncodedLength.txnGet : EncodedLength.Statement .txnGet := rfl
theorem EncodedLength.txnGetRps : EncodedLength.Statement .txnGetRps := rfl
theorem EncodedLength.txnGetId : EncodedLength.Statement .txnGetId := rfl
theorem EncodedLength.txnReadChunk (addr : U32) (count : U32) : EncodedLength.Statement (.txnReadChunk addr count) := rfl
theorem EncodedLength.txnWriteChunk (addr : U32) (data : List Byte) : EncodedLength.Statement (.txnWriteChunk addr data) := by
  simp [EncodedLength.Statement, encode, encodedLength, length_writeBytes, be32]; omega
theorem EncodedLength.txnErasePages (pages : List U16) : EncodedLength.Statement (.txnErasePages pages) := by
  simp [EncodedLength.Statement, encode, encodedLength, length_writeU16s]; omega
theorem EncodedLength.txnEraseSpecial (code : U16) : EncodedLength.Statement (.txnEraseSpecial code) := rfl
theorem EncodedLength.txnWriteProtect (pages : List Byte) : EncodedLength.Statement (.txnWriteProtect pages) := by
  simp [EncodedLength.Statement, encode, encodedLength, length_writeBytes]; omega
theorem EncodedLength.txnWriteUnprotect : EncodedLength.Statement .txnWriteUnprotect := rfl
theorem EncodedLength.txnReadoutProtect : EncodedLength.Statement .txnReadoutProtect := rfl
theorem EncodedLength.txnReadoutUnprotect : EncodedLength.Statement .txnReadoutUnprotect := rfl
theorem EncodedLength.wireGet : EncodedLength.Statement .wireGet := rfl
theorem EncodedLength.wireGetRps : EncodedLength.Statement .wireGetRps := rfl
theorem EncodedLength.wireGetId : EncodedLength.Statement .wireGetId := rfl
theorem EncodedLength.wireReadMemory : EncodedLength.Statement .wireReadMemory := rfl
theorem EncodedLength.wireWriteMemory : EncodedLength.Statement .wireWriteMemory := rfl
theorem EncodedLength.wireExtendedErase : EncodedLength.Statement .wireExtendedErase := rfl
theorem EncodedLength.wireWriteProtect : EncodedLength.Statement .wireWriteProtect := rfl
theorem EncodedLength.wireWriteUnprotect : EncodedLength.Statement .wireWriteUnprotect := rfl
theorem EncodedLength.wireReadoutProtect : EncodedLength.Statement .wireReadoutProtect := rfl
theorem EncodedLength.wireReadoutUnprotect : EncodedLength.Statement .wireReadoutUnprotect := rfl
theorem EncodedLength.wireSync : EncodedLength.Statement .wireSync := rfl
theorem EncodedLength.wireAck : EncodedLength.Statement .wireAck := rfl
theorem EncodedLength.wireNack : EncodedLength.Statement .wireNack := rfl

end Sys2Proof.Laws
end

