-- ==== Sys2Proof/Laws/Step.lean ====
section
/-! SUPPORT. What one step of the machine can do, said once; and the link events a step of a step list adds. -/

namespace Sys2Proof.Machine

/-! ## One step of the machine -/

/-- A step that gives a next state has run the instruction the next input spells, or done what that input does, or
there was no input. -/
theorem step_cases {s t : State} (h : step s = .next t) :
    (s.inputs = [] ∧ s.busy = false ∧ t = s) ∨
    (∃ inp rest i left, s.inputs = inp :: rest ∧ fetch inp = some (i, left) ∧
      exec i { s with inputs := left ++ rest } = .next t) ∨
    (∃ inp rest, s.inputs = inp :: rest ∧ fetch inp = none ∧ outside inp { s with inputs := rest } = .next t) := by
  unfold step at h
  split at h
  · rename_i hi
    unfold noInput at h
    split at h <;> simp only [reduceCtorEq, Host.Outcome.next.injEq] at h
    exact .inl ⟨hi, by simp_all, h.symm⟩
  · rename_i inp rest hi
    split at h
    · rename_i i left hf; exact .inr (.inl ⟨inp, rest, i, left, hi, hf, h⟩)
    · rename_i hf; exact .inr (.inr ⟨inp, rest, hi, hf, h⟩)

/-- What an input that spells no instruction can do. -/
inductive OutsideDoes (s : State) : State → Prop
  | illegal (bs : List Byte) : OutsideDoes s (s.illegalRequest bs)
  | sends (f : List Byte) : OutsideDoes s (s.frameSent f)
  | receives (bs : List Byte) : OutsideDoes s (s.bytesArrive bs)
  | answered (o : TxOutcome) : OutsideDoes s (s.txAnswered o)
  | fails : OutsideDoes s s.readFails
  | budget (n : Nat) (h : 1 ≤ n) : OutsideDoes s { s with pollBudget := n }
  | nothing : OutsideDoes s s
  | resets (h : s.busy = false) : OutsideDoes s s.blockReset

theorem outside_does {inp : Input} {s t : State} (h : outside inp s = .next t) : OutsideDoes s t := by
  cases inp <;> simp only [outside] at h
  case port c bs =>
    cases c <;> cases h
    · exact .illegal bs
    · exact .sends bs
    · exact .receives bs
  case txAnswer o => cases h; exact .answered o
  case readFails => cases h; exact .fails
  case setPollBudget n =>
    split at h <;> simp only [reduceCtorEq, Host.Outcome.next.injEq] at h
    subst h; exact .budget n (by omega)
  case writeCtrlstat b => cases h; exact .nothing
  case newSession =>
    split at h <;> simp only [reduceCtorEq, Host.Outcome.next.injEq] at h
    subst h; exact .resets (by simp_all)

/-- An illegal request is answered and changes nothing else; an empty input does nothing (R84). -/
theorem illegalRequest_cases (bs : List Byte) (s : State) : s.illegalRequest bs = s ∨
    ∃ op, s.illegalRequest bs = s.answer op (.err .illegalOp (some op) none) := by
  cases bs with
  | nil => exact .inl rfl
  | cons op bs => exact .inr ⟨op, rfl⟩

/-- Only a block reset, of an idle block, takes something from HIST (R31, R310). -/
theorem outsideDoes_hist {s t : State} (h : OutsideDoes s t) : (∃ es, t.hist = s.hist ++ es) ∨ t = s.blockReset := by
  cases h with
  | illegal bs =>
    rcases illegalRequest_cases bs s with e | ⟨op, e⟩ <;> rw [e] <;> exact .inl ⟨[], by simp⟩
  | sends f => exact .inl (frameSent_frame f s).hist
  | receives bs => exact .inl (bytesArrive_frame bs s).hist
  | answered o => exact .inl (txAnswered_frame o s).hist
  | fails => exact .inl (readFails_frame s).hist
  | budget n h => exact .inl ⟨[], by simp⟩
  | nothing => exact .inl ⟨[], by simp⟩
  | resets h => exact .inr rfl

/-! ## The link events of a step of a step list -/

/-- A TX step adds at most one event, and only a failed one ends the operation (R16, R210). -/
theorem txStep_events (f : List Byte) (x : Option Site) (s : State) :
    (∃ q, txStep f x s = .completed { s with txq := q, hist := s.hist ++ [.tx f .ok] }) ∨
    (∃ q, txStep f x s =
      .ended (.err .txFail none x) { s with txq := q, hist := s.hist ++ [.tx f .fail] }) ∨
    txStep f x s = .waiting s := by
  cases h : s.txq with
  | nil => exact .inr (.inr (txStep_waits h))
  | cons o q =>
    cases o with
    | ok => exact .inl ⟨q, txStep_ok h⟩
    | fail => exact .inr (.inl ⟨q, txStep_fail h⟩)

/-- What is read before the bytes of an RX are used. -/
theorem rxStep_events (n : Nat) (r : Result) (g : List Byte → State → Progress) (s : State) :
    (∃ bs q, bs.length = n ∧ rxStep n r g s = g bs { s with rxq := q, hist := s.hist ++ [.rx n (.ok bs)] }) ∨
    (∃ q, rxStep n r g s = .ended r { s with rxq := q, hist := s.hist ++ [.rx n .fail] }) ∨
    rxStep n r g s = .waiting s := by
  cases h : takeRx n s.rxq with
  | ok bs rest => exact .inl ⟨bs, rest, (takeRx_ok_length h).1, by simp [rxStep, h, State.log]⟩
  | fail rest => exact .inr (.inl ⟨rest, by simp [rxStep, h, State.log]⟩)
  | nothing => exact .inr (.inr (rxStep_waits h))

theorem rxByte_events (r : Result) (g : Byte → State → Progress) (s : State) :
    (∃ b q, rxByte r g s = g b { s with rxq := q, hist := s.hist ++ [.rx 1 (.ok [b])] }) ∨
    (∃ q, rxByte r g s = .ended r { s with rxq := q, hist := s.hist ++ [.rx 1 .fail] }) ∨
    rxByte r g s = .waiting s := by
  rcases rxStep_events 1 r (fun bs s' => match bs with | b :: _ => g b s' | [] => .waiting s') s with
    ⟨bs, q, hl, e⟩ | h
  · match bs, hl with
    | [b], _ => exact .inl ⟨b, q, e⟩
  · exact .inr h

/-- A poll: failed reads counted in ATT, then a byte, or the budget is used up, or it waits with attempts left (R186). -/
theorem pollLoop_events (r : Result) (g : Byte → State → Progress) (q : List (Option Byte)) (s : State)
    (hq : s.rxq = q) : ∃ k, ∃ q' : List (Option Byte),
    (∃ b, pollLoop r g q s = g b { s with
      rxq := q', att := s.att + k, hist := s.hist ++ (List.replicate k (.rx 1 .fail) ++ [.rx 1 (.ok [b])]) }) ∨
    (pollLoop r g q s = .ended r { s with
      rxq := q', att := s.att + k, hist := s.hist ++ List.replicate k (.rx 1 .fail) }) ∨
    (pollLoop r g q s = .waiting { s with
      rxq := [], att := s.att + k, hist := s.hist ++ List.replicate k (.rx 1 .fail) }) := by
  induction q generalizing s with
  | nil => exact ⟨0, [], .inr (.inr (by simp [pollLoop, ← hq]))⟩
  | cons a q ih =>
    cases a with
    | some b => exact ⟨0, q, .inl ⟨b, by simp [pollLoop, State.log]⟩⟩
    | none =>
      by_cases h : s.att + 1 = s.budget
      · exact ⟨1, q, .inr (.inl (by simp [pollLoop, State.log, h]))⟩
      · obtain ⟨k, q', hk⟩ := ih ({ s with rxq := q, att := s.att + 1 }.log (.rx 1 .fail)) rfl
        have e : pollLoop r g (none :: q) s = pollLoop r g q ({ s with rxq := q, att := s.att + 1 }.log (.rx 1 .fail)) := by
          simp [pollLoop, h]
        rw [e]
        refine ⟨k + 1, q', ?_⟩
        rcases hk with ⟨b, hk⟩ | hk | hk <;> rw [hk]
        · exact .inl ⟨b, by simp [State.log, List.replicate_succ, Nat.add_assoc, Nat.add_comm 1 k]⟩
        · exact .inr (.inl (by simp [State.log, List.replicate_succ, Nat.add_assoc, Nat.add_comm 1 k]))
        · exact .inr (.inr (by simp [State.log, List.replicate_succ, Nat.add_assoc, Nat.add_comm 1 k]))

/-- An event of a read. -/
def Event.IsRx : Event → Prop
  | .tx _ _ => False
  | .rx _ _ => True

/-- Every step but TX adds read events only (R210). -/
theorem perform_reads {m : Micro} (hm : ∀ f x, m ≠ .tx f x) (s : State) :
    ∃ es, (perform m s).state.hist = s.hist ++ es ∧ ∀ e ∈ es, e.IsRx := by
  have byte : ∀ {r : Result} {g : Byte → State → Progress}, (∀ b u, (g b u).state.hist = u.hist) →
      ∃ es, (rxByte r g s).state.hist = s.hist ++ es ∧ ∀ e ∈ es, e.IsRx := by
    intro r g hg
    rcases rxByte_events r g s with ⟨b, q, h⟩ | ⟨q, h⟩ | h <;> rw [h]
    · exact ⟨[.rx 1 (.ok [b])], by rw [hg], by simp [Event.IsRx]⟩
    · exact ⟨[.rx 1 .fail], rfl, by simp [Event.IsRx]⟩
    · exact ⟨[], by simp [Progress.state], by simp⟩
  have poll : ∀ {r : Result} {g : Byte → State → Progress}, (∀ b u, (g b u).state.hist = u.hist) →
      ∃ es, (pollLoop r g s.rxq s).state.hist = s.hist ++ es ∧ ∀ e ∈ es, e.IsRx := by
    intro r g hg
    obtain ⟨k, q, ⟨b, h⟩ | h | h⟩ := pollLoop_events r g s.rxq s rfl <;> rw [h]
    · refine ⟨_, hg _ _, ?_⟩
      intro e he
      simp only [List.mem_append, List.mem_replicate, List.mem_singleton] at he
      rcases he with ⟨_, rfl⟩ | rfl <;> trivial
    · exact ⟨_, rfl, by simp only [List.mem_replicate]; rintro e ⟨_, rfl⟩; trivial⟩
    · exact ⟨_, rfl, by simp only [List.mem_replicate]; rintro e ⟨_, rfl⟩; trivial⟩
  cases m
  case tx f x => exact absurd rfl (hm f x)
  case ack => exact byte fun _ _ => by rw [ackByte_state]
  case poll => exact poll fun _ _ => by rw [ackByte_state]
  case len => exact byte fun _ _ => rfl
  case rejectZeroLen => simp only [perform]; split <;> exact ⟨[], by simp [Progress.state], by simp⟩
  case data n =>
    simp only [perform, dataStep]
    split
    · exact ⟨[], by simp [Progress.state], by simp⟩
    · rcases rxStep_events (n.bytes s) (.err .rxFail none (some .data))
        (fun bs s' => .completed { s' with rxbuf := s'.rxbuf ++ bs }) s with ⟨bs, q, _, h⟩ | ⟨q, h⟩ | h <;> rw [h]
      · exact ⟨_, rfl, by simp [Event.IsRx]⟩
      · exact ⟨_, rfl, by simp [Event.IsRx]⟩
      · exact ⟨[], by simp [Progress.state], by simp⟩
  case initAck => exact byte fun b u => by obtain ⟨v, hv⟩ := initByte_state b u; rw [hv]
  case response => exact byte fun _ _ => by rw [responseByte_state]
  case pollResponse => exact poll fun _ _ => by rw [responseByte_state]

/-- A handshake step completes on ACK alone, and ACK is its last event (R183, R210). -/
theorem ackByte_completed {x : Site} {b : Byte} {s t : State} (h : ackByte x b s = .completed t) : b = 0x79 ∧ t = s := by
  unfold ackByte at h
  split at h <;> simp only [Progress.completed.injEq, reduceCtorEq] at h
  rename_i hb
  refine ⟨?_, h.symm⟩
  unfold classify at hb
  split at hb
  · assumption
  · split at hb <;> simp at hb

theorem ack_completed {x : Site} {s t : State} (h : perform (.ack x) s = .completed t) :
    ∃ q, t = { s with rxq := q, hist := s.hist ++ [.rx 1 (.ok [0x79])] } := by
  simp only [perform] at h
  rcases rxByte_events (.err .rxFail none (some x)) (ackByte x) s with ⟨b, q, e⟩ | ⟨q, e⟩ | e <;> rw [e] at h
  · obtain ⟨rfl, rfl⟩ := ackByte_completed h; exact ⟨q, rfl⟩
  · simp at h
  · simp at h

end Sys2Proof.Machine
end

