-- ==== Sys2Proof/Tests/Slice0.lean ====
section
/-! SUPPORT. Tests on fixed values, their expected results taken from 95_test_vectors.md (the vector is named) and from
the encodings of 30_encoding.md, and a witness for the hypotheses of each statement. -/

namespace Sys2Proof.Tests

open Sys2Proof.Machine

/-! ## Helpers -/

/-- An idle block whose oracle lets every write pass and gives `rx`; POLL_BUDGET is 3. -/
def idle (sync : Bool) (rx : List (Option Byte)) (tx : List TxOutcome := [.ok, .ok, .ok]) : State :=
  { State.reset with sync := sync, pollBudget := 3, txq := tx, rxq := rx }

/-- A block in the middle of an operation, with nothing given by the oracle; POLL_BUDGET is 3. -/
def waiting (sync : Bool) (i : Instr) (spc : Nat) (inputs : List Input := []) : State :=
  { State.reset with
    sync := sync, busy := true, pollBudget := 3, budget := 3, txn := selector i, spc := spc, cur := some i
    inputs := inputs }

/-- The block is idle with these answers held by the oracle. -/
abbrev Ready (sync : Bool) (tx : List TxOutcome) (rx : List (Option Byte)) (s : State) : Prop :=
  s.busy = false ∧ s.sync = sync ∧ s.txq = tx ∧ s.rxq = rx

/-- The state an outcome goes on with. -/
def nextOf : Host.Outcome State Fault Refusal → Option State
  | .next t => some t
  | .fault _ => none
  | .refused _ => none

/-- The answer to a request, and what it leaves in SYNC. -/
def ask (i : Instr) (s : State) : Option (Result × Bool) :=
  (nextOf (exec i s)).bind fun t => t.results.getLast?.map fun a => (a.result, t.sync)

/-- The value a request returns from a block after reset. -/
def valueOf (i : Instr) : Option Value := (ask i (idle false [])).bind fun x => x.1.value

/-- The status and reason a request gets from a block after reset. -/
def whyOf (i : Instr) : Option (Status × Reason) := (ask i (idle false [])).map fun x => (x.1.status, x.1.reason)

/-- The link events a request adds. -/
def events (i : Instr) (s : State) : Option (List Event) := (nextOf (exec i s)).map fun t => t.hist

/-- How an outcome stops. -/
def stopOf : Host.Outcome State Fault Refusal → Option (Fault ⊕ Refusal)
  | .next _ => none
  | .fault f => some (.inl f)
  | .refused r => some (.inr r)

/-! ## Well-formedness: each check refuses an ill-formed term -/

theorem test_bytes_too_long_ill_formed (b : Byte) (a : U32) (n : Nat) (h : 2 ^ 32 ≤ n) :
    let d := List.replicate n b
    ¬ (Instr.payloadFrame b d).WellFormed ∧ ¬ (Instr.wpPageFrame d).WellFormed ∧
    ¬ (Instr.checkComplement d).WellFormed ∧ ¬ (Instr.checkXor d).WellFormed ∧
    ¬ (Instr.decodeCmdFrame d).WellFormed ∧ ¬ (Instr.decodeAddrFrame d).WellFormed ∧
    ¬ (Instr.decodeLenFrame d).WellFormed ∧ ¬ (Instr.decodePayloadFrame d).WellFormed ∧
    ¬ (Instr.decodePageListFrame d).WellFormed ∧ ¬ (Instr.decodeSpecialEraseFrame d).WellFormed ∧
    ¬ (Instr.sendFrame d).WellFormed ∧ ¬ (Instr.txnWriteChunk a d).WellFormed ∧
    ¬ (Instr.txnWriteProtect d).WellFormed := by
  simp only [Instr.WellFormed, fitsCount, List.length_replicate]; omega

theorem test_pages_too_long_ill_formed (p : U16) (n : Nat) (h : 2 ^ 32 ≤ n) :
    ¬ (Instr.pageListFrame (List.replicate n p)).WellFormed ∧
    ¬ (Instr.txnErasePages (List.replicate n p)).WellFormed := by
  simp only [Instr.WellFormed, fitsCount, List.length_replicate]; omega

theorem test_longest_bytes_well_formed (b : Byte) (n : Nat) (h : n = 2 ^ 32 - 1) :
    (Instr.sendFrame (List.replicate n b)).WellFormed := by
  simp only [Instr.WellFormed, fitsCount, List.length_replicate]; omega

/-! ## Decoding: a word of every constructor, written out from R82, R83, R87, R88, R95 -/

theorem test_decode_builders :
    decodeRequest [0x10, 0x31] = some (.cmdFrame 0x31, []) ∧
    decodeRequest [0x11, 0x08, 0x00, 0x01, 0x00] = some (.addrFrame 0x08000100, []) ∧
    decodeRequest [0x12, 0x00, 0x00, 0x01, 0x2C] = some (.lenFrame 300, []) ∧
    decodeRequest [0x13, 0x03, 0x00, 0x00, 0x00, 0x02, 0x01, 0x02] = some (.payloadFrame 0x03 [0x01, 0x02], []) ∧
    decodeRequest [0x14, 0x00, 0x00, 0x00, 0x02, 0x12, 0x34, 0x00, 0x11] =
      some (.pageListFrame [0x1234, 0x0011], []) ∧
    decodeRequest [0x15, 0xFF, 0xFE] = some (.specialEraseFrame 0xFFFE, []) ∧
    decodeRequest [0x16, 0x00, 0x00, 0x00, 0x01, 0x05] = some (.wpPageFrame [0x05], []) := by decide

theorem test_decode_validators :
    decodeRequest [0x20, 0x00, 0x00, 0x00, 0x02, 0x3F, 0xC0] = some (.checkComplement [0x3F, 0xC0], []) ∧
    decodeRequest [0x21, 0x00, 0x00, 0x00, 0x01, 0x00] = some (.checkXor [0x00], []) ∧
    decodeRequest [0x22, 0x00, 0x00, 0x00, 0x02, 0x44, 0xBB] = some (.decodeCmdFrame [0x44, 0xBB], []) ∧
    decodeRequest [0x23, 0x00, 0x00, 0x00, 0x05, 0x08, 0x00, 0x01, 0x00, 0x09] =
      some (.decodeAddrFrame [0x08, 0x00, 0x01, 0x00, 0x09], []) ∧
    decodeRequest [0x24, 0x00, 0x00, 0x00, 0x02, 0xFF, 0x00] = some (.decodeLenFrame [0xFF, 0x00], []) ∧
    decodeRequest [0x25, 0x00, 0x00, 0x00, 0x03, 0x05, 0x01, 0x04] =
      some (.decodePayloadFrame [0x05, 0x01, 0x04], []) ∧
    decodeRequest [0x26, 0x00, 0x00, 0x00, 0x00] = some (.decodePageListFrame [], []) ∧
    decodeRequest [0x27, 0x00, 0x00, 0x00, 0x03, 0xFF, 0xFE, 0x01] =
      some (.decodeSpecialEraseFrame [0xFF, 0xFE, 0x01], []) := by decide

theorem test_decode_handshake :
    decodeRequest [0x30] = some (.autobaudInit, []) ∧ decodeRequest [0x31, 0x11] = some (.sendCommand 0x11, []) ∧
    decodeRequest [0x32] = some (.awaitAck, []) ∧ decodeRequest [0x33] = some (.pollAwaitAck, []) ∧
    decodeRequest [0x34, 0x00, 0x00, 0x00, 0x02, 0x3F, 0xC0] = some (.sendFrame [0x3F, 0xC0], []) := by decide

theorem test_decode_transactions :
    decodeRequest [0x40] = some (.txnGet, []) ∧ decodeRequest [0x41] = some (.txnGetRps, []) ∧
    decodeRequest [0x42] = some (.txnGetId, []) ∧
    decodeRequest [0x43, 0x08, 0x00, 0x00, 0x04, 0x00, 0x00, 0x01, 0x00] =
      some (.txnReadChunk 0x08000004 256, []) ∧
    decodeRequest [0x44, 0x08, 0x00, 0x00, 0x02, 0x00, 0x00, 0x00, 0x01, 0xAA] =
      some (.txnWriteChunk 0x08000002 [0xAA], []) ∧
    decodeRequest [0x45, 0x00, 0x00, 0x00, 0x01, 0xFF, 0xFC] = some (.txnErasePages [0xFFFC], []) ∧
    decodeRequest [0x46, 0xFF, 0xFD] = some (.txnEraseSpecial 0xFFFD, []) ∧
    decodeRequest [0x47, 0x00, 0x00, 0x00, 0x02, 0x00, 0x01] = some (.txnWriteProtect [0x00, 0x01], []) ∧
    decodeRequest [0x48] = some (.txnWriteUnprotect, []) ∧ decodeRequest [0x49] = some (.txnReadoutProtect, []) ∧
    decodeRequest [0x4A] = some (.txnReadoutUnprotect, []) := by decide

theorem test_decode_wire :
    decodeToDevice [0x00, 0xFF] = some .wireGet ∧ decodeToDevice [0x01, 0xFE] = some .wireGetRps ∧
    decodeToDevice [0x02, 0xFD] = some .wireGetId ∧ decodeToDevice [0x11, 0xEE] = some .wireReadMemory ∧
    decodeToDevice [0x31, 0xCE] = some .wireWriteMemory ∧ decodeToDevice [0x44, 0xBB] = some .wireExtendedErase ∧
    decodeToDevice [0x63, 0x9C] = some .wireWriteProtect ∧ decodeToDevice [0x73, 0x8C] = some .wireWriteUnprotect ∧
    decodeToDevice [0x82, 0x7D] = some .wireReadoutProtect ∧
    decodeToDevice [0x92, 0x6D] = some .wireReadoutUnprotect ∧ decodeToDevice [0x7F] = some .wireSync ∧
    decodeFromDevice [0x79] = some .wireAck ∧ decodeFromDevice [0x1F] = some .wireNack := by decide

/-- A request is read off the front of a longer string; unassigned selectors, operands cut short, a wrong complement and
an unlisted opcode are no instruction (R84, R88, R100). -/
theorem test_decode_refuses :
    decodeRequest [0x10, 0x31, 0x40] = some (.cmdFrame 0x31, [0x40]) ∧ decodeRequest [0x17] = none ∧
    decodeRequest [0x50] = none ∧ decodeRequest [0x11, 0x08, 0x00, 0x01] = none ∧
    decodeRequest [0x13, 0x03, 0x00, 0x00, 0x00, 0x02, 0x01] = none ∧
    decodeRequest [0x14, 0x00, 0x00, 0x00, 0x01, 0x12] = none ∧ decodeToDevice [0x11, 0x11] = none ∧
    decodeToDevice [0x12, 0xED] = none ∧ decodeFromDevice [0x7F] = none := by decide

/-! ## Every row of the opcode table: its word decodes, and a step after reset runs it -/

theorem test_table_block_rows :
    decodeTableWord 8 0x10 = some (.cmdFrame 0) ∧ decodeTableWord 8 0x11 = some (.addrFrame 0) ∧
    decodeTableWord 8 0x12 = some (.lenFrame 0) ∧ decodeTableWord 8 0x13 = some (.payloadFrame 0 []) ∧
    decodeTableWord 8 0x14 = some (.pageListFrame []) ∧ decodeTableWord 8 0x15 = some (.specialEraseFrame 0) ∧
    decodeTableWord 8 0x16 = some (.wpPageFrame []) ∧ decodeTableWord 8 0x20 = some (.checkComplement []) ∧
    decodeTableWord 8 0x21 = some (.checkXor []) ∧ decodeTableWord 8 0x22 = some (.decodeCmdFrame []) ∧
    decodeTableWord 8 0x23 = some (.decodeAddrFrame []) ∧ decodeTableWord 8 0x24 = some (.decodeLenFrame []) ∧
    decodeTableWord 8 0x25 = some (.decodePayloadFrame []) ∧ decodeTableWord 8 0x26 = some (.decodePageListFrame []) ∧
    decodeTableWord 8 0x27 = some (.decodeSpecialEraseFrame []) := by decide

theorem test_table_link_rows :
    decodeTableWord 8 0x30 = some .autobaudInit ∧ decodeTableWord 8 0x31 = some (.sendCommand 0) ∧
    decodeTableWord 8 0x32 = some .awaitAck ∧ decodeTableWord 8 0x33 = some .pollAwaitAck ∧
    decodeTableWord 8 0x34 = some (.sendFrame []) ∧ decodeTableWord 8 0x40 = some .txnGet ∧
    decodeTableWord 8 0x41 = some .txnGetRps ∧ decodeTableWord 8 0x42 = some .txnGetId ∧
    decodeTableWord 8 0x43 = some (.txnReadChunk 0 0) ∧ decodeTableWord 8 0x44 = some (.txnWriteChunk 0 []) ∧
    decodeTableWord 8 0x45 = some (.txnErasePages []) ∧ decodeTableWord 8 0x46 = some (.txnEraseSpecial 0) ∧
    decodeTableWord 8 0x47 = some (.txnWriteProtect []) ∧ decodeTableWord 8 0x48 = some .txnWriteUnprotect ∧
    decodeTableWord 8 0x49 = some .txnReadoutProtect ∧ decodeTableWord 8 0x4A = some .txnReadoutUnprotect := by decide

theorem test_table_wire_rows :
    decodeTableWord 16 0x00FF = some .wireGet ∧ decodeTableWord 16 0x01FE = some .wireGetRps ∧
    decodeTableWord 16 0x02FD = some .wireGetId ∧ decodeTableWord 16 0x11EE = some .wireReadMemory ∧
    decodeTableWord 16 0x31CE = some .wireWriteMemory ∧ decodeTableWord 16 0x44BB = some .wireExtendedErase ∧
    decodeTableWord 16 0x639C = some .wireWriteProtect ∧ decodeTableWord 16 0x738C = some .wireWriteUnprotect ∧
    decodeTableWord 16 0x827D = some .wireReadoutProtect ∧ decodeTableWord 16 0x926D = some .wireReadoutUnprotect ∧
    decodeTableWord 8 0x7F = some .wireSync ∧ decodeTableWord 8 0x79 = some .wireAck ∧
    decodeTableWord 8 0x1F = some .wireNack := by decide

theorem test_step_runs_table_word :
    (nextOf (step (State.reset.withFetchWord 8 0x10))).map (·.results) =
      some [⟨0x10, ⟨.ok, .none, none, none, some (.frame [0x00, 0xFF])⟩⟩] ∧
    (nextOf (step (State.reset.withFetchWord 8 0x30))).map (fun t => (t.busy, t.txn)) = some (true, 0x30) ∧
    (nextOf (step (State.reset.withFetchWord 8 0x79))).map (·.rxq) = some [some 0x79] ∧
    (nextOf (step (State.reset.withFetchWord 16 0x11EE))).map (·.hist) = some [] := by decide

/-! ## Frame builders (95_test_vectors.md section 2.1) -/

/-- B-4, B-11. -/
theorem test_cmdFrame : valueOf (.cmdFrame 0x11) = some (.frame [0x11, 0xEE]) ∧
    valueOf (.cmdFrame 0x7F) = some (.frame [0x7F, 0x80]) := by decide

/-- B-15, B-19. -/
theorem test_addrFrame : valueOf (.addrFrame 0x12345678) = some (.frame [0x12, 0x34, 0x56, 0x78, 0x08]) ∧
    valueOf (.addrFrame 0x80000001) = some (.frame [0x80, 0x00, 0x00, 0x01, 0x81]) := by decide

/-- L1-3, B-25 to B-27. -/
theorem test_lenFrame : valueOf (.lenFrame 64) = some (.frame [0x3F, 0xC0]) ∧
    valueOf (.lenFrame 256) = some (.frame [0xFF, 0x00]) ∧
    whyOf (.lenFrame 0) = some (.invalidArgument, .range) ∧
    whyOf (.lenFrame 257) = some (.invalidArgument, .range) := by decide

/-- L1-9, B-29, B-33. -/
theorem test_payloadFrame :
    valueOf (.payloadFrame 0x03 [0x01, 0x02, 0x03, 0x04]) = some (.frame [0x03, 0x01, 0x02, 0x03, 0x04, 0x07]) ∧
    valueOf (.payloadFrame 0x05 [0x01]) = some (.frame [0x05, 0x01, 0x04]) ∧
    whyOf (.payloadFrame 0x00 []) = some (.invalidArgument, .range) := by decide

/-- B-36, B-40, B-42. -/
theorem test_pageListFrame :
    valueOf (.pageListFrame [0x0010, 0x0011, 0x0012]) =
      some (.frame [0x00, 0x02, 0x00, 0x10, 0x00, 0x11, 0x00, 0x12, 0x11]) ∧
    whyOf (.pageListFrame []) = some (.invalidArgument, .range) ∧
    whyOf (.pageListFrame [0x0001, 0xFFFF]) = some (.invalidArgument, .reservedSentinel) := by decide

/-- B-43 to B-46: the counts at the edges of R125, 65532, 65533, 65536 and 65537 pages of 0x0000. -/
theorem test_pageList_counts (n : Nat) :
    (n = 65532 → pageListCheck (List.replicate n 0) = none) ∧
    (n = 65533 ∨ n = 65536 → pageListCheck (List.replicate n 0) = some .reservedSentinel) ∧
    (n = 65537 → pageListCheck (List.replicate n 0) = some .range) := by
  refine ⟨fun h => ?_, fun h => ?_, fun h => ?_⟩
  · rw [pageListCheck_none, List.length_replicate]
    exact ⟨by omega, by omega, fun x hx => by rw [List.eq_of_mem_replicate hx]; decide⟩
  · rw [pageListCheck, List.length_replicate, if_neg (by omega), if_neg (by omega), if_pos (by omega)]
  · rw [pageListCheck, List.length_replicate, if_neg (by omega), if_pos (by omega)]

/-- B-49, B-51. -/
theorem test_specialEraseFrame : valueOf (.specialEraseFrame 0xFFFE) = some (.frame [0xFF, 0xFE, 0x01]) ∧
    whyOf (.specialEraseFrame 0xFFFC) = some (.invalidArgument, .notSentinel) := by decide

/-- B-54, B-56. -/
theorem test_wpPageFrame : valueOf (.wpPageFrame [0x00, 0x01]) = some (.frame [0x01, 0x00, 0x01, 0x00]) ∧
    whyOf (.wpPageFrame []) = some (.invalidArgument, .range) := by decide

/-! ## Frame validators (section 2.2) -/

/-- V-1 to V-3. -/
theorem test_checkComplement : valueOf (.checkComplement [0x3F, 0xC0]) = some (.bool true) ∧
    valueOf (.checkComplement [0x00, 0x00]) = some (.bool false) ∧
    whyOf (.checkComplement [0x3F]) = some (.invalidArgument, .badFrameLength) := by decide

/-- V-6, V-7, V-9. -/
theorem test_checkXor : valueOf (.checkXor [0x08, 0x00, 0x00, 0x00, 0x09]) = some (.bool false) ∧
    valueOf (.checkXor [0x00]) = some (.bool true) ∧
    whyOf (.checkXor []) = some (.invalidArgument, .badFrameLength) := by decide

/-- V-12, V-14, V-17. -/
theorem test_decodeCmdFrame : valueOf (.decodeCmdFrame [0x92, 0x6D]) = some (.command 0x92) ∧
    ask (.decodeCmdFrame [0x12, 0xED]) (idle true []) =
      some (⟨.unknownOpcode, .notACommand, some 0x12, none, none⟩, true) ∧
    whyOf (.decodeCmdFrame [0x12, 0x12]) = some (.badChecksum, .checksumMismatch) := by decide

/-- V-21, V-23, V-24. -/
theorem test_decodeAddrFrame :
    valueOf (.decodeAddrFrame [0x08, 0x00, 0x01, 0x00, 0x09]) = some (.address 0x08000100) ∧
    whyOf (.decodeAddrFrame [0x08, 0x00, 0x00, 0x00]) = some (.invalidArgument, .badFrameLength) ∧
    whyOf (.decodeAddrFrame [0x08, 0x00, 0x00, 0x01, 0x08]) = some (.badChecksum, .checksumMismatch) := by decide

/-- V-18, V-20. -/
theorem test_decodeLenFrame : valueOf (.decodeLenFrame [0xFF, 0x00]) = some (.count 256) ∧
    whyOf (.decodeLenFrame [0x3F, 0xC1]) = some (.badChecksum, .checksumMismatch) := by decide

/-- V-25, V-26. -/
theorem test_decodePayloadFrame :
    valueOf (.decodePayloadFrame [0x03, 0x01, 0x02, 0x03, 0x04, 0x07]) =
      some (.payload 0x03 [0x01, 0x02, 0x03, 0x04] true) ∧
    valueOf (.decodePayloadFrame [0x05, 0x01, 0x04]) = some (.payload 0x05 [0x01] false) := by decide

/-- V-30, V-32, V-34, V-35. -/
theorem test_decodePageListFrame :
    valueOf (.decodePageListFrame [0x00, 0x01, 0x00, 0x01, 0x00, 0x02, 0x02]) = some (.pages [0x0001, 0x0002]) ∧
    whyOf (.decodePageListFrame [0x00, 0x00, 0xFF, 0xFF, 0x00]) = some (.invalidArgument, .reservedSentinel) ∧
    whyOf (.decodePageListFrame [0x01, 0x01, 0x00, 0x01, 0x00, 0x02, 0x02]) =
      some (.invalidArgument, .badFrameLength) ∧
    whyOf (.decodePageListFrame [0x00, 0x01, 0x00, 0x01, 0x00, 0x02, 0x03]) =
      some (.badChecksum, .checksumMismatch) := by decide

/-- V-36 to V-38. -/
theorem test_decodeSpecialEraseFrame : valueOf (.decodeSpecialEraseFrame [0xFF, 0xFE, 0x01]) = some (.code 0xFFFE) ∧
    whyOf (.decodeSpecialEraseFrame [0xFF, 0xFC, 0x03]) = some (.invalidArgument, .notSentinel) ∧
    whyOf (.decodeSpecialEraseFrame [0xFF, 0xFF, 0xFF]) = some (.badChecksum, .checksumMismatch) := by decide

/-! ## Handshake primitives (section 2.3) -/

/-- H-1 to H-4. -/
theorem test_init :
    ask .autobaudInit (idle false [some 0x79]) = some (⟨.ok, .none, none, none, none⟩, true) ∧
    ask .autobaudInit (idle false [some 0x1F]) =
      some (⟨.protocolViolation, .initNoAck, some 0x1F, none, none⟩, false) ∧
    ask .autobaudInit (idle false [none]) =
      some (⟨.protocolViolation, .initReadFailed, none, none, none⟩, false) ∧
    ask .autobaudInit (idle false [] [.fail]) =
      some (⟨.transportFailure, .txFail, none, none, none⟩, false) := by decide

/-- H-5, H-6, E-3, E-4: the flags come first, BUSY before SYNC. -/
theorem test_admission :
    ask .autobaudInit (idle true []) = some (⟨.refused, .alreadySynced, none, none, none⟩, true) ∧
    ask (.sendCommand 0x12) (idle false []) = some (⟨.refused, .notSynced, none, none, none⟩, false) ∧
    ask .txnGet (waiting false .autobaudInit 0) = some (⟨.refused, .busy, none, none, none⟩, false) := by decide

/-- H-8 to H-10. -/
theorem test_sendCommand :
    ask (.sendCommand 0x11) (idle true [some 0x1F]) =
      some (⟨.ok, .none, none, none, some (.response .nack)⟩, true) ∧
    ask (.sendCommand 0x11) (idle true [some 0x00]) =
      some (⟨.protocolViolation, .unexpectedByte, some 0x00, none, none⟩, false) ∧
    ask (.sendCommand 0x7F) (idle true []) =
      some (⟨.refused, .unknownCommand, some 0x7F, none, none⟩, true) := by decide

/-- H-13. -/
theorem test_awaitAck :
    ask .awaitAck (idle true [some 0x7F]) =
      some (⟨.protocolViolation, .unexpectedByte, some 0x7F, none, none⟩, false) ∧
    events .awaitAck (idle true [some 0x79]) = some [.rx 1 (.ok [0x79])] := by decide

/-- H-15, H-16. -/
theorem test_pollAwaitAck :
    ask .pollAwaitAck (idle true [none, none, none]) =
      some (⟨.transportFailure, .pollBudgetExhausted, none, none, none⟩, true) ∧
    ask .pollAwaitAck (idle true [none, some 0x1F]) =
      some (⟨.ok, .none, none, none, some (.response .nack)⟩, true) := by decide

/-- H-18, H-19. -/
theorem test_sendFrame :
    events (.sendFrame [0x08, 0x00, 0x00, 0x00, 0x08]) (idle true []) =
      some [.tx [0x08, 0x00, 0x00, 0x00, 0x08] .ok] ∧
    ask (.sendFrame []) (idle true []) = some (⟨.invalidArgument, .range, none, none, none⟩, true) := by decide

/-! ## Transactions (section 2.4) -/

/-- T-1, T-2. -/
theorem test_txnGet :
    ask .txnGet (idle true [some 0x79, some 0x01, some 0x31, some 0x79]) =
      some (⟨.ok, .none, none, none, some (.bootloader 0x31 [])⟩, true) ∧
    ask .txnGet (idle true [some 0x79, some 0x00]) =
      some (⟨.protocolViolation, .badLength, some 0x00, some .lenByte, none⟩, false) := by decide

/-- T-5, with three different bytes. -/
theorem test_txnGetRps :
    ask .txnGetRps (idle true [some 0x79, some 0x10, some 0x01, some 0x02, some 0x79]) =
      some (⟨.ok, .none, none, none, some (.counters 0x01 0x02)⟩, true) := by decide

/-- T-6. -/
theorem test_txnGetId :
    ask .txnGetId (idle true [some 0x79, some 0x01, some 0x04, some 0x10, some 0x79]) =
      some (⟨.ok, .none, none, none, some (.identity [0x04, 0x10])⟩, true) ∧
    events .txnGetId (idle true [some 0x79, some 0x01, some 0x04, some 0x10, some 0x79]) =
      some [.tx [0x02, 0xFD] .ok, .rx 1 (.ok [0x79]), .rx 1 (.ok [0x01]), .rx 2 (.ok [0x04, 0x10]),
        .rx 1 (.ok [0x79])] := by decide

/-- T-8, T-15. -/
theorem test_txnReadChunk :
    ask (.txnReadChunk 0xFFFFFFFF 1) (idle true [some 0x79, some 0x1F]) =
      some (⟨.invalidArgument, .badAddress, some 0x1F, some .addr, none⟩, true) ∧
    ask (.txnReadChunk 0x08000000 2) (idle true [some 0x79, some 0x79, some 0x79, some 0x79, some 0x1F]) =
      some (⟨.ok, .none, none, none, some (.data [0x79, 0x1F])⟩, true) := by decide

/-- T-16, T-18. -/
theorem test_txnWriteChunk :
    events (.txnWriteChunk 0x08000000 [0x01, 0x02, 0x03, 0x04]) (idle true [some 0x79, some 0x79, some 0x79]) =
      some [.tx [0x31, 0xCE] .ok, .rx 1 (.ok [0x79]), .tx [0x08, 0x00, 0x00, 0x00, 0x08] .ok, .rx 1 (.ok [0x79]),
        .tx [0x03, 0x01, 0x02, 0x03, 0x04, 0x07] .ok, .rx 1 (.ok [0x79])] ∧
    ask (.txnWriteChunk 0x08000001 []) (idle true []) =
      some (⟨.invalidArgument, .misaligned, none, none, none⟩, true) := by decide

/-- T-22, T-24. -/
theorem test_txnErasePages :
    events (.txnErasePages [0x0001, 0x0002]) (idle true [some 0x79, none, some 0x79]) =
      some [.tx [0x44, 0xBB] .ok, .rx 1 (.ok [0x79]), .tx [0x00, 0x01, 0x00, 0x01, 0x00, 0x02, 0x02] .ok, .rx 1 .fail,
        .rx 1 (.ok [0x79])] ∧
    ask (.txnErasePages [0xFFFE]) (idle true []) =
      some (⟨.invalidArgument, .reservedSentinel, none, none, none⟩, true) := by decide

/-- T-26, T-27. -/
theorem test_txnEraseSpecial :
    ask (.txnEraseSpecial 0xFFFF) (idle true [some 0x79, none, none, none]) =
      some (⟨.transportFailure, .pollBudgetExhausted, none, some .eraseFinal, none⟩, true) ∧
    ask (.txnEraseSpecial 0xFFFE) (idle true [some 0x79, none, some 0x1F]) =
      some (⟨.protocolViolation, .nackNotExpected, some 0x1F, some .eraseFinal, none⟩, false) := by decide

/-- T-30, T-31. -/
theorem test_txnWriteProtect :
    events (.txnWriteProtect [0x00, 0x01]) (idle true [some 0x79, some 0x79]) =
      some [.tx [0x63, 0x9C] .ok, .rx 1 (.ok [0x79]), .tx [0x01, 0x00, 0x01, 0x00] .ok, .rx 1 (.ok [0x79])] ∧
    ask (.txnWriteProtect [0x00, 0x01]) (idle true [some 0x79, none]) =
      some (⟨.transportFailure, .rxFail, none, some .wpPages, none⟩, true) := by decide

/-- T-33. -/
theorem test_txnWriteUnprotect :
    events .txnWriteUnprotect (idle true [some 0x79, some 0x79]) =
      some [.tx [0x73, 0x8C] .ok, .rx 1 (.ok [0x79]), .rx 1 (.ok [0x79])] := by decide

/-- T-34. -/
theorem test_txnReadoutProtect :
    ask .txnReadoutProtect (idle true [some 0x1F]) =
      some (⟨.deviceProtected, .nackGated, some 0x1F, some .cmdGated, none⟩, true) := by decide

/-- T-36. -/
theorem test_txnReadoutUnprotect :
    ask .txnReadoutUnprotect (idle true [some 0x1F]) =
      some (⟨.protocolViolation, .nackNotExpected, some 0x1F, some .cmdUngated, none⟩, false) := by decide

/-! ## Wire rows and other inputs -/

/-- The command frames and the sync byte complete the write of the operation that waits to send them (R87, R88). -/
theorem test_wire_frames :
    (nextOf (exec .wireSync (waiting false .autobaudInit 0))).map (fun t => (t.spc, t.hist)) =
      some (1, [.tx [0x7F] .ok]) ∧
    (nextOf (exec .wireGet (waiting true .txnGet 0))).map (·.spc) = some 1 ∧
    (nextOf (exec .wireGetRps (waiting true .txnGetRps 0))).map (·.spc) = some 1 ∧
    (nextOf (exec .wireGetId (waiting true .txnGetId 0))).map (·.spc) = some 1 ∧
    (nextOf (exec .wireReadMemory (waiting true (.txnReadChunk 0 1) 0))).map (·.spc) = some 1 ∧
    (nextOf (exec .wireWriteMemory (waiting true (.txnWriteChunk 0 [0x01]) 0))).map (·.spc) = some 1 ∧
    (nextOf (exec .wireExtendedErase (waiting true (.txnEraseSpecial 0xFFFF) 0))).map (·.spc) = some 1 ∧
    (nextOf (exec .wireWriteProtect (waiting true (.txnWriteProtect [0x01]) 0))).map (·.spc) = some 1 ∧
    (nextOf (exec .wireWriteUnprotect (waiting true .txnWriteUnprotect 0))).map (·.spc) = some 1 ∧
    (nextOf (exec .wireReadoutProtect (waiting true .txnReadoutProtect 0))).map (·.spc) = some 1 ∧
    (nextOf (exec .wireReadoutUnprotect (waiting true .txnReadoutUnprotect 0))).map (·.spc) = some 1 := by decide

/-- L1-6: NACK at a gated first handshake; an ACK there lets the operation go on. -/
theorem test_wire_responses :
    ask .wireNack (waiting true .txnWriteUnprotect 1) =
      some (⟨.deviceProtected, .nackGated, some 0x1F, some .cmdGated, none⟩, true) ∧
    (nextOf (exec .wireAck (waiting true .txnWriteUnprotect 1))).map (fun t => (t.spc, t.busy)) =
      some (2, true) := by decide

/-- E-1, E-2: an unassigned selector is refused in every state, BUSY or not. -/
theorem test_illegal_selector :
    (nextOf (step { idle false [] with inputs := [.port .request [0x17]] })).map (·.results) =
      some [⟨0x17, ⟨.refused, .illegalOp, some 0x17, none, none⟩⟩] ∧
    (nextOf (step (waiting true .txnGet 0 [.port .request [0x50]]))).map (·.results) =
      some [⟨0x50, ⟨.refused, .illegalOp, some 0x50, none, none⟩⟩] := by decide

/-- E-6, and the three ways a step stops: a session opened while BUSY = 1 is one (R310). -/
theorem test_other_steps :
    (nextOf (step { idle true [] with rxbuf := [0x01], hist := [.rx 1 .fail], inputs := [.newSession] })).map
      (fun t => (t.sync, t.busy, t.hist, t.rxbuf)) = some (false, false, [], []) ∧
    stopOf (step (waiting true .txnGet 3 [.newSession])) = some (.inr .sessionWhileBusy) ∧
    stopOf (step (waiting true .txnGet 1)) = some (.inl .transportSilent) ∧
    stopOf (step { idle false [] with inputs := [.setPollBudget 0] }) = some (.inr .pollBudgetZero) := by decide

/-- S-3, S-8, S-10: the caller's sequences. -/
theorem test_regions :
    regionChunks 257 = [(0, 256), (256, 1)] ∧
    (writeRegion 0x08000002 [0x01, 0x02] none (idle true [])).2 = .finished (.err .misaligned none none) ∧
    (writeRegion 0x08000000 [0x01] none (idle true [some 0x1F])).2 =
      .finished ⟨.deviceProtected, .nackGated, some 0x1F, some .cmdGated, none⟩ ∧
    (readRegion 0x08000000 1 none (idle true [some 0x79, some 0x79, some 0x79, some 0xAA])).2 =
      .finished (.done (some (.data [0xAA]))) := by decide

/-- R253, R254 on the loop both sequences share: stopped after one chunk, and a second chunk that fails. -/
theorem test_stopped_and_failed_runs :
    (runChunks (fun c => .txnWriteChunk (chunkAddr 0x08000000 c.1) [0x01]) [(0, 256), (256, 44)] (some 1)
      (idle true [some 0x79, some 0x79, some 0x79])).2 = .stopped 256 ∧
    (runChunks (fun c => .txnWriteChunk (chunkAddr 0x08000000 c.1) [0x01]) [(0, 256), (256, 44)] none
      (idle true [some 0x79, some 0x79, some 0x79, some 0x1F] [.ok, .ok, .ok, .ok])).2 =
        .failed 256 ⟨.deviceProtected, .nackGated, some 0x1F, some .cmdGated, none⟩ ∧
    readOutcome (.stopped 256) = .stopped ∧
    writeOutcome 0x08000000 (.stopped 256) = .partiallyApplied 256 0x08000100 none := by decide

/-- S-5, S-6 and R8: a region that ends at 2^32, one that passes it, and data of 2^32 bytes. -/
theorem test_region_bounds :
    readRegionCheck 0xFFFFFF00 256 = none ∧ readRegionCheck 0xFFFFFF00 257 = some .range ∧
    readRegionCheck 0 0xFFFFFFFF = none ∧ writeRegionCheck 0 (2 ^ 32 - 1) = none ∧
    writeRegionCheck 0 (2 ^ 32) = some .range := by decide

/-! ## Witnesses: for each statement with hypotheses, states and operands that meet them, clause by clause -/

theorem witness_EncodingReadsBack :
    (Instr.payloadFrame 0xFF [0x00]).WellFormed ∧ channel (.payloadFrame 0xFF [0x00]) = .request ∧
    Instr.wireNack.WellFormed ∧ channel .wireNack = .fromDevice := by
  refine ⟨?_, rfl, trivial, rfl⟩
  simp [Instr.WellFormed, fitsCount]

theorem witness_DecodedBytesAreTheirEncoding :
    decode .request [0x15, 0xFF, 0xFD, 0x30] = some (.specialEraseFrame 0xFFFD, [0x30]) ∧
    decode .toDevice [0x00, 0xFF] = some (.wireGet, []) ∧ decode .fromDevice [0x79] = some (.wireAck, []) := by decide

/-- Selectors next to assigned ones are free; a request of one byte less than its encoding. -/
theorem witness_IllegalRequestRefused :
    (∀ i : Instr, channel i = .request → selector i ≠ 0x17) ∧ (∀ i : Instr, channel i = .request → selector i ≠ 0x4B) ∧
    (∀ i : Instr, channel i = .request → selector i ≠ 0x00) ∧
    (waiting true .txnGet 0 [.port .request [0x17, 0x30]]).inputs = [.port .request (0x17 :: [0x30])] ∧
    (Instr.addrFrame 0x08000100).WellFormed ∧ channel (.addrFrame 0x08000100) = .request ∧
    encode (.addrFrame 0x08000100) = [0x11, 0x08, 0x00, 0x01] ++ [0x00] ∧
    encode (.wpPageFrame []) = [0x16] ++ [0x00, 0x00, 0x00, 0x00] := by
  refine ⟨?_, ?_, ?_, rfl, trivial, rfl, by decide, by decide⟩ <;> intro i hi <;> cases i <;>
    first | (simp [selector]; done) | exact absurd hi (by decide)

theorem witness_StepRunsDecodedInstruction :
    ({ idle false [] with inputs := [.port .request [0x30, 0x40]] } : State).inputs = [.port .request [0x30, 0x40]] ∧
    decode .request [0x30, 0x40] = some (.autobaudInit, [0x40]) := by decide

/-- Built frames at the ends of each operand's range: one of each builder. -/
theorem built_frames :
    Builds (.cmdFrame 0x92) [0x92, 0x6D] ∧ Builds (.cmdFrame 0xFF) [0xFF, 0x00] ∧
    Builds (.lenFrame 1) [0x00, 0xFF] ∧ Builds (.lenFrame 256) [0xFF, 0x00] ∧
    Builds (.addrFrame 0xFFFFFFFF) [0xFF, 0xFF, 0xFF, 0xFF, 0x00] ∧ Builds (.payloadFrame 0x00 [0xAA]) [0x00, 0xAA, 0xAA] ∧
    Builds (.pageListFrame [0xFFFC]) [0x00, 0x00, 0xFF, 0xFC, 0x03] ∧
    Builds (.specialEraseFrame 0xFFFD) [0xFF, 0xFD, 0x02] ∧ Builds (.wpPageFrame [0x05]) [0x00, 0x05, 0x05] :=
  ⟨fun _ => rfl, fun _ => rfl, fun _ => rfl, fun _ => rfl, fun _ => rfl, fun _ => rfl, fun _ => rfl, fun _ => rfl,
    fun _ => rfl⟩

/-- The longest operands each builder accepts (B-30, B-43, B-55). -/
theorem built_longest_frames (n : Nat) :
    (n = 256 → ∃ f, Builds (.payloadFrame 0xFF (List.replicate n 0)) f) ∧
    (n = 65532 → ∃ f, Builds (.pageListFrame (List.replicate n 0)) f) ∧
    (n = 256 → ∃ f, Builds (.wpPageFrame (List.replicate n 0)) f) := by
  refine ⟨fun h => ⟨_, builds_payloadFrame.2 ⟨?_, rfl⟩⟩, fun h => ⟨_, builds_pageListFrame.2 ⟨?_, rfl⟩⟩,
    fun h => ⟨_, builds_wpPageFrame.2 ⟨?_, rfl⟩⟩⟩
  · rw [List.length_replicate]; omega
  · rw [List.length_replicate]
    exact ⟨by omega, by omega, fun x hx => by rw [List.eq_of_mem_replicate hx]; decide⟩
  · rw [List.length_replicate]; omega

theorem witness_BuiltFramesCheckAndHaveTheirLength :
    Builds (.cmdFrame 0x92) [0x92, 0x6D] ∧ Builds (.lenFrame 256) [0xFF, 0x00] ∧
    Builds (.addrFrame 0xFFFFFFFF) [0xFF, 0xFF, 0xFF, 0xFF, 0x00] ∧ Builds (.payloadFrame 0x00 [0xAA]) [0x00, 0xAA, 0xAA] ∧
    Builds (.pageListFrame [0xFFFC]) [0x00, 0x00, 0xFF, 0xFC, 0x03] ∧
    Builds (.specialEraseFrame 0xFFFD) [0xFF, 0xFD, 0x02] ∧ Builds (.wpPageFrame [0x05]) [0x00, 0x05, 0x05] :=
  ⟨fun _ => rfl, fun _ => rfl, fun _ => rfl, fun _ => rfl, fun _ => rfl, fun _ => rfl, fun _ => rfl⟩

/-- The first and the last byte and bit of a frame; a complement pair. -/
theorem witness_SingleBitFlipChangesChecksum :
    let f : List Byte := [0x08, 0x00, 0x00, 0x00, 0x08]
    (0 < f.length ∧ 4 < f.length ∧ 7 < 8 ∧ xorfold f = 0x00) ∧ (0x3F : Byte) ^^^ 0xC0 = 0xFF ∧ 0 ≠ 4 := by decide

theorem witness_DecodersReadBuiltFrames :
    Builds (.cmdFrame 0x92) [0x92, 0x6D] ∧ (0x92 : Byte) ∈ commandSet ∧ Builds (.cmdFrame 0xFF) [0xFF, 0x00] ∧
    (0xFF : Byte) ∉ commandSet ∧ Builds (.addrFrame 0xFFFFFFFF) [0xFF, 0xFF, 0xFF, 0xFF, 0x00] ∧
    Builds (.lenFrame 1) [0x00, 0xFF] ∧ Builds (.lenFrame 256) [0xFF, 0x00] ∧
    Builds (.payloadFrame 0x00 [0xAA]) [0x00, 0xAA, 0xAA] ∧ Builds (.payloadFrame 0x05 [0x01]) [0x05, 0x01, 0x04] ∧
    Builds (.pageListFrame [0xFFFC]) [0x00, 0x00, 0xFF, 0xFC, 0x03] ∧
    Builds (.specialEraseFrame 0xFFFD) [0xFF, 0xFD, 0x02] ∧ Builds (.wpPageFrame [0x05]) [0x00, 0x05, 0x05] :=
  ⟨fun _ => rfl, by decide, fun _ => rfl, by decide, fun _ => rfl, fun _ => rfl, fun _ => rfl, fun _ => rfl,
    fun _ => rfl, fun _ => rfl, fun _ => rfl, fun _ => rfl⟩

/-- Frames each decoder returns a value for (V-11, V-22, V-18, V-26, V-30, V-36), and a frame of each builder. -/
theorem witness_DecodersAcceptOnlyBuiltFrames :
    Answers (.decodeCmdFrame [0x44, 0xBB]) ⟨.ok, .none, none, none, some (.command 0x44)⟩ ∧
    Answers (.decodeAddrFrame [0xFF, 0xFF, 0xFF, 0xFF, 0x00]) ⟨.ok, .none, none, none, some (.address 0xFFFFFFFF)⟩ ∧
    Answers (.decodeLenFrame [0xFF, 0x00]) ⟨.ok, .none, none, none, some (.count 256)⟩ ∧
    Answers (.decodePayloadFrame [0x05, 0x01, 0x04]) ⟨.ok, .none, none, none, some (.payload 0x05 [0x01] false)⟩ ∧
    Answers (.decodePageListFrame [0x00, 0x00, 0xFF, 0xFC, 0x03]) ⟨.ok, .none, none, none, some (.pages [0xFFFC])⟩ ∧
    Answers (.decodeSpecialEraseFrame [0xFF, 0xFD, 0x02]) ⟨.ok, .none, none, none, some (.code 0xFFFD)⟩ ∧
    Builds (.wpPageFrame [0x05]) [0x00, 0x05, 0x05] :=
  ⟨fun _ => rfl, fun _ => rfl, fun _ => rfl, fun _ => rfl, fun _ => rfl, fun _ => rfl, fun _ => rfl⟩

/-- A flip in the first and in the last byte of a frame of each decoder. -/
theorem witness_DecodersReportSingleBitCorruption :
    Builds (.pageListFrame [0xFFFC]) [0x00, 0x00, 0xFF, 0xFC, 0x03] ∧ 1 < 5 ∧ 2 < 5 ∧ 4 < 5 ∧ 7 < 8 ∧
    Builds (.cmdFrame 0x92) [0x92, 0x6D] ∧ Builds (.lenFrame 256) [0xFF, 0x00] ∧
    Builds (.addrFrame 0xFFFFFFFF) [0xFF, 0xFF, 0xFF, 0xFF, 0x00] ∧ Builds (.payloadFrame 0x00 [0xAA]) [0x00, 0xAA, 0xAA] ∧
    Builds (.specialEraseFrame 0xFFFD) [0xFF, 0xFD, 0x02] :=
  ⟨fun _ => rfl, by decide, by decide, by decide, by decide, fun _ => rfl, fun _ => rfl, fun _ => rfl, fun _ => rfl,
    fun _ => rfl⟩

theorem witness_ResponseByteOutcomes :
    let s := waiting true (.txnEraseSpecial 0xFFFF) 3 [.port .fromDevice [0x78]]
    let t := waiting true .txnWriteUnprotect 2 [.port .fromDevice [0x00]]
    ((0x78 : Byte) ≠ 0x79 ∧ (0x78 : Byte) ≠ 0x1F ∧ s.rxq = [] ∧ s.currentStep = some (.poll .eraseFinal) ∧
      s.inputs = [.port .fromDevice [0x78]]) ∧
    t.rxq = [] ∧ t.currentStep = some (.ack .trail) ∧ t.inputs = [.port .fromDevice [0x00]] := by decide

theorem witness_InitOutcomes :
    (waiting false .autobaudInit 0).busy = true ∧ Ready true [.ok] [] (idle true [] [.ok]) ∧
    Ready false [.fail] [] (idle false [] [.fail]) ∧ Ready false [.ok] [none] (idle false [none] [.ok]) ∧
    (Ready false [.ok] [some 0x78] (idle false [some 0x78] [.ok]) ∧ (0x78 : Byte) ≠ 0x79) ∧
    (Ready false [.ok] [some 0x1F] (idle false [some 0x1F] [.ok]) ∧ (0x1F : Byte) ≠ 0x79) ∧
    Ready false [.ok] [some 0x79] (idle false [some 0x79] [.ok]) := by decide

theorem witness_SendCommandOutcomes :
    (waiting true .txnGet 0).busy = true ∧ Ready false [.ok] [] (idle false [] [.ok]) ∧
    (Ready true [.ok] [] (idle true [] [.ok]) ∧ (0x03 : Byte) ∉ commandSet) ∧ (0x00 : Byte) ∈ commandSet ∧
    (0x92 : Byte) ∈ commandSet ∧ Ready true [.fail] [] (idle true [] [.fail]) ∧
    Ready true [.ok] [none] (idle true [none] [.ok]) ∧ Ready true [.ok] [some 0x78] (idle true [some 0x78] [.ok]) ∧
    Ready true [.ok] [some 0x79] (idle true [some 0x79] [.ok]) := by decide

theorem witness_AwaitAckOutcomes :
    (waiting true .txnGet 0).busy = true ∧ Ready false [] [] (idle false [] []) ∧ Ready true [] [none] (idle true [none] []) ∧
    Ready true [] [some 0x1F] (idle true [some 0x1F] []) ∧ Ready true [] [some 0x1E] (idle true [some 0x1E] []) := by
  decide

theorem witness_SendFrameOutcomes :
    (waiting true .txnGet 0).busy = true ∧ Ready false [] [] (idle false [] []) ∧ Ready true [] [] (idle true [] []) ∧
    ([0x00] : List Byte) ≠ [] ∧ Ready true [.fail] [] (idle true [] [.fail]) ∧
    Ready true [.ok] [] (idle true [] [.ok]) := by decide

/-- The last failed read the budget allows before a byte, none at all, the one that exhausts it, and a budget of 1. -/
theorem witness_PollAwaitAckOutcomes :
    let s := idle true [none, none, some 0x79]
    let t := idle true [none, none, none]
    let u : State := { idle true [none] with pollBudget := 1 }
    (waiting true .txnGet 0).busy = true ∧ Ready false [] [] (idle false [] []) ∧
    (Ready true [.ok, .ok, .ok] (List.replicate 2 none ++ some 0x79 :: []) s ∧ 2 < s.pollBudget) ∧
    (Ready true [] (List.replicate 0 none ++ some 0x00 :: []) (idle true [some 0x00] []) ∧ 0 < s.pollBudget) ∧
    (Ready true [.ok, .ok, .ok] (List.replicate t.pollBudget none ++ []) t ∧ 1 ≤ t.pollBudget) ∧
    (Ready true [.ok, .ok, .ok] (List.replicate u.pollBudget none ++ []) u ∧ 1 ≤ u.pollBudget) := by decide

theorem witness_LinkOperationsRefusedByFlags :
    isLinkOp (.txnWriteChunk 0x08000001 []) = true ∧ isLinkOp .autobaudInit = true ∧
    (waiting true .txnGet 0).busy = true ∧ ((idle true []).busy = false ∧ (idle true []).sync = true) ∧
    (idle false []).busy = false ∧ (idle false []).sync = false ∧ Instr.txnWriteChunk 0x08000001 [] ≠ .autobaudInit := by
  decide

/-- Each check at the edge it fails at: 0, 257, 65537, 65533; an address off by one; a page and a code at the sentinels'
edge. -/
theorem witness_TransactionArgumentsCheckedBeforeTheLink (n : Nat) :
    ((idle true []).busy = false ∧ (idle true []).sync = true) ∧ ((0 : U32).toNat < 1 ∧ (257 : U32).toNat > 256) ∧
    (0xFFFFFFFF : U32).toNat % 4 ≠ 0 ∧ ((0xFFFFFFFC : U32).toNat % 4 = 0 ∧ ([] : List Byte).length < 1) ∧
    (n = 257 → (List.replicate n (0 : Byte)).length > 256) ∧ ([] : List U16).length = 0 ∧
    (n = 65537 → (List.replicate n (0 : U16)).length > 65536) ∧
    (n = 65533 ∨ n = 65536 → 1 ≤ (List.replicate n (0 : U16)).length ∧ (List.replicate n (0 : U16)).length ≤ 65536 ∧
      65533 ≤ (List.replicate n (0 : U16)).length) ∧
    (∃ p ∈ ([0x0000, 0xFFFD] : List U16), p = 0xFFFF ∨ p = 0xFFFE ∨ p = 0xFFFD) ∧
    ((0xFFFC : U16) ≠ 0xFFFF ∧ (0xFFFC : U16) ≠ 0xFFFE ∧ (0xFFFC : U16) ≠ 0xFFFD) := by
  simp only [List.length_replicate]
  refine ⟨by decide, by decide, by decide, by decide, by omega, by decide, by omega, by omega, by decide, by decide⟩

theorem witness_TxnGetCompletes :
    let s := idle true [some 0x79, some 0x02, some 0x31, some 0x00, some 0x79]
    let t := idle true [some 0x79, some 0x01, some 0x31, some 0x79]
    let u := idle true [some 0x79, some 0x00]
    (s.busy = false ∧ s.sync = true ∧ s.txq = .ok :: [.ok, .ok] ∧ (0x02 : Byte).toNat = ([0x00] : List Byte).length + 1 ∧
      s.rxq = some 0x79 :: some 0x02 :: some 0x31 :: (([0x00] : List Byte).map some ++ some 0x79 :: [])) ∧
    ((0x01 : Byte).toNat = ([] : List Byte).length + 1 ∧
      t.rxq = some 0x79 :: some 0x01 :: some 0x31 :: (([] : List Byte).map some ++ some 0x79 :: [])) ∧
    u.rxq = some 0x79 :: some 0x00 :: [] := by decide

theorem witness_TxnGetRpsCompletes :
    let s := idle true [some 0x79, some 0x10, some 0x01, some 0x02, some 0x79]
    s.busy = false ∧ s.sync = true ∧ s.txq = .ok :: [.ok, .ok] ∧
    s.rxq = some 0x79 :: some 0x10 :: some 0x01 :: some 0x02 :: some 0x79 :: [] := by decide

theorem witness_TxnGetIdCompletes :
    let s := idle true [some 0x79, some 0x00, some 0x42, some 0x79]
    s.busy = false ∧ s.sync = true ∧ s.txq = .ok :: [.ok, .ok] ∧ ([0x42] : List Byte).length = (0x00 : Byte).toNat + 1 ∧
    s.rxq = some 0x79 :: some 0x00 :: (([0x42] : List Byte).map some ++ some 0x79 :: []) := by decide

/-- One byte, and the longest chunk. -/
theorem witness_TxnReadChunkCompletes (n : Nat) :
    let s := idle true [some 0x79, some 0x79, some 0x79, some 0xAA]
    (s.busy = false ∧ s.sync = true ∧ 1 ≤ (1 : U32).toNat ∧ (1 : U32).toNat ≤ 256 ∧
      ([0xAA] : List Byte).length = (1 : U32).toNat ∧ s.txq = .ok :: .ok :: .ok :: [] ∧
      s.rxq = some 0x79 :: some 0x79 :: some 0x79 :: (([0xAA] : List Byte).map some ++ [])) ∧
    ((256 : U32).toNat ≤ 256 ∧ (n = 256 → (List.replicate n (0 : Byte)).length = (256 : U32).toNat)) := by
  rw [List.length_replicate]
  exact ⟨by decide, by decide, fun h => h⟩

/-- The last aligned address with one byte, and the longest chunk. -/
theorem witness_TxnWriteChunkCompletes (n : Nat) :
    let s := idle true [some 0x79, some 0x79, some 0x79]
    (s.busy = false ∧ s.sync = true ∧ (0xFFFFFFFC : U32).toNat % 4 = 0 ∧ 1 ≤ ([0xAA] : List Byte).length ∧
      ([0xAA] : List Byte).length ≤ 256 ∧ s.txq = .ok :: .ok :: .ok :: [] ∧
      s.rxq = some 0x79 :: some 0x79 :: some 0x79 :: []) ∧
    (n = 256 → (List.replicate n (0 : Byte)).length ≤ 256) := by
  rw [List.length_replicate]
  exact ⟨by decide, by omega⟩

/-- Both erases; the last failed read the budget allows, none, and the one that exhausts it. -/
theorem witness_TxnErasesComplete :
    let s := idle true [some 0x79, none, none, some 0x79]
    let t := idle true [some 0x79, some 0x79]
    let u := idle true [some 0x79, none, none, none]
    Builds (.pageListFrame [0xFFFC]) [0x00, 0x00, 0xFF, 0xFC, 0x03] ∧ Builds (.specialEraseFrame 0xFFFD) [0xFF, 0xFD, 0x02] ∧
    (s.busy = false ∧ s.sync = true ∧ s.txq = .ok :: .ok :: [.ok] ∧ 2 < s.pollBudget ∧
      s.rxq = some 0x79 :: (List.replicate 2 none ++ some 0x79 :: [])) ∧
    t.rxq = some 0x79 :: (List.replicate 0 none ++ some 0x79 :: []) ∧
    (1 ≤ u.pollBudget ∧ u.rxq = some 0x79 :: (List.replicate u.pollBudget none ++ [])) :=
  ⟨fun _ => rfl, fun _ => rfl, by decide, by decide, by decide⟩

theorem witness_TxnWriteProtectCompletes (n : Nat) :
    let s := idle true [some 0x79, some 0x79]
    (s.busy = false ∧ s.sync = true ∧ 1 ≤ ([0x00] : List Byte).length ∧ ([0x00] : List Byte).length ≤ 256 ∧
      s.txq = .ok :: .ok :: [.ok] ∧ s.rxq = some 0x79 :: some 0x79 :: []) ∧
    (n = 256 → (List.replicate n (0 : Byte)).length ≤ 256) := by
  rw [List.length_replicate]
  exact ⟨by decide, by omega⟩

theorem witness_ProtectionTogglesComplete :
    let s := idle true [some 0x79, some 0x79]
    s.busy = false ∧ s.sync = true ∧ s.txq = .ok :: [.ok, .ok] ∧ s.rxq = some 0x79 :: some 0x79 :: [] := by decide

/-- A gated and an ungated command. -/
theorem witness_FirstHandshakeNack :
    let s := idle true [some 0x1F]
    s.busy = false ∧ s.sync = true ∧ s.txq = .ok :: [.ok, .ok] ∧ s.rxq = some 0x1F :: [] ∧
    Admissible (.txnReadChunk 0 1) ∧ Admissible (.txnErasePages [0xFFFC]) ∧ Admissible .txnGet := by
  refine ⟨rfl, rfl, rfl, rfl, ?_, ?_, trivial⟩ <;> simp [Admissible]

/-- Each row of R211: a state that waits at the site. -/
theorem witness_NackMeaningPerSite :
    (waiting true .txnWriteUnprotect 1).currentStep = some (.ack .cmdGated) ∧
    (waiting true .txnGet 1).currentStep = some (.ack .cmdUngated) ∧
    (waiting true (.txnReadChunk 0 1) 3).currentStep = some (.ack .addr) ∧
    (waiting true (.txnReadChunk 0 1) 5).currentStep = some (.ack .len) ∧
    (waiting true (.txnWriteChunk 0 [0x00]) 5).currentStep = some (.ack .payload) ∧
    (waiting true (.txnEraseSpecial 0xFFFF) 3).currentStep = some (.poll .eraseFinal) ∧
    (waiting true (.txnWriteProtect [0x00]) 3).currentStep = some (.ack .wpPages) ∧
    (waiting true .txnWriteUnprotect 2).currentStep = some (.ack .trail) ∧
    (waiting true .txnGet 1).rxq = [] ∧ (idle true []).busy = false ∧
    (waiting false .autobaudInit 1).currentStep = some .initAck ∧ (waiting false .autobaudInit 1).rxq = [] ∧
    (waiting true (.sendCommand 0x92) 1).currentStep = some .response ∧
    (waiting true .awaitAck 0).currentStep = some .response ∧
    (waiting true .pollAwaitAck 0).currentStep = some .pollResponse := by decide

/-- A block that waits at a step for the oracle has the invariant. -/
theorem waiting_inv {i : Instr} {k : Nat} {m : Micro} {inputs : List Input} {sync : Bool} (ha : Admissible i)
    (hs : sync = false ↔ i = .autobaudInit) (hm : (planOf i).steps[k]? = some m)
    (hw : perform m (waiting sync i k inputs) = .waiting (waiting sync i k inputs)) : (waiting sync i k inputs).Inv where
  pollBudget_pos := by show 1 ≤ 3; decide
  idle h := by simp [waiting] at h
  inFlight _ := ⟨i, rfl, ha, rfl⟩
  spc_inRange j _ hj := by
    obtain rfl : i = j := by simpa [waiting] using hj
    exact (List.getElem?_eq_some_iff.1 hm).1
  syncDuty j _ hj := by
    obtain rfl : i = j := by simpa [waiting] using hj
    exact hs
  starved n hn := by
    obtain rfl : m = n := by simpa [State.currentStep, waiting, hm] using hn
    exact hw
  attempts _ _ _ := by show 0 < 3; decide
  budget_pos _ := by show 1 ≤ 3; decide
  hist_wf e he := by simp [waiting, State.reset] at he
  results_wf a h := by simp [waiting, State.reset] at h

/-- A handshake with a step after it, and a last one. -/
theorem witness_AckCompletesHandshake :
    (waiting true .txnWriteUnprotect 1).Inv ∧ (waiting true .txnWriteUnprotect 2).Inv ∧
    (waiting true .txnWriteUnprotect 1).currentStep = some (.ack .cmdGated) ∧
    1 + 1 < (planOf .txnWriteUnprotect).steps.length ∧
    (waiting true .txnWriteUnprotect 2).currentStep = some (.ack .trail) ∧
    2 + 1 = (planOf .txnWriteUnprotect).steps.length ∧ (waiting true .txnWriteUnprotect 1).busy = true ∧
    (waiting true .txnWriteUnprotect 1).cur = some .txnWriteUnprotect ∧ (waiting true .txnWriteUnprotect 1).rxq = [] ∧
    (waiting true .txnWriteUnprotect 1).txq = [] ∧ (idle true []).busy = false ∧
    ((waiting false .autobaudInit 1).rxq = [] ∧ (waiting false .autobaudInit 1).busy = true ∧
      (waiting false .autobaudInit 1).cur = some .autobaudInit ∧ (waiting false .autobaudInit 1).spc = 1) ∧
    (waiting true .awaitAck 0).rxq = [] ∧ (waiting true .awaitAck 0).currentStep = some .response ∧
    (waiting true .pollAwaitAck 0).currentStep = some .pollResponse :=
  ⟨waiting_inv (m := .ack .cmdGated) trivial (by decide) rfl rfl, waiting_inv (m := .ack .trail) trivial (by decide) rfl rfl,
    by decide, by decide, by decide, by decide, rfl, rfl, rfl, rfl, rfl, by decide, rfl, by decide, by decide⟩

theorem witness_CommandFramePassesOnLink :
    (waiting true .txnGet 1).writing ≠ some [0x00, 0xFF] ∧ (waiting true .txnGet 0).busy = true ∧
    (waiting true .txnGet 0).cur = some .txnGet ∧ (waiting true .txnGet 0).spc = 0 ∧
    (waiting true .txnGet 0).txq = [] ∧ (waiting true .txnGet 0).rxq = [] ∧
    (waiting false .autobaudInit 0).cur = some .autobaudInit ∧
    (waiting true (.sendCommand 0x92) 0).cur = some (.sendCommand 0x92) := by decide

/-- A write, an acknowledgment, a length byte, a data read, a response and INIT's answer that are waited for. -/
theorem witness_TransportFailureEndsOperation :
    (waiting true .txnGet 0 [.txAnswer .fail]).currentStep = some (.tx [0x00, 0xFF] (some .cmdUngated)) ∧
    (waiting true .txnGet 1 [.readFails]).currentStep = some (.ack .cmdUngated) ∧
    (waiting true .txnGet 2 [.readFails]).currentStep = some .len ∧
    (waiting true .txnGet 4 [.readFails]).currentStep = some (.data (.fixed 1)) ∧
    (DataCount.fixed 1).bytes (waiting true .txnGet 4 [.readFails]) ≠ 0 ∧
    (waiting true .awaitAck 0 [.readFails]).currentStep = some .response ∧
    (waiting false .autobaudInit 1 [.readFails]).currentStep = some .initAck ∧
    (waiting true .txnGet 0 [.txAnswer .fail]).txq = [] ∧ (waiting true .txnGet 1 [.readFails]).rxq = [] ∧
    (waiting true .txnGet 0 [.txAnswer .fail]).inputs = [.txAnswer .fail] ∧
    (waiting true .txnGet 1 [.readFails]).inputs = [.readFails] := by decide

theorem witness_WithheldAnswerLeavesOperationInFlight :
    (Admissible .txnGet ∧ Admissible .autobaudInit ∧ (idle true [] []).busy = false ∧
      ((idle true [] []).sync = false ↔ Instr.txnGet = .autobaudInit) ∧
      ((idle false [] []).sync = false ↔ Instr.autobaudInit = .autobaudInit) ∧ (idle true [] []).txq = [] ∧
      (idle true [] []).rxq = []) ∧
    ((waiting true .txnGet 1).inputs = [] ∧ (waiting true .txnGet 1).busy = true) ∧
    (idle true []).inputs = [] ∧ (idle true []).busy = false :=
  ⟨⟨trivial, trivial, rfl, by decide, by decide, rfl, rfl⟩, by decide, by decide⟩

/-- A late byte, a late failed read and a late answer to a write, each of which an operation waits for. -/
theorem witness_LateAnswersLeadToTheSameState :
    channel .awaitAck = .request ∧ (idle true [] []).busy = false ∧
    (∃ t, exec .awaitAck { idle true [] [] with inputs := [.port .fromDevice [0x79]] } = .next t ∧ t.busy = true) ∧
    (∃ t, exec .pollAwaitAck { idle true [] [] with inputs := [.readFails] } = .next t ∧ t.busy = true) ∧
    (∃ t, exec .txnGet { idle true [] [] with inputs := [.txAnswer .ok] } = .next t ∧ t.busy = true) :=
  ⟨rfl, rfl, ⟨_, rfl, rfl⟩, ⟨_, rfl, rfl⟩, ⟨_, rfl, rfl⟩⟩

/-- A violation by a byte that is no row of the table, which clears SYNC; INIT set by a late ACK and by one held before;
and the same on single instructions. -/
theorem witness_SyncFollowsResults :
    (∃ t a, step (waiting true .awaitAck 0 [.port .fromDevice [0x00]]) = .next t ∧
      (waiting true .awaitAck 0).sync = true ∧ t.sync = false ∧ t.results = [] ++ [a] ∧
      a.result.status = .protocolViolation) ∧
    (∃ t, step (waiting false .autobaudInit 1 [.port .fromDevice [0x79]]) = .next t ∧
      (waiting false .autobaudInit 1).sync = false ∧ t.sync = true) ∧
    (∀ rest, (waiting true .awaitAck 0 [.port .fromDevice [0x00]]).inputs ≠ .newSession :: rest) ∧
    (∃ t, exec .autobaudInit (idle false [some 0x79]) = .next t ∧ t.sync = true) ∧
    (∃ t, exec .awaitAck (idle true [some 0x00]) = .next t ∧ t.sync = false) :=
  ⟨⟨_, _, rfl, rfl, rfl, rfl, rfl⟩, ⟨_, rfl, rfl, rfl⟩, by simp [waiting], ⟨_, rfl, rfl⟩, ⟨_, rfl, rfl⟩⟩

theorem witness_StepKeepsBlockInvariant :
    (waiting true .txnGet 1 [.port .fromDevice [0x1F]]).Inv ∧
    ∃ t, step (waiting true .txnGet 1 [.port .fromDevice [0x1F]]) = .next t :=
  ⟨waiting_inv (m := .ack .cmdUngated) trivial (by decide) rfl rfl, _, rfl⟩

/-- INIT waiting to write the sync byte, on an empty history. -/
theorem witness_NoFrameReachesLinkBeforeInit :
    let s := waiting false .autobaudInit 0 [.port .toDevice [0x7F]]
    s.Inv ∧ s.LinkSafe ∧ ∃ t, step s = .next t := by
  refine ⟨waiting_inv (m := .tx [0x7F] none) trivial (by decide) rfl rfl, ⟨?_, ?_, ?_⟩, _, rfl⟩
  · intro before frame o after h
    simp [waiting, State.reset] at h
  · simp [waiting]
  · simp [waiting]

theorem witness_HistoryOnlyGrows :
    (∃ t, step (waiting true .txnGet 1 [.port .fromDevice [0x79]]) = .next t) ∧
    ∀ rest, (waiting true .txnGet 1 [.port .fromDevice [0x79]]).inputs ≠ .newSession :: rest :=
  ⟨⟨_, rfl⟩, by simp [waiting]⟩

theorem witness_NothingFollowsFailedWrite :
    ∃ t, step (waiting true .txnGet 0 [.txAnswer .fail]) = .next t ∧
      t.hist = (waiting true .txnGet 0).hist ++ ([] ++ .tx [0x00, 0xFF] .fail :: []) := ⟨_, rfl, rfl⟩

/-- The first frame of a transaction, with nothing before it, and a later one, with two events before it. -/
theorem witness_FramesFollowAcknowledgments :
    isTransaction (.txnEraseSpecial 0xFFFF) = true ∧ (idle true [some 0x79]).busy = false ∧
    (idle true [some 0x79]).hist = [] ∧
    (∃ t, exec (.txnEraseSpecial 0xFFFF) (idle true [some 0x79]) = .next t) ∧
    events (.txnEraseSpecial 0xFFFF) (idle true [some 0x79]) =
      some [.tx [0x44, 0xBB] .ok, .rx 1 (.ok [0x79]), .tx [0xFF, 0xFF, 0x00] .ok] :=
  ⟨rfl, rfl, rfl, ⟨_, rfl⟩, by decide⟩

theorem witness_IdleMicroStateIsUnreadable :
    (idle true [some 0x79]).busy = false ∧ ∃ t, exec .txnGet (idle true [some 0x79]) = .next t := ⟨rfl, _, rfl⟩

theorem witness_PollBudgetChangeNotSeenInFlight :
    1 ≤ 1 ∧ (waiting true .pollAwaitAck 0 [.setPollBudget 1]).inputs = [.setPollBudget 1] := by decide

theorem witness_CtrlstatIsAReadOnlyView :
    (waiting true .txnGet 0 [.writeCtrlstat 0xFF]).inputs = [.writeCtrlstat 0xFF] ∧
    (waiting true .txnGet 0).ctrlstat = 0x03 := by decide

theorem witness_BlockResetValues :
    (({ idle true [] with inputs := [.newSession] } : State).inputs = [.newSession] ∧ (idle true []).busy = false) ∧
    ((waiting true .txnGet 1 [.newSession]).inputs = [.newSession] ∧ (waiting true .txnGet 1).busy = true) ∧
    (waiting true .txnWriteUnprotect 1 [.port .fromDevice [0x79]]).Inv ∧
    (∃ t, step (waiting true .txnWriteUnprotect 1 [.port .fromDevice [0x79]]) = .next t ∧ t.busy = true) ∧
    (∃ t, step (waiting true .txnWriteUnprotect 1 [.port .fromDevice [0x1F]]) = .next t ∧ t.busy = false) ∧
    (waiting true .txnWriteUnprotect 1 [.port .fromDevice [0x1F]]).Inv :=
  ⟨by decide, by decide, waiting_inv (m := .ack .cmdGated) trivial (by decide) rfl rfl, ⟨_, rfl, rfl⟩, ⟨_, rfl, rfl⟩,
    waiting_inv (m := .ack .cmdGated) trivial (by decide) rfl rfl⟩

/-- The edges of the chunk counts, of the region's end and of its length; a chunk that succeeds, one that fails, and a
region of two chunks (one byte over the limit) for a stop after the first. -/
theorem witness_RegionChunkSequence (n : Nat) :
    (0 < (1 + 255) / 256 ∧ 1 < (257 + 255) / 256 ∧ 512 % 256 = 0) ∧
    ((0xFFFFFFFF : U32).toNat + 256 * 0 < 2 ^ 32 ∧ 256 ≤ 256) ∧
    ((0xFFFFFF00 : U32).toNat + (257 : U32).toNat > 2 ^ 32 ∧ (0xFFFFFF00 : U32).toNat + (256 : U32).toNat ≤ 2 ^ 32 ∧
      (256 : U32) ≠ 0) ∧
    (∃ t rs, ChunksDone (readChunk 0x08000000) (regionChunks (1 : U32).toNat)
      (idle true [some 0x79, some 0x79, some 0x79, some 0xAA]) t rs ∧ (regionChunks (1 : U32).toNat).length ≤ 0 + 1) ∧
    (∃ t r, regionChunks (1 : U32).toNat = [] ++ (0, 1) :: [] ∧
      callBlock (readChunk 0x08000000 (0, 1)) (idle true [some 0x1F]) = (t, some r) ∧ r.status ≠ .ok) ∧
    (∃ t rs, ChunksDone (writeChunk 0x08000000 [0xAA]) (regionChunks [(0xAA : Byte)].length)
      (idle true [some 0x79, some 0x79, some 0x79]) t rs) ∧
    (∃ t r, callBlock (writeChunk 0x08000000 [0xAA] (0, 1)) (idle true [some 0x1F]) = (t, some r) ∧ r.status ≠ .ok) ∧
    (regionChunks 257 = [(0, 256)] ++ (256, 1) :: [] ∧ [((0, 256) : Nat × Nat)].length = 0 + 1) ∧
    (n = 2 ^ 32 → 2 ^ 32 ≤ (List.replicate n (0xAA : Byte)).length) := by
  rw [List.length_replicate]
  exact ⟨by decide, by decide, by decide, ⟨_, _, .cons rfl rfl (.nil _), by decide⟩, ⟨_, _, by decide, rfl, by decide⟩,
    ⟨_, _, .cons rfl rfl (.nil _)⟩, ⟨_, _, rfl, by decide⟩, by decide, fun h => h.ge⟩

set_option maxRecDepth 20000 in
/-- A first chunk of 256 bytes that succeeds, for a stop or a failure at the second, in a read and in a write. -/
theorem witness_first_chunk_of_two :
    (∃ u rs, ChunksDone (readChunk 0x08000000) [(0, 256)]
      (idle true ([some 0x79, some 0x79, some 0x79] ++ List.replicate 256 (some 0x00))) u rs) ∧
    (∃ u rs, ChunksDone (writeChunk 0x08000000 (List.replicate 257 0xAA)) [(0, 256)]
      (idle true [some 0x79, some 0x79, some 0x79]) u rs) :=
  ⟨⟨_, _, .cons rfl rfl (.nil _)⟩, ⟨_, _, .cons rfl rfl (.nil _)⟩⟩

end Sys2Proof.Tests
end

/-! # Proofs: 00_scope.md -/

section

namespace Sys2Proof.Proofs

open Sys2Proof.Machine

/-- Settles O6: the recurrence is the fold over an append with one byte at its end, and the frame is what the address
builder's equation `builds_addrFrame` gives for 0x08000000. -/
theorem xorFoldRecurrence : Obligations.XorFoldRecurrence := by
  refine ⟨xorfold_nil, fun s b => ?append, builds_addrFrame.mpr ?frame⟩
  case append =>
    have single : xorfold [b] = b := by simp
    rw [xorfold_append, single]
  case frame => decide

end Sys2Proof.Proofs

end

/-! # Proofs: 10_state.md -/

section

namespace Sys2Proof.Proofs

open Sys2Proof.Machine

/-! ## What a step can do

Every whole-machine statement below goes through `step_moves`: a step is a block reset, or one of the moves. -/

/-- What a step that is no block reset does once its input is taken; `next` is the instruction the input spells. -/
inductive Moves (next : Option Instr) (s : State) : State → Prop
  | stays : Moves next s s
  | configures (n : Nat) (hn : 1 ≤ n) : Moves next s { s with pollBudget := n }
  | answers (opsel : Byte) (r : Result) (hr : r.Plain) : Moves next s (s.answer opsel r)
  | runs (i : Instr) (hi : next = some i) (hb : s.busy = false) (hs : s.sync = false ↔ i = .autobaudInit)
      (ha : Admissible i) : Moves next s (runSteps (planOf i).kind (planOf i).steps (s.accept i))
  | goesOn (a : List TxOutcome) (b : List (Option Byte)) : Moves next s (s.more a b).resume

theorem txAnswered_eq_more (o : TxOutcome) (s : State) : s.txAnswered o = (s.more [o] []).resume := by
  simp [State.txAnswered, State.more]

theorem bytesArrive_eq_more (bs : List Byte) (s : State) : s.bytesArrive bs = (s.more [] (bs.map some)).resume := by
  simp [State.bytesArrive, State.more]

theorem readFails_eq_more (s : State) : s.readFails = (s.more [] [none]).resume := by
  simp [State.readFails, State.more]

theorem txAnswered_moves (next : Option Instr) (o : TxOutcome) (s : State) : Moves next s (s.txAnswered o) := by
  rw [txAnswered_eq_more]; exact .goesOn _ _

theorem bytesArrive_moves (next : Option Instr) (bs : List Byte) (s : State) : Moves next s (s.bytesArrive bs) := by
  rw [bytesArrive_eq_more]; exact .goesOn _ _

theorem readFails_moves (next : Option Instr) (s : State) : Moves next s s.readFails := by
  rw [readFails_eq_more]; exact .goesOn _ _

theorem frameSent_moves (next : Option Instr) (f : List Byte) (s : State) : Moves next s (s.frameSent f) := by
  unfold State.frameSent
  split
  · exact txAnswered_moves next .ok s
  · exact .stays

theorem illegalRequest_moves (next : Option Instr) (bs : List Byte) (s : State) :
    Moves next s (s.illegalRequest bs) := by
  rcases illegalRequest_cases bs s with e | ⟨op, e⟩ <;> rw [e]
  · exact .stays
  · exact .answers op _ (reason_plain (by simp [Reason.status]) (by simp))

theorem exec_moves {i : Instr} {s t : State} (h : exec i s = .next t) : Moves (some i) s t := by
  cases exec_next h with
  | answers r hr _ => exact .answers _ r hr
  | runs hb hs ha => exact .runs i rfl hb hs ha
  | sends f _ => exact frameSent_moves _ f s
  | receives bs _ => exact bytesArrive_moves _ bs s

/-- An input that spells no instruction and is no new session. -/
theorem outside_moves {inp : Input} {s t : State} (hn : inp ≠ .newSession) (h : outside inp s = .next t) :
    Moves none s t := by
  cases inp <;> simp only [outside] at h
  case port c bs =>
    cases c <;> cases h
    · exact illegalRequest_moves _ bs s
    · exact frameSent_moves _ bs s
    · exact bytesArrive_moves _ bs s
  case txAnswer o => cases h; exact txAnswered_moves _ o s
  case readFails => cases h; exact readFails_moves _ s
  case setPollBudget n =>
    split at h <;> simp only [reduceCtorEq, Host.Outcome.next.injEq] at h
    subst h; exact .configures n (by omega)
  case writeCtrlstat b => cases h; exact .stays
  case newSession => exact absurd rfl hn

/-- A new session resets an idle block and is refused by a busy one (R310). -/
theorem step_newSession {s : State} {rest : List Input} (h : s.inputs = .newSession :: rest) :
    step s = if s.busy then .refused .sessionWhileBusy else .next { s with inputs := rest }.blockReset := by
  simp [step, h, fetch, outside]

theorem nextInstr_cons {s : State} {inp : Input} {rest : List Input} (h : s.inputs = inp :: rest) :
    s.nextInstr = (fetch inp).map Prod.fst := by
  simp [State.nextInstr, h]

/-- A step resets an idle block, or is one of the moves. -/
theorem step_moves {s t : State} (h : step s = .next t) :
    (∃ rest, s.inputs = .newSession :: rest ∧ s.busy = false ∧ t = { s with inputs := rest }.blockReset) ∨
    ∃ x, Moves s.nextInstr { s with inputs := x } t := by
  rcases step_cases h with ⟨_, _, rfl⟩ | ⟨inp, rest, i, left, hi, hf, he⟩ | ⟨inp, rest, hi, hf, ho⟩
  · exact .inr ⟨t.inputs, .stays⟩
  · rw [nextInstr_cons hi, hf]
    exact .inr ⟨left ++ rest, exec_moves he⟩
  · by_cases hn : inp = .newSession
    · subst hn
      rw [step_newSession hi] at h
      split at h <;> simp only [reduceCtorEq, Host.Outcome.next.injEq] at h
      exact .inl ⟨rest, hi, by simp_all, h.symm⟩
    · rw [nextInstr_cons hi, hf]
      exact .inr ⟨rest, outside_moves hn ho⟩

theorem step_moves_of_no_reset {s t : State} (h : step s = .next t) (hr : ∀ rest, s.inputs ≠ .newSession :: rest) :
    ∃ x, Moves s.nextInstr { s with inputs := x } t := by
  rcases step_moves h with ⟨rest, hi, _⟩ | hm
  · exact absurd hi (hr rest)
  · exact hm

/-! ## From one step of a step list to the rest -/

/-- What a run does with the progress of a step, with the steps `ms` after it. -/
def afterStep (k : ValueKind) (ms : List Micro) : Progress → State
  | .completed s => runSteps k ms s.nextStep
  | .ended r s => s.finish r
  | .waiting s => s

theorem runSteps_cons (k : ValueKind) (m : Micro) (ms : List Micro) (s : State) :
    runSteps k (m :: ms) s = afterStep k ms (perform m (s.enter m)) := by
  rw [runSteps]; cases perform m (s.enter m) <;> rfl

theorem planResume_cons {p : Plan} {s : State} {m : Micro} {ms : List Micro} (h : p.steps.drop s.spc = m :: ms) :
    p.resume s = afterStep p.kind ms (perform m s) := by
  rw [Plan.resume, h]
  dsimp only
  cases perform m s <;> rfl

theorem planResume_nil {p : Plan} {s : State} (h : p.steps.drop s.spc = []) : p.resume s = s := by
  rw [Plan.resume, h]

theorem drop_succ_of_drop {l ms : List Micro} {n : Nat} {m : Micro} (h : l.drop n = m :: ms) : l.drop (n + 1) = ms := by
  rw [← List.drop_drop, h, List.drop_succ_cons, List.drop_zero]

/-- INIT alone reads INIT's answer, in its last step (R180). -/
theorem initAck_last {i : Instr} {n : Nat} {ms : List Micro} (h : (planOf i).steps.drop n = .initAck :: ms) :
    i = .autobaudInit ∧ ms = [] := by
  have hi : i = .autobaudInit := by
    have hmem : Micro.initAck ∈ (planOf i).steps := List.mem_of_mem_drop (h ▸ List.mem_cons_self)
    cases i
    case autobaudInit => rfl
    all_goals exact nomatch hmem
  refine ⟨hi, ?_⟩
  subst hi
  match n, h with
  | 0, h => simp [planOf, planInit] at h
  | 1, h => simpa [planOf, planInit] using h.symm
  | n + 2, h => simp [planOf, planInit] at h

/-- A step changes SYNC only where INIT's answer is ACK, and then it completes (R22, R180). -/
theorem perform_sync_cases (m : Micro) (s : State) : (perform m s).state.sync = s.sync ∨
    (m = .initAck ∧ ∃ u, perform m s = .completed u ∧ u.sync = true) := by
  by_cases hm : m = .initAck
  · subst hm
    simp only [perform]
    rcases rxByte_events (.err .initReadFailed none none) initByte s with ⟨b, q, h⟩ | ⟨q, h⟩ | h <;> rw [h]
    · unfold initByte
      split
      · exact .inr ⟨trivial, _, rfl, rfl⟩
      · exact .inl rfl
    · exact .inl rfl
    · exact .inl rfl
  · exact .inl (perform_sync hm s)

theorem more_frame (a : List TxOutcome) (b : List (Option Byte)) (s : State) : SameFrame s (s.more a b) :=
  ⟨rfl, rfl, rfl, rfl, rfl, rfl, rfl, rfl, [], by simp [State.more]⟩

/-! ## Well-formed events and results (R31, R81, R86) -/

/-- Every link event so far is well formed. -/
def HistWellFormed (s : State) : Prop := ∀ e ∈ s.hist, e.WellFormed

theorem histWellFormed_append {s u : State} {es : List Event} (hs : HistWellFormed s) (hu : u.hist = s.hist ++ es)
    (hes : ∀ e ∈ es, e.WellFormed) : HistWellFormed u := by
  intro e he
  rw [hu, List.mem_append] at he
  exact he.elim (hs e) (hes e)

/-- A step's progress leaves a well-formed history, and the result it ended with, if any, is well formed. -/
def Sound : Progress → Prop
  | .completed s => HistWellFormed s
  | .ended r s => HistWellFormed s ∧ r.WellFormed
  | .waiting s => HistWellFormed s

theorem nackMeaning_wf (x : Site) : (nackMeaning x).WellFormed := err_wf (by cases x <;> simp [Site.nackReason])

theorem ackByte_sound (x : Site) (b : Byte) (s : State) (hs : HistWellFormed s) : Sound (ackByte x b s) := by
  unfold ackByte
  split
  · exact hs
  · exact ⟨hs, nackMeaning_wf x⟩
  · exact ⟨hs, err_wf (by simp)⟩

theorem responseByte_sound (b : Byte) (s : State) (hs : HistWellFormed s) : Sound (responseByte b s) := by
  unfold responseByte
  split
  · exact ⟨hs, done_wf _⟩
  · exact ⟨hs, done_wf _⟩
  · exact ⟨hs, err_wf (by simp)⟩

theorem initByte_sound (b : Byte) (s : State) (hs : HistWellFormed s) : Sound (initByte b s) := by
  unfold initByte
  split
  · exact hs
  · exact ⟨hs, err_wf (by simp)⟩

theorem txStep_sound {f : List Byte} (x : Option Site) {s : State} (hf : 1 ≤ f.length) (hs : HistWellFormed s) :
    Sound (txStep f x s) := by
  rcases txStep_events f x s with ⟨q, h⟩ | ⟨q, h⟩ | h <;> rw [h]
  · exact histWellFormed_append hs rfl (by simpa [Event.WellFormed] using hf)
  · exact ⟨histWellFormed_append hs rfl (by simpa [Event.WellFormed] using hf), err_wf (by simp)⟩
  · exact hs

theorem rxStep_sound {n : Nat} {r : Result} {g : List Byte → State → Progress} {s : State} (hn : 1 ≤ n)
    (hr : r.WellFormed) (hg : ∀ bs u, HistWellFormed u → Sound (g bs u)) (hs : HistWellFormed s) :
    Sound (rxStep n r g s) := by
  rcases rxStep_events n r g s with ⟨bs, q, hl, h⟩ | ⟨q, h⟩ | h <;> rw [h]
  · exact hg _ _ (histWellFormed_append hs rfl (by simp [Event.WellFormed, hn, hl]))
  · exact ⟨histWellFormed_append hs rfl (by simp [Event.WellFormed, hn]), hr⟩
  · exact hs

theorem rxByte_sound {r : Result} {g : Byte → State → Progress} {s : State} (hr : r.WellFormed)
    (hg : ∀ b u, HistWellFormed u → Sound (g b u)) (hs : HistWellFormed s) : Sound (rxByte r g s) := by
  refine rxStep_sound le_rfl hr (fun bs u hu => ?_) hs
  cases bs with
  | nil => exact hu
  | cons b bs => exact hg b u hu

theorem pollLoop_sound {r : Result} {g : Byte → State → Progress} {s : State} (hr : r.WellFormed)
    (hg : ∀ b u, HistWellFormed u → Sound (g b u)) (hs : HistWellFormed s) : Sound (pollLoop r g s.rxq s) := by
  have fails : ∀ k, ∀ e ∈ List.replicate k (Event.rx 1 .fail), e.WellFormed := by
    intro k e he
    rw [List.eq_of_mem_replicate he]
    exact le_rfl
  obtain ⟨k, q, ⟨b, h⟩ | h | h⟩ := pollLoop_events r g s.rxq s rfl <;> rw [h]
  · refine hg _ _ (histWellFormed_append hs rfl ?_)
    simp [or_imp, forall_and, Event.WellFormed]
  · exact ⟨histWellFormed_append hs rfl (fails k), hr⟩
  · exact histWellFormed_append hs rfl (fails k)

/-- A TX step has a frame of at least one byte. -/
def FrameNonempty : Micro → Prop
  | .tx frame _ => 1 ≤ frame.length
  | _ => True

/-- Every step of a step list makes well-formed events and ends in a well-formed result (R16, R51, R210). -/
theorem perform_sound {m : Micro} {s : State} (hm : FrameNonempty m) (hs : HistWellFormed s) :
    Sound (perform m s) := by
  cases m <;> simp only [perform]
  case tx f x => exact txStep_sound x hm hs
  case ack x => exact rxByte_sound (err_wf (by simp)) (ackByte_sound x) hs
  case poll x => exact pollLoop_sound (err_wf (by simp)) (ackByte_sound x) hs
  case len => exact rxByte_sound (err_wf (by simp)) (fun _ _ hu => hu) hs
  case rejectZeroLen =>
    split
    · exact ⟨hs, err_wf (by simp)⟩
    · exact hs
  case data n =>
    unfold dataStep
    split
    · exact hs
    · exact rxStep_sound (by omega) (err_wf (by simp)) (fun _ _ hu => hu) hs
  case initAck => exact rxByte_sound (err_wf (by simp)) initByte_sound hs
  case response => exact rxByte_sound (err_wf (by simp)) responseByte_sound hs
  case pollResponse => exact pollLoop_sound (err_wf (by simp)) responseByte_sound hs

theorem openTxn_frames (op : Byte) (x : Site) : ∀ m ∈ openTxn op x, FrameNonempty m := by
  simp [openTxn, FrameNonempty, commandFrame]

theorem withXor_nonempty (body : List Byte) : 1 ≤ (withXor body).length := by simp [withXor]

/-- Every frame an admitted operation writes has a byte (R185; 30_encoding.md R88 to R94). -/
theorem planOf_frames {i : Instr} (ha : Admissible i) : ∀ m ∈ (planOf i).steps, FrameNonempty m := by
  have opens : ∀ op x ms, (∀ m ∈ ms, FrameNonempty m) → ∀ m ∈ openTxn op x ++ ms, FrameNonempty m :=
    fun op x ms h => List.forall_mem_append.mpr ⟨openTxn_frames op x, h⟩
  have hx := withXor_nonempty
  cases i
  case autobaudInit | awaitAck | pollAwaitAck => simp [planOf, planInit, planAwaitAck, planPollAwaitAck, FrameNonempty]
  case sendCommand => simp [planOf, planSendCommand, FrameNonempty, commandFrame]
  case sendFrame frame =>
    have hf : 1 ≤ frame.length := List.length_pos_iff.mpr ha
    simp [planOf, planSendFrame, FrameNonempty, hf]
  case txnGet | txnGetRps | txnGetId | txnWriteUnprotect | txnReadoutProtect | txnReadoutUnprotect =>
    exact opens _ _ _ (by simp [FrameNonempty])
  case txnReadChunk => exact opens _ _ _ (by simp [FrameNonempty, addressFrame, lengthFrame, hx])
  case txnWriteChunk => exact opens _ _ _ (by simp [FrameNonempty, addressFrame, payloadBytes, hx])
  case txnErasePages => exact opens _ _ _ (by simp [FrameNonempty, pageListBytes, hx])
  case txnEraseSpecial => exact opens _ _ _ (by simp [FrameNonempty, specialEraseBytes, hx])
  case txnWriteProtect => exact opens _ _ _ (by simp [FrameNonempty, wpPageBytes, hx])
  all_goals exact absurd ha not_false

/-! ## The invariant (R22 to R31, R189, R226, R227) -/

/-- A step that waits by polling. -/
def IsPoll (m : Micro) : Prop := m = .pollResponse ∨ ∃ site, m = .poll site

/-- What holds throughout a run of operation `i`, between its steps too: the invariant less what is said of the step SPC
points at. -/
structure Running (i : Instr) (s : State) : Prop where
  pollBudget_pos : 1 ≤ s.pollBudget
  busy : s.busy = true
  cur : s.cur = some i
  admissible : Admissible i
  txn : s.txn = selector i
  budget_pos : 1 ≤ s.budget
  hist_wf : HistWellFormed s
  results_wf : ∀ a ∈ s.results, a.result.WellFormed

theorem Running.of_frame {i : Instr} {s t : State} (h : Running i s) (hf : SameFrame s t) (ht : HistWellFormed t) :
    Running i t where
  pollBudget_pos := hf.pollBudget ▸ h.pollBudget_pos
  busy := hf.busy.trans h.busy
  cur := hf.cur.trans h.cur
  admissible := h.admissible
  txn := hf.txn.trans h.txn
  budget_pos := hf.budget ▸ h.budget_pos
  hist_wf := ht
  results_wf := hf.results ▸ h.results_wf

theorem Running.nextStep {i : Instr} {s : State} (h : Running i s) : Running i s.nextStep :=
  ⟨h.pollBudget_pos, h.busy, h.cur, h.admissible, h.txn, h.budget_pos, h.hist_wf, h.results_wf⟩

theorem running_accept {i : Instr} {s : State} (h : s.Inv) (ha : Admissible i) : Running i (s.accept i) :=
  ⟨h.pollBudget_pos, rfl, rfl, ha, rfl, h.pollBudget_pos, h.hist_wf, h.results_wf⟩

theorem currentStep_idle {s : State} (hb : s.busy = false) : s.currentStep = none := by simp [State.currentStep, hb]

/-- An idle block has the invariant as soon as its budget, its history and its results are well formed. -/
theorem inv_of_idle {s : State} (hp : 1 ≤ s.pollBudget) (hb : s.busy = false) (hc : s.cur = none)
    (hh : HistWellFormed s) (hr : ∀ a ∈ s.results, a.result.WellFormed) : s.Inv where
  pollBudget_pos := hp
  idle _ := hc
  inFlight h := by simp [hb] at h
  spc_inRange i h := by simp [hb] at h
  syncDuty i h := by simp [hb] at h
  starved m h := by simp [currentStep_idle hb] at h
  attempts m h := by simp [currentStep_idle hb] at h
  budget_pos h := by simp [hb] at h
  hist_wf := hh
  results_wf := hr

theorem results_append_wf {rs : List Answer} {a : Answer} (hrs : ∀ b ∈ rs, b.result.WellFormed)
    (ha : a.result.WellFormed) : ∀ b ∈ rs ++ [a], b.result.WellFormed := by
  simpa [or_imp, forall_and] using ⟨hrs, ha⟩

/-- No field of the invariant reads the inputs, and a well-formed POLL_BUDGET or list of results is as good as another. -/
theorem inv_of_unread {s : State} (h : s.Inv) {n : Nat} (x : List Input) {rs : List Answer} (hn : 1 ≤ n)
    (hr : ∀ a ∈ rs, a.result.WellFormed) : State.Inv { s with pollBudget := n, inputs := x, results := rs } where
  pollBudget_pos := hn
  idle := h.idle
  inFlight := h.inFlight
  spc_inRange := h.spc_inRange
  syncDuty := h.syncDuty
  starved m hm := by
    have hg := perform_graft (o := { s with pollBudget := n, inputs := x, results := rs }) m s
    rw [h.starved m hm] at hg
    exact hg
  attempts := h.attempts
  budget_pos := h.budget_pos
  hist_wf := h.hist_wf
  results_wf := hr

theorem inv_finish {i : Instr} {s : State} {r : Result} (h : Running i s) (hr : r.WellFormed) : (s.finish r).Inv :=
  inv_of_idle h.pollBudget_pos rfl rfl h.hist_wf (results_append_wf h.results_wf hr)

theorem getElem?_of_drop {l ms : List Micro} {n : Nat} {m : Micro} (h : l.drop n = m :: ms) : l[n]? = some m := by
  rw [← Nat.add_zero n, ← List.getElem?_drop, h, List.getElem?_cons_zero]

theorem currentStep_of_drop {i : Instr} {s : State} {m : Micro} {ms : List Micro} (hb : s.busy = true)
    (hc : s.cur = some i) (hd : (planOf i).steps.drop s.spc = m :: ms) : s.currentStep = some m := by
  simp [State.currentStep, hb, hc, getElem?_of_drop hd]

/-- An operation that waits in its step has the invariant. -/
theorem inv_waiting {i : Instr} {s : State} {m : Micro} {ms : List Micro} (h : Running i s)
    (hs : s.sync = false ↔ i = .autobaudInit) (hd : (planOf i).steps.drop s.spc = m :: ms)
    (hw : perform m s = .waiting s) (hatt : IsPoll m → s.att < s.budget) : s.Inv := by
  have hm : s.currentStep = some m := currentStep_of_drop h.busy h.cur hd
  refine
    { pollBudget_pos := h.pollBudget_pos, idle := ?idle, inFlight := fun _ => ⟨i, h.cur, h.admissible, h.txn⟩,
      spc_inRange := ?spc, syncDuty := ?duty, starved := ?starved, attempts := ?attempts,
      budget_pos := fun _ => h.budget_pos, hist_wf := h.hist_wf, results_wf := h.results_wf }
  case idle => intro hb; simp [h.busy] at hb
  case spc =>
    intro j _ hj
    obtain rfl : i = j := by simpa [h.cur] using hj
    exact (List.getElem?_eq_some_iff.mp (getElem?_of_drop hd)).1
  case duty =>
    intro j _ hj
    obtain rfl : i = j := by simpa [h.cur] using hj
    exact hs
  case starved =>
    intro n hn
    obtain rfl : m = n := by simpa [hm] using hn
    exact hw
  case attempts =>
    intro n hn
    obtain rfl : m = n := by simpa [hm] using hn
    exact hatt

/-- Where the rest of the step list leads to the invariant, so does a step and the rest after it. -/
theorem inv_afterStep {i : Instr} {s : State} {m : Micro} {ms : List Micro} (h : Running i s)
    (hs : s.sync = false ↔ i = .autobaudInit) (hd : (planOf i).steps.drop s.spc = m :: ms)
    (hatt : IsPoll m → s.att < s.budget)
    (rest : ∀ t, Running i t → (planOf i).steps.drop t.spc = ms →
      (ms = [] ∨ (t.sync = false ↔ i = .autobaudInit)) → (runSteps (planOf i).kind ms t).Inv) :
    (afterStep (planOf i).kind ms (perform m s)).Inv := by
  have hmem : m ∈ (planOf i).steps := List.mem_of_mem_drop (hd ▸ List.mem_cons_self)
  have hsound : Sound (perform m s) :=
    perform_sound (planOf_frames h.admissible m hmem) h.hist_wf
  have hf := perform_frame m s
  have hspc : (perform m s).state.spc = s.spc := hf.spc
  have hsync := perform_sync_cases m s
  cases hp : perform m s <;> rw [hp] at hsound hf hspc hsync
  case completed u =>
    refine rest u.nextStep (h.of_frame hf hsound).nextStep ?_ ?_
    · rw [nextStep_spc, show u.spc = s.spc from hspc]
      exact drop_succ_of_drop hd
    · rcases hsync with e | ⟨rfl, _⟩
      · exact .inr ((congrArg (· = false) e).to_iff.trans hs)
      · exact .inl (initAck_last hd).2
  case ended r u =>
    obtain ⟨hu, hr⟩ := hsound
    exact inv_finish (h.of_frame hf hu) hr
  case waiting u =>
    obtain ⟨hw, hcases⟩ := perform_waiting hp
    have e : u.sync = s.sync := by
      rcases hsync with e | ⟨_, v, hv, _⟩
      · exact e
      · cases hv
    have hdu : (planOf i).steps.drop u.spc = m :: ms := (congrArg (List.drop · _) hspc).trans hd
    refine inv_waiting (h.of_frame hf hsound) (e ▸ hs) hdu hw fun hpoll => ?_
    rcases hcases with rfl | ⟨_, hlt⟩
    · exact hatt hpoll
    · exact hlt (hatt hpoll)

theorem enter_poll_att {m : Micro} (hm : IsPoll m) (s : State) : (s.enter m).att = 0 := by
  rcases hm with rfl | ⟨x, rfl⟩ <;> rfl

/-- A run of the rest of the step list leads to the invariant. -/
theorem inv_runSteps {i : Instr} (ms : List Micro) (s : State) (h : Running i s)
    (hd : (planOf i).steps.drop s.spc = ms) (hs : ms = [] ∨ (s.sync = false ↔ i = .autobaudInit)) :
    (runSteps (planOf i).kind ms s).Inv := by
  induction ms generalizing s with
  | nil => exact inv_finish h (done_wf _)
  | cons m ms ih =>
    have hduty := hs.resolve_left (List.cons_ne_nil m ms)
    rw [runSteps_cons]
    refine inv_afterStep (h.of_frame (enter_frame m s).1 ?_) ?_ ?_ (fun hm => ?_) ih
    · exact fun e he => h.hist_wf e (enter_hist s m ▸ he)
    · rwa [enter_sync]
    · rwa [enter_spc]
    · rw [enter_poll_att hm, enter_budget]
      exact h.budget_pos

theorem drop_spc_eq_cons {i : Instr} {s : State} (h : s.spc < (planOf i).steps.length) :
    ∃ m ms, (planOf i).steps.drop s.spc = m :: ms := ⟨_, _, List.drop_eq_getElem_cons h⟩

/-- Answers of the oracle, and how far the operation in flight gets with them (R227). -/
theorem inv_more_resume {s : State} (h : s.Inv) (a : List TxOutcome) (b : List (Option Byte)) :
    (s.more a b).resume.Inv := by
  cases hb : s.busy with
  | false =>
    rw [resume_idle (by exact hb)]
    exact inv_of_idle h.pollBudget_pos hb (h.idle hb) h.hist_wf h.results_wf
  | true =>
    obtain ⟨i, hc, ha, ht⟩ := h.inFlight hb
    obtain ⟨m, ms, hd⟩ := drop_spc_eq_cons (h.spc_inRange i hb hc)
    have hrun : Running i s := ⟨h.pollBudget_pos, hb, hc, ha, ht, h.budget_pos hb, h.hist_wf, h.results_wf⟩
    rw [resume_busy (s := s.more a b) hb hc, planResume_cons (s := s.more a b) hd]
    exact inv_afterStep (hrun.of_frame (more_frame a b s) h.hist_wf) (h.syncDuty i hb hc) hd
      (h.attempts m (currentStep_of_drop hb hc hd)) (inv_runSteps ms)

theorem moves_inv {next : Option Instr} {s t : State} (h : s.Inv) (hm : Moves next s t) : t.Inv := by
  cases hm with
  | stays => exact h
  | configures n hn => exact inv_of_unread h s.inputs hn h.results_wf
  | answers op r hr => exact inv_of_unread h s.inputs h.pollBudget_pos (results_append_wf h.results_wf hr.1)
  | runs i hi hb hs ha => exact inv_runSteps _ _ (running_accept h ha) rfl (.inr hs)
  | goesOn a b => exact inv_more_resume h a b

theorem inv_blockReset {s : State} (h : s.Inv) : s.blockReset.Inv :=
  inv_of_idle h.pollBudget_pos rfl rfl (fun e he => by simp at he) h.results_wf

/-- Settles O50: taking the input leaves the invariant (`inv_of_unread`), and a block reset and every move keep it; a
run does because each of its steps leads there if the rest of the step list does (`inv_afterStep`). -/
theorem stepKeepsBlockInvariant : Obligations.StepKeepsBlockInvariant := by
  intro s t h hstep
  have taken : ∀ x, State.Inv { s with inputs := x } := fun x => inv_of_unread h x h.pollBudget_pos h.results_wf
  rcases step_moves hstep with ⟨rest, _, _, rfl⟩ | ⟨x, hm⟩
  · exact inv_blockReset (taken rest)
  · exact moves_inv (taken x) hm

/-! ## What moves SYNC (R22, R184, R272) -/

/-- Where neither SYNC nor the results change. -/
theorem syncFollows_of_same {init : Prop} {s t : State} (hs : t.sync = s.sync) (hr : t.results = s.results) :
    SyncFollows init s t where
  cleared h h' := by simp [hs, h] at h'
  set h h' := by simp [hs, h] at h'
  violation a h := by simp [hr] at h

/-- The state a run starts from matters by its SYNC and its results alone. -/
theorem syncFollows_from {init : Prop} {s u t : State} (hs : u.sync = s.sync) (hr : u.results = s.results)
    (h : SyncFollows init u t) : SyncFollows init s t where
  cleared hu ht := hr ▸ h.cleared (hs.trans hu) ht
  set hu ht := hr ▸ h.set (hs.trans hu) ht
  violation a ha := h.violation a (hr ▸ ha)

theorem syncFollows_mono {init init' : Prop} {s t : State} (hi : init → init') (h : SyncFollows init s t) :
    SyncFollows init' s t :=
  ⟨h.cleared, fun hs ht => (h.set hs ht).imp_left hi, h.violation⟩

/-- An answer that is no protocol violation leaves SYNC alone. -/
theorem syncFollows_answer {init : Prop} (s : State) (op : Byte) {r : Result} (hr : r.Plain) :
    SyncFollows init s (s.answer op r) where
  cleared h h' := by simp [h] at h'
  set h h' := by simp [h] at h'
  violation a ha hv := by
    obtain rfl : ⟨op, r⟩ = a := by simpa using ha
    exact absurd hv hr.2

/-- The end of an operation clears SYNC exactly with a protocol violation, and never sets it (R184). -/
theorem syncFollows_finish {init : Prop} (s : State) (r : Result) : SyncFollows init s (s.finish r) where
  cleared h h' := ⟨⟨s.txn, r⟩, rfl, by by_contra hr; simp [hr, h] at h'⟩
  set h h' := by simp [h] at h'
  violation a ha hv := by
    obtain rfl : ⟨s.txn, r⟩ = a := by simpa using ha
    exact ⟨by simpa using fun hn => absurd hv hn, rfl⟩

/-- INIT's success (R180): its answer sets SYNC, and its OK result comes with it. -/
theorem syncFollows_init {init : Prop} {s u : State} (v : Option Value) (hi : init) (hu : u.sync = true)
    (hr : u.results = s.results) : SyncFollows init s (u.finish (.done v)) where
  cleared _ h' := by simp [hu] at h'
  set _ _ := ⟨hi, ⟨u.txn, .done v⟩, by simp [hr], rfl⟩
  violation a ha hv := by
    obtain rfl : ⟨u.txn, .done v⟩ = a := by simpa [hr] using ha
    simp at hv

theorem syncFollows_afterStep {i : Instr} {s : State} {m : Micro} {ms : List Micro}
    (hd : (planOf i).steps.drop s.spc = m :: ms)
    (rest : ∀ t, (planOf i).steps.drop t.spc = ms → SyncFollows (i = .autobaudInit) t (runSteps (planOf i).kind ms t)) :
    SyncFollows (i = .autobaudInit) s (afterStep (planOf i).kind ms (perform m s)) := by
  have hr : (perform m s).state.results = s.results := (perform_frame m s).results
  have hspc : (perform m s).state.spc = s.spc := (perform_frame m s).spc
  rcases perform_sync_cases m s with hs | ⟨rfl, u, hu, hsync⟩
  · cases hp : perform m s <;> rw [hp] at hr hspc hs
    case completed u =>
      refine syncFollows_from (u := u.nextStep) hs hr (rest _ ?_)
      rw [nextStep_spc, show u.spc = s.spc from hspc]
      exact drop_succ_of_drop hd
    case ended r u => exact syncFollows_from hs hr (syncFollows_finish u r)
    case waiting u => exact syncFollows_of_same hs hr
  · obtain ⟨hi, rfl⟩ := initAck_last hd
    rw [hu] at hr ⊢
    exact syncFollows_init (u := u.nextStep) _ hi hsync hr

theorem syncFollows_runSteps {i : Instr} (ms : List Micro) (s : State) (hd : (planOf i).steps.drop s.spc = ms) :
    SyncFollows (i = .autobaudInit) s (runSteps (planOf i).kind ms s) := by
  induction ms generalizing s with
  | nil => exact syncFollows_finish s _
  | cons m ms ih =>
    rw [runSteps_cons]
    refine syncFollows_from (enter_sync s m) (enter_results s m) (syncFollows_afterStep ?_ ih)
    rwa [enter_spc]

theorem syncFollows_resume (s : State) : SyncFollows (s.cur = some .autobaudInit) s s.resume := by
  unfold State.resume
  split
  · split
    · rename_i i hc
      rw [hc, Option.some_inj]
      cases hd : (planOf i).steps.drop s.spc with
      | nil => rw [planResume_nil hd]; exact syncFollows_of_same rfl rfl
      | cons m ms => rw [planResume_cons hd]; exact syncFollows_afterStep hd (syncFollows_runSteps ms)
    · exact syncFollows_of_same rfl rfl
  · exact syncFollows_of_same rfl rfl

theorem moves_syncFollows {next : Option Instr} {s t : State} (h : Moves next s t) :
    SyncFollows (next = some .autobaudInit ∨ s.cur = some .autobaudInit) s t := by
  cases h with
  | stays => exact syncFollows_of_same rfl rfl
  | configures n hn => exact syncFollows_of_same rfl rfl
  | answers op r hr => exact syncFollows_answer s op hr
  | runs i hi _ _ _ =>
    have hrun := syncFollows_runSteps (planOf i).steps (s.accept i) rfl
    exact syncFollows_mono (fun e => .inl (hi.trans (congrArg some e))) (syncFollows_from (u := s.accept i) rfl rfl hrun)
  | goesOn a b =>
    have hres : SyncFollows (s.cur = some .autobaudInit) (s.more a b) _ := syncFollows_resume (s.more a b)
    exact syncFollows_mono .inr (syncFollows_from (u := s.more a b) rfl rfl hres)

/-- Settles O49: a step that is no block reset, and an instruction, is a move; what moves SYNC in a run is INIT's ACK, with
its OK result next, or the end of an operation (`syncFollows_afterStep`). -/
theorem syncFollowsResults : Obligations.SyncFollowsResults := by
  refine ⟨fun s t h hr => ?step, fun i s t h => ?instr⟩
  case step =>
    obtain ⟨x, hm⟩ := step_moves_of_no_reset h hr
    exact syncFollows_from (u := { s with inputs := x }) rfl rfl (moves_syncFollows hm)
  case instr => simpa using moves_syncFollows (exec_moves h)

/-! ## The link history (R31, R65) -/

theorem moves_hist {next : Option Instr} {s t : State} (h : Moves next s t) : ∃ es, t.hist = s.hist ++ es := by
  cases h with
  | stays | configures | answers => exact ⟨[], (List.append_nil _).symm⟩
  | runs i _ _ _ _ => exact (runSteps_frame (planOf i).kind (planOf i).steps (s.accept i)).hist
  | goesOn a b => exact (resume_frame (s.more a b)).hist

/-- Settles O53: a step that is no block reset is a move, and every move only appends (`moves_hist`). -/
theorem historyOnlyGrows : Obligations.HistoryOnlyGrows := by
  intro s t h hr
  obtain ⟨x, hm⟩ := step_moves_of_no_reset h hr
  exact moves_hist (s := { s with inputs := x }) hm

/-! ## POLL_BUDGET (R25) -/

theorem resume_pollBudget (s : State) (n : Nat) :
    State.resume { s with pollBudget := n } = { s.resume with pollBudget := n } := by
  have h : State.resume { s with pollBudget := n } = s.resume.around n s.inputs := resume_around s
  rw [h, State.around, ← (resume_frame s).inputs]

/-- Settles O57: a budget from 1 is taken as it is, and the operation in flight does not read it (`resume_around`). -/
theorem pollBudgetChangeNotSeenInFlight : Obligations.PollBudgetChangeNotSeenInFlight := by
  refine ⟨fun s n rest hn hi => ?taken, fun s n bytes => ?bytes, fun s n => ?fails, fun s n o => ?answered⟩
  case taken =>
    have h0 : n ≠ 0 := by omega
    simp [step, hi, fetch, outside, h0]
  case bytes => exact resume_pollBudget { s with rxq := s.rxq ++ bytes.map some } n
  case fails => exact resume_pollBudget { s with rxq := s.rxq ++ [none] } n
  case answered => exact resume_pollBudget { s with txq := s.txq ++ [o] } n

/-! ## Reset and CTRLSTAT (R24, R40, R310, R322) -/

/-- Settles O51: at reset the block is idle and its history and results are empty. -/
theorem resetHasBlockInvariant : Obligations.ResetHasBlockInvariant := by
  refine ⟨inv_of_idle (Nat.le_add_left 1 _) rfl rfl ?_ ?_, ⟨?_, ?_, ?_⟩⟩
  · exact fun e he => absurd he List.not_mem_nil
  · exact fun a ha => absurd ha List.not_mem_nil
  · intro before frame o after h
    simp [State.reset] at h
  · exact fun h => Bool.noConfusion h
  · exact fun h => Bool.noConfusion h

/-- Settles O58: the two flags give four views, read bit by bit; a write to the register is taken without effect. -/
theorem ctrlstatIsAReadOnlyView : Obligations.CtrlstatIsAReadOnlyView := by
  refine ⟨fun s => ?bits, fun s b rest hi => ?write, rfl⟩
  case bits => cases hs : s.sync <;> cases hb : s.busy <;> simp [State.ctrlstat, hs, hb]
  case write => simp [step, hi, fetch, outside, State.writeCtrlstat]

/-- An operation in flight stays in flight, or ends with its result (R322). -/
theorem moves_inFlight {next : Option Instr} {s t : State} {i : Instr} (h : Moves next s t) (hb : s.busy = true)
    (hc : s.cur = some i) (ht : s.txn = selector i) :
    (t.busy = true ∧ t.cur = some i) ∨ (t.busy = false ∧ ∃ r : Result, t.results = s.results ++ [⟨selector i, r⟩]) := by
  cases h with
  | stays | configures | answers => exact .inl ⟨hb, hc⟩
  | runs j _ hidle _ _ => simp [hb] at hidle
  | goesOn a b =>
    rcases (resume_frame (s.more a b)).outcome with ⟨hb', hc', _⟩ | ⟨hb', _, r, hr⟩
    · exact .inl ⟨hb'.trans hb, hc'.trans hc⟩
    · exact .inr ⟨hb', r, ht ▸ hr⟩

/-- Settles O59: a new session is served by BUSY alone (`step_newSession`); an operation in flight is moved, not reset. -/
theorem blockResetValues : Obligations.BlockResetValues := by
  refine ⟨fun s rest hi hb => ?resets, fun s rest hi hb => ?refused, fun s t i h hb hc hstep => ?inFlight,
    rfl, rfl, rfl, rfl, rfl⟩
  case resets => rw [step_newSession hi, hb]; rfl
  case refused => rw [step_newSession hi, hb]; rfl
  case inFlight =>
    obtain ⟨j, hj, _, ht⟩ := h.inFlight hb
    obtain rfl : i = j := by simpa [hc] using hj
    rcases step_moves hstep with ⟨_, _, hidle, _⟩ | ⟨x, hm⟩
    · simp [hb] at hidle
    · exact moves_inFlight (s := { s with inputs := x }) hm hb hc ht

/-! ## Idle micro-state (R21, R26 to R30, R40)

Acceptance writes TXN, SPC, RXBUF and the latched budget. What is left of the old micro-state is NVAR and ATT, and a run
reads neither before it has written it: the two are followed one after the other. -/

/-- What a progress becomes when its state is changed by `f`. -/
def mapProgress (f : State → State) : Progress → Progress
  | .completed s => .completed (f s)
  | .ended r s => .ended r (f s)
  | .waiting s => .waiting (f s)

/-- `f` leaves alone what the link primitives read and write: the oracle's queues, HIST and RXBUF (R16, R210). -/
structure LinkBlind (f : State → State) : Prop where
  txq : ∀ s, (f s).txq = s.txq
  rxq : ∀ s, (f s).rxq = s.rxq
  sent : ∀ s q e, { f s with txq := q }.log e = f ({ s with txq := q }.log e)
  got : ∀ s q e, { f s with rxq := q }.log e = f ({ s with rxq := q }.log e)
  buffered : ∀ s bs, { f s with rxbuf := (f s).rxbuf ++ bs } = f { s with rxbuf := s.rxbuf ++ bs }

theorem ackByte_map (f : State → State) (x : Site) (b : Byte) (s : State) :
    ackByte x b (f s) = mapProgress f (ackByte x b s) := by
  unfold ackByte; split <;> rfl

theorem responseByte_map (f : State → State) (b : Byte) (s : State) :
    responseByte b (f s) = mapProgress f (responseByte b s) := by
  unfold responseByte; split <;> rfl

theorem txStep_map {f : State → State} (hf : LinkBlind f) (frame : List Byte) (x : Option Site) (s : State) :
    txStep frame x (f s) = mapProgress f (txStep frame x s) := by
  unfold txStep
  rw [hf.txq]
  split
  · rfl
  · exact congrArg _ (hf.sent s _ _)
  · exact congrArg _ (hf.sent s _ _)

theorem rxStep_map {f : State → State} (hf : LinkBlind f) (n : Nat) (r : Result) {g : List Byte → State → Progress}
    (hg : ∀ bs u, g bs (f u) = mapProgress f (g bs u)) (s : State) :
    rxStep n r g (f s) = mapProgress f (rxStep n r g s) := by
  unfold rxStep
  rw [hf.rxq]
  split
  · rw [hf.got, hg]
  · exact congrArg _ (hf.got s _ _)
  · rfl

theorem rxByte_map {f : State → State} (hf : LinkBlind f) (r : Result) {g : Byte → State → Progress}
    (hg : ∀ b u, g b (f u) = mapProgress f (g b u)) (s : State) : rxByte r g (f s) = mapProgress f (rxByte r g s) := by
  refine rxStep_map hf _ _ (fun bs u => ?_) s
  cases bs with
  | nil => rfl
  | cons b bs => exact hg b u

theorem dataStep_map {f : State → State} (hf : LinkBlind f) (n : Nat) (s : State) :
    dataStep n (f s) = mapProgress f (dataStep n s) := by
  unfold dataStep
  split
  · rfl
  · exact rxStep_map hf _ _ (fun bs u => by rw [hf.buffered]; rfl) s

/-! ### ATT -/

/-- The state with another count of failed reads. -/
def setAtt (n : Nat) (s : State) : State := { s with att := n }

theorem setAtt_linkBlind (n : Nat) : LinkBlind (setAtt n) :=
  ⟨fun _ => rfl, fun _ => rfl, fun _ _ _ => rfl, fun _ _ _ => rfl, fun _ _ => rfl⟩

/-- Only a poll reads ATT (R29, R186). -/
theorem perform_setAtt {m : Micro} (hm : ¬ IsPoll m) (n : Nat) (s : State) :
    perform m (setAtt n s) = mapProgress (setAtt n) (perform m s) := by
  have hf := setAtt_linkBlind n
  cases m
  case tx => exact txStep_map hf _ _ s
  case ack => exact rxByte_map hf _ (ackByte_map _ _) s
  case poll x => exact absurd (.inr ⟨x, rfl⟩) hm
  case len => exact rxByte_map hf _ (fun _ _ => rfl) s
  case rejectZeroLen =>
    have hn : (setAtt n s).nvar = s.nvar := rfl
    simp only [perform, hn]
    split <;> rfl
  case data c =>
    have hc : c.bytes (setAtt n s) = c.bytes s := by cases c <;> rfl
    simp only [perform, hc]
    exact dataStep_map hf _ s
  case initAck => exact rxByte_map hf _ (fun b u => by unfold initByte; split <;> rfl) s
  case response => exact rxByte_map hf _ (responseByte_map _) s
  case pollResponse => exact absurd (.inl rfl) hm

/-- A poll starts from 0, whatever ATT was (R186); another step does not look. -/
theorem enter_setAtt (m : Micro) (n : Nat) (s : State) :
    (IsPoll m ∧ (setAtt n s).enter m = s.enter m) ∨ (¬ IsPoll m ∧ (setAtt n s).enter m = setAtt n (s.enter m)) := by
  cases m
  case poll x => exact .inl ⟨.inr ⟨x, rfl⟩, rfl⟩
  case pollResponse => exact .inl ⟨.inl rfl, rfl⟩
  all_goals exact .inr ⟨by simp [IsPoll], rfl⟩

/-- The old ATT reaches ATT alone. -/
theorem runSteps_setAtt (k : ValueKind) (ms : List Micro) (n : Nat) (s : State) :
    ∃ n', runSteps k ms (setAtt n s) = setAtt n' (runSteps k ms s) := by
  induction ms generalizing n s with
  | nil => exact ⟨n, rfl⟩
  | cons m ms ih =>
    rw [runSteps_cons, runSteps_cons]
    rcases enter_setAtt m n s with ⟨_, he⟩ | ⟨hm, he⟩ <;> rw [he]
    · exact ⟨_, rfl⟩
    · rw [perform_setAtt hm]
      cases perform m (s.enter m) with
      | completed u => exact ih n u.nextStep
      | ended r u => exact ⟨n, rfl⟩
      | waiting u => exact ⟨n, rfl⟩

/-! ### NVAR -/

/-- The state with another latched length byte. -/
def setNvar (b : Byte) (s : State) : State := { s with nvar := b }

theorem setNvar_linkBlind (b : Byte) : LinkBlind (setNvar b) :=
  ⟨fun _ => rfl, fun _ => rfl, fun _ _ _ => rfl, fun _ _ _ => rfl, fun _ _ => rfl⟩

/-- A step that uses the latched length byte (R212, R214). -/
def ReadsNvar (m : Micro) : Prop := m = .rejectZeroLen ∨ m = .data .nvarLessOne ∨ m = .data .nvarPlusOne

/-- No step of the list uses the length byte before a LEN step has latched it (R28). -/
def NvarLatched : List Micro → Prop
  | [] => True
  | m :: ms => m = .len ∨ (¬ ReadsNvar m ∧ NvarLatched ms)

theorem planOf_nvarLatched (i : Instr) : NvarLatched (planOf i).steps := by
  cases i
  case autobaudInit | sendCommand | awaitAck | pollAwaitAck | sendFrame =>
    simp [planOf, planInit, planSendCommand, planAwaitAck, planPollAwaitAck, planSendFrame, NvarLatched, ReadsNvar]
  case txnGet | txnGetRps | txnGetId =>
    simp [planOf, planTxnGet, planTxnGetRps, planTxnGetId, openTxn, NvarLatched, ReadsNvar]
  case txnReadChunk | txnWriteChunk =>
    simp [planOf, planTxnReadChunk, planTxnWriteChunk, openTxn, NvarLatched, ReadsNvar]
  case txnErasePages | txnEraseSpecial =>
    simp [planOf, planTxnErasePages, planTxnEraseSpecial, openTxn, NvarLatched, ReadsNvar]
  case txnWriteProtect | txnWriteUnprotect | txnReadoutProtect | txnReadoutUnprotect =>
    simp [planOf, planTxnWriteProtect, planTxnWriteUnprotect, planTxnReadoutProtect, planTxnReadoutUnprotect, openTxn,
      NvarLatched, ReadsNvar]
  all_goals exact trivial

/-- The failed read that brings ATT to the budget ends the poll (R186). -/
theorem pollLoop_lastFail {r : Result} {g : Byte → State → Progress} {q : List (Option Byte)} {s : State}
    (h : s.att + 1 = s.budget) : pollLoop r g (none :: q) s =
      .ended r ({ s with rxq := q, att := s.att + 1 }.log (.rx 1 .fail)) := if_pos h

/-- Any other failed read is counted, and the poll goes on (R186). -/
theorem pollLoop_fail {r : Result} {g : Byte → State → Progress} {q : List (Option Byte)} {s : State}
    (h : ¬ s.att + 1 = s.budget) : pollLoop r g (none :: q) s =
      pollLoop r g q ({ s with rxq := q, att := s.att + 1 }.log (.rx 1 .fail)) := if_neg h

theorem pollLoop_setNvar (c : Byte) (r : Result) {g : Byte → State → Progress}
    (hg : ∀ b u, g b (setNvar c u) = mapProgress (setNvar c) (g b u)) (q : List (Option Byte)) (s : State) :
    pollLoop r g q (setNvar c s) = mapProgress (setNvar c) (pollLoop r g q s) := by
  induction q generalizing s with
  | nil => rfl
  | cons a q ih =>
    cases a with
    | some b => exact hg b ({ s with rxq := q }.log (.rx 1 (.ok [b])))
    | none =>
      by_cases h : s.att + 1 = s.budget
      · rw [pollLoop_lastFail h, pollLoop_lastFail (s := setNvar c s) h]; rfl
      · rw [pollLoop_fail h, pollLoop_fail (s := setNvar c s) h]
        exact ih ({ s with rxq := q, att := s.att + 1 }.log (.rx 1 .fail))

/-- A step that neither latches nor uses the length byte takes no note of it. -/
theorem perform_setNvar {m : Micro} (hl : m ≠ .len) (hm : ¬ ReadsNvar m) (c : Byte) (s : State) :
    perform m (setNvar c s) = mapProgress (setNvar c) (perform m s) := by
  have hf := setNvar_linkBlind c
  cases m
  case tx => exact txStep_map hf _ _ s
  case ack => exact rxByte_map hf _ (ackByte_map _ _) s
  case poll => exact pollLoop_setNvar c _ (ackByte_map _ _) s.rxq s
  case len => exact absurd rfl hl
  case rejectZeroLen => exact absurd (.inl rfl) hm
  case data n =>
    cases n with
    | fixed n => exact dataStep_map hf n s
    | nvarLessOne => exact absurd (.inr (.inl rfl)) hm
    | nvarPlusOne => exact absurd (.inr (.inr rfl)) hm
  case initAck => exact rxByte_map hf _ (fun b u => by unfold initByte; split <;> rfl) s
  case response => exact rxByte_map hf _ (responseByte_map _) s
  case pollResponse => exact pollLoop_setNvar c _ (responseByte_map _) s.rxq s

/-- A LEN step that completes has overwritten NVAR; one that does not has not looked at it. -/
theorem perform_len_setNvar (c : Byte) (s : State) :
    (perform .len (setNvar c s) = mapProgress (setNvar c) (perform .len s) ∧ ∀ u, perform .len s ≠ .completed u) ∨
    perform .len (setNvar c s) = perform .len s := by
  simp only [perform]
  match hq : s.rxq with
  | [] => rw [rxByte_waits hq, rxByte_waits (s := setNvar c s) hq]; exact .inl ⟨rfl, nofun⟩
  | none :: q => rw [rxByte_fails hq, rxByte_fails (s := setNvar c s) hq]; exact .inl ⟨rfl, nofun⟩
  | some b :: q => rw [rxByte_gets hq, rxByte_gets (s := setNvar c s) hq]; exact .inr rfl

/-- The first step of a list goes as with the old NVAR and leaves it to steps that take no note of it, or latches it. -/
theorem perform_setNvar_cases {m : Micro} {ms : List Micro} (h : NvarLatched (m :: ms)) (c : Byte) (s : State) :
    (perform m (setNvar c s) = mapProgress (setNvar c) (perform m s) ∧
      ∀ u, perform m s = .completed u → NvarLatched ms) ∨
    perform m (setNvar c s) = perform m s := by
  by_cases hl : m = .len
  · subst hl
    exact (perform_len_setNvar c s).imp_left fun ⟨he, hn⟩ => ⟨he, fun u hu => absurd hu (hn u)⟩
  · obtain ⟨hm, hms⟩ := h.resolve_left hl
    exact .inl ⟨perform_setNvar hl hm c s, fun _ _ => hms⟩

theorem enter_setNvar (m : Micro) (c : Byte) (s : State) : (setNvar c s).enter m = setNvar c (s.enter m) := by
  cases m <;> rfl

/-- The old NVAR reaches NVAR alone. -/
theorem runSteps_setNvar (k : ValueKind) (ms : List Micro) (c : Byte) (s : State) (h : NvarLatched ms) :
    ∃ c', runSteps k ms (setNvar c s) = setNvar c' (runSteps k ms s) := by
  induction ms generalizing s with
  | nil => exact ⟨c, rfl⟩
  | cons m ms ih =>
    rw [runSteps_cons, runSteps_cons, enter_setNvar]
    rcases perform_setNvar_cases h c (s.enter m) with ⟨he, hms⟩ | he <;> rw [he]
    · cases hp : perform m (s.enter m) with
      | completed u => exact ih u.nextStep (hms u hp)
      | ended r u => exact ⟨c, rfl⟩
      | waiting u => exact ⟨c, rfl⟩
    · exact ⟨_, rfl⟩

/-! ### What acceptance leaves -/

/-- The state with other micro-state: TXN, SPC, NVAR, ATT, RXBUF and the latched budget taken from `o`. -/
def withMicro (o s : State) : State :=
  { s with txn := o.txn, spc := o.spc, nvar := o.nvar, att := o.att, rxbuf := o.rxbuf, budget := o.budget }

/-- A link operation accepted over other micro-state runs alike: only NVAR and ATT survive acceptance. -/
theorem runSteps_accept_withMicro (i : Instr) (o s : State) :
    (runSteps (planOf i).kind (planOf i).steps ((withMicro o s).accept i)).visible =
      (runSteps (planOf i).kind (planOf i).steps (s.accept i)).visible := by
  have he : (withMicro o s).accept i = setNvar o.nvar (setAtt o.att (s.accept i)) := rfl
  obtain ⟨b, hb⟩ := runSteps_setNvar (planOf i).kind (planOf i).steps o.nvar (setAtt o.att (s.accept i)) (planOf_nvarLatched i)
  obtain ⟨n, hn⟩ := runSteps_setAtt (planOf i).kind (planOf i).steps o.att (s.accept i)
  rw [he, hb, hn]
  rfl

theorem request_withMicro (i : Instr) (d : SyncDuty) (c : Option Result) (o s : State) :
    ((withMicro o s).request i d c (planOf i)).visible = (s.request i d c (planOf i)).visible := by
  have hadm : (withMicro o s).admission d = s.admission d := rfl
  rcases request_cases i d c (planOf i) s with ⟨r, h, e⟩ | ⟨h, r, rfl, e⟩ | ⟨h, rfl, e⟩ <;> rw [e]
  · rw [request_refused (hadm.trans h)]; rfl
  · rw [request_checked (hadm.trans h)]; rfl
  · rw [request_runs (hadm.trans h)]; exact runSteps_accept_withMicro i o s

theorem frameSent_idle {s : State} (f : List Byte) (hb : s.busy = false) : s.frameSent f = s := by
  simp [State.frameSent, State.writing, currentStep_idle hb]

theorem bytesArrive_idle {s : State} (bs : List Byte) (hb : s.busy = false) :
    s.bytesArrive bs = { s with rxq := s.rxq ++ bs.map some } := resume_idle hb

/-- What an instruction means, the same in every state: an answer, a request, or an event of the link. -/
inductive Meaning (i : Instr) : Prop
  | answers (r : Result) (h : ∀ s, exec i s = .next (s.answer (selector i) r))
  | requests (d : SyncDuty) (c : Option Result) (h : ∀ s, exec i s = .next (s.request i d c (planOf i)))
  | sends (f : List Byte) (h : ∀ s, exec i s = .next (s.frameSent f))
  | receives (bs : List Byte) (h : ∀ s, exec i s = .next (s.bytesArrive bs))

theorem exec_meaning (i : Instr) : Meaning i := by
  cases i
  case cmdFrame | addrFrame | lenFrame | payloadFrame | pageListFrame | specialEraseFrame | wpPageFrame =>
    exact .answers _ fun _ => rfl
  case checkComplement | checkXor | decodeCmdFrame | decodeAddrFrame | decodeLenFrame | decodePayloadFrame
      | decodePageListFrame | decodeSpecialEraseFrame =>
    exact .answers _ fun _ => rfl
  case autobaudInit | sendCommand | awaitAck | pollAwaitAck | sendFrame => exact .requests _ _ fun _ => rfl
  case txnGet | txnGetRps | txnGetId | txnReadChunk | txnWriteChunk | txnErasePages | txnEraseSpecial | txnWriteProtect
      | txnWriteUnprotect | txnReadoutProtect | txnReadoutUnprotect =>
    exact .requests _ _ fun _ => rfl
  case wireAck | wireNack => exact .receives _ fun _ => rfl
  all_goals exact .sends _ fun _ => rfl

/-- In an idle block no instruction's effect on what is visible depends on the micro-state. -/
theorem exec_withMicro {i : Instr} {s t : State} (o : State) (hb : s.busy = false) (h : exec i s = .next t) :
    ∃ t', exec i (withMicro o s) = .next t' ∧ t'.visible = t.visible := by
  cases exec_meaning i with
  | answers r he =>
    rw [he] at h; cases h
    exact ⟨_, he _, rfl⟩
  | requests d c he =>
    rw [he] at h; cases h
    exact ⟨_, he _, request_withMicro i d c o s⟩
  | sends f he =>
    rw [he, frameSent_idle f hb] at h; cases h
    exact ⟨_, he _, by rw [frameSent_idle f (by exact hb)]; rfl⟩
  | receives bs he =>
    rw [he, bytesArrive_idle bs hb] at h; cases h
    exact ⟨_, he _, by rw [bytesArrive_idle bs (by exact hb)]; rfl⟩

/-- Settles O56: acceptance overwrites the micro-state but for NVAR and ATT, and no step list reads one of these before it
has written it (`runSteps_setNvar`, `runSteps_setAtt`). -/
theorem idleMicroStateIsUnreadable : Obligations.IdleMicroStateIsUnreadable := by
  intro i s t txn nvar spc att budget rxbuf hb h
  exact exec_withMicro
    { s with txn := txn, spc := spc, nvar := nvar, att := att, rxbuf := rxbuf, budget := budget } hb h

end Sys2Proof.Proofs

end

/-! # Proofs: 20_memory.md -/

section

namespace Sys2Proof.Proofs

open Sys2Proof.Machine

/-! ## Argument checks (R57, R215, R216, R219 to R222) -/

theorem writeChunkCheck_misaligned {a : U32} (d : List Byte) (h : a.toNat % 4 ≠ 0) :
    writeChunkCheck a d = some .misaligned := if_pos h

theorem writeChunkCheck_aligned {a : U32} (d : List Byte) (h : a.toNat % 4 = 0) :
    writeChunkCheck a d = rangeCheck d.length := if_neg (not_not.mpr h)

theorem pageListCheck_range {ps : List U16} (h : ps.length = 0 ∨ 65536 < ps.length) :
    pageListCheck ps = some .range := by
  rcases h with h | h
  · exact if_pos h
  · rw [pageListCheck, if_neg (by omega), if_pos h]

/-- A list whose count field would be a sentinel fails before its pages are looked at; both answer the same reason. -/
theorem pageListCheck_reserved {ps : List U16} (h1 : 1 ≤ ps.length) (h2 : ps.length ≤ 65536)
    (h : 65533 ≤ ps.length ∨ ∃ p ∈ ps, p = 0xFFFF ∨ p = 0xFFFE ∨ p = 0xFFFD) :
    pageListCheck ps = some .reservedSentinel := by
  rw [pageListCheck, if_neg (by omega), if_neg (by omega)]
  by_cases hn : 65533 ≤ ps.length
  · exact if_pos hn
  · rw [if_neg hn, if_pos ((any_sentinel ps).mpr (h.resolve_left hn))]

theorem specialCheck_some {c : U16} (h : ¬ (c = 0xFFFF ∨ c = 0xFFFE ∨ c = 0xFFFD)) :
    specialCheck c = some .notSentinel := if_neg (mt (sentinels_contains c).mp h)

/-- Where the flags admit a request and its own check fails, the request is answered with that check's reason and does
nothing else (R216). -/
theorem exec_check_fails {i : Instr} {c : Option Reason} {r : Reason} {s : State} (hb : s.busy = false)
    (hs : s.sync = true) (hx : exec i s = .next (s.request i .synced (checked c) (planOf i))) (hc : c = some r) :
    exec i s = .next (s.answer (selector i) (.err r none none)) := by
  have admitted : s.admission .synced = none := by rw [admission_synced hb, if_pos hs]
  rw [hx, hc]
  exact congrArg _ (request_checked admitted)

/-- Settles O33: the flags admit the transaction, and the first check that fails is its answer (`exec_check_fails`). -/
theorem transactionArgumentsCheckedBeforeTheLink : Obligations.TransactionArgumentsCheckedBeforeTheLink := by
  intro s hb hs
  refine ⟨fun addr count h => ?readRange, fun addr data h => ?writeMisaligned, fun addr data ha h => ?writeRange,
    fun pages h => ?eraseRange, fun pages h1 h2 h => ?eraseReserved, fun code h1 h2 h3 => ?eraseSpecial,
    fun pages h => ?protectRange⟩
  case readRange => exact exec_check_fails hb hs rfl (rangeCheck_some h)
  case writeMisaligned => exact exec_check_fails hb hs rfl (writeChunkCheck_misaligned data h)
  case writeRange => exact exec_check_fails hb hs rfl ((writeChunkCheck_aligned data ha).trans (rangeCheck_some h))
  case eraseRange => exact exec_check_fails hb hs rfl (pageListCheck_range h)
  case eraseReserved => exact exec_check_fails hb hs rfl (pageListCheck_reserved h1 h2 h)
  case eraseSpecial => exact exec_check_fails hb hs rfl (specialCheck_some (not_or.mpr ⟨h1, not_or.mpr ⟨h2, h3⟩⟩))
  case protectRange => exact exec_check_fails hb hs rfl (rangeCheck_some h)

/-! ## A failed write is the last link event of a step (R66, R271) -/

/-- No event of the list is a failed write. -/
def NoFailedWrite (es : List Event) : Prop := ∀ frame, Event.tx frame .fail ∉ es

/-- From `s` to `t` events are added to HIST, and none before the last of them is a failed write. -/
def FailedWriteLast (s t : State) : Prop := ∃ es, t.hist = s.hist ++ es ∧ NoFailedWrite es.dropLast

theorem failedWriteLast_of_same {s t : State} (h : t.hist = s.hist) : FailedWriteLast s t :=
  ⟨[], by rw [h, List.append_nil], fun _ => List.not_mem_nil⟩

theorem failedWriteLast_single {s t : State} {e : Event} (h : t.hist = s.hist ++ [e]) : FailedWriteLast s t :=
  ⟨[e], h, fun _ => List.not_mem_nil⟩

/-- The state a run starts from matters by its history alone. -/
theorem failedWriteLast_from {s u t : State} (hu : u.hist = s.hist) (h : FailedWriteLast u t) :
    FailedWriteLast s t := by
  obtain ⟨es, ht, hes⟩ := h
  exact ⟨es, by rw [ht, hu], hes⟩

/-- Events without a failed write may come before. -/
theorem failedWriteLast_after {s u t : State} {es : List Event} (hu : u.hist = s.hist ++ es) (hes : NoFailedWrite es)
    (h : FailedWriteLast u t) : FailedWriteLast s t := by
  obtain ⟨es', ht, hes'⟩ := h
  refine ⟨es ++ es', by rw [ht, hu, List.append_assoc], fun frame hmem => ?_⟩
  by_cases hnil : es' = []
  · rw [hnil, List.append_nil] at hmem
    exact hes frame (List.mem_of_mem_dropLast hmem)
  · rw [List.dropLast_append_of_ne_nil hnil, List.mem_append] at hmem
    exact hmem.elim (hes frame) (hes' frame)

/-- What `FailedWriteLast` says of a failed write among the events added. -/
theorem FailedWriteLast.after_eq_nil {s t : State} {before after : List Event} {frame : List Byte}
    (h : FailedWriteLast s t) (ht : t.hist = s.hist ++ (before ++ .tx frame .fail :: after)) : after = [] := by
  obtain ⟨es, hes, hlast⟩ := h
  obtain rfl : es = before ++ .tx frame .fail :: after := List.append_cancel_left (hes.symm.trans ht)
  cases after with
  | nil => rfl
  | cons e after => exact absurd (by simp [List.dropLast_append_of_ne_nil]) (hlast frame)

/-- A step of a step list adds no failed write, or it is a TX that fails, and ends the operation (R16, R210). -/
theorem perform_failedWrite_cases (m : Micro) (s : State) :
    (∃ es, (perform m s).state.hist = s.hist ++ es ∧ NoFailedWrite es) ∨
    (∃ r u frame, perform m s = .ended r u ∧ u.hist = s.hist ++ [.tx frame .fail]) := by
  by_cases hm : ∃ f x, m = .tx f x
  · obtain ⟨f, x, rfl⟩ := hm
    rcases txStep_events f x s with ⟨q, h⟩ | ⟨q, h⟩ | h
    · exact .inl ⟨[.tx f .ok], by rw [perform, h]; rfl, by simp [NoFailedWrite]⟩
    · exact .inr ⟨_, _, f, h, rfl⟩
    · exact .inl ⟨[], by rw [perform, h, List.append_nil]; rfl, fun _ => List.not_mem_nil⟩
  · obtain ⟨es, hh, hrx⟩ := perform_reads (fun f x e => hm ⟨f, x, e⟩) s
    exact .inl ⟨es, hh, fun frame hmem => hrx _ hmem⟩

/-- Where the rest of the step list adds nothing after a failed write, neither does a step and the rest after it. -/
theorem failedWriteLast_afterStep (k : ValueKind) (m : Micro) (ms : List Micro) (s : State)
    (rest : ∀ t, FailedWriteLast t (runSteps k ms t)) : FailedWriteLast s (afterStep k ms (perform m s)) := by
  rcases perform_failedWrite_cases m s with ⟨es, hh, hes⟩ | ⟨r, u, frame, hp, hh⟩
  · refine failedWriteLast_after hh hes ?_
    cases perform m s with
    | completed u => exact rest u.nextStep
    | ended r u => exact failedWriteLast_of_same (finish_hist u r)
    | waiting u => exact failedWriteLast_of_same rfl
  · rw [hp]
    exact failedWriteLast_single hh

theorem failedWriteLast_runSteps (k : ValueKind) (ms : List Micro) (s : State) :
    FailedWriteLast s (runSteps k ms s) := by
  induction ms generalizing s with
  | nil => exact failedWriteLast_of_same (finish_hist s _)
  | cons m ms ih =>
    rw [runSteps_cons]
    exact failedWriteLast_from (enter_hist s m) (failedWriteLast_afterStep k m ms (s.enter m) ih)

theorem failedWriteLast_resume (s : State) : FailedWriteLast s s.resume := by
  unfold State.resume
  split
  · split
    · rename_i i _
      cases hd : (planOf i).steps.drop s.spc with
      | nil => rw [planResume_nil hd]; exact failedWriteLast_of_same rfl
      | cons m ms =>
        rw [planResume_cons hd]
        exact failedWriteLast_afterStep _ m ms s (failedWriteLast_runSteps _ ms)
    · exact failedWriteLast_of_same rfl
  · exact failedWriteLast_of_same rfl

theorem moves_failedWriteLast {next : Option Instr} {s t : State} (h : Moves next s t) : FailedWriteLast s t := by
  cases h with
  | stays | configures | answers => exact failedWriteLast_of_same rfl
  | runs i _ _ _ _ => exact failedWriteLast_runSteps (planOf i).kind (planOf i).steps (s.accept i)
  | goesOn a b => exact failedWriteLast_resume (s.more a b)

/-- Settles O54: a block reset leaves no event at all, and in every move a failed write ends the operation that made it
(`failedWriteLast_afterStep`). -/
theorem nothingFollowsFailedWrite : Obligations.NothingFollowsFailedWrite := by
  intro s t before after frame hstep ht
  rcases step_moves hstep with ⟨rest, _, _, rfl⟩ | ⟨x, hm⟩
  · simp at ht
  · exact (moves_failedWriteLast hm).after_eq_nil ht

end Sys2Proof.Proofs

end

/-! # Proofs: 30_encoding.md -/

section

namespace Sys2Proof.Proofs

open Sys2Proof.Machine

/-! ## An encoding is decoded to its instruction (R82, R83, R87, R88, R95) -/

/-- Reading the last operand of a request, and what is left after it. -/
theorem map_read_eq_some {α : Type} {read : Option (α × List Byte)} {mk : α → Instr} {i : Instr} {rest : List Byte} :
    (read.map fun x => (mk x.1, x.2)) = some (i, rest) ↔ ∃ x, read = some (x, rest) ∧ mk x = i := by
  simp

/-- Reading the last two operands of a request, the second from what the first left. -/
theorem bind_read_eq_some {α β : Type} {read : Option (α × List Byte)} {next : List Byte → Option (β × List Byte)}
    {mk : α → β → Instr} {i : Instr} {rest : List Byte} :
    (read.bind fun x => (next x.2).map fun y => (mk x.1 y.1, y.2)) = some (i, rest) ↔
      ∃ x more, read = some (x, more) ∧ ∃ y, next more = some (y, rest) ∧ mk x y = i := by
  simp [Option.bind_eq_some_iff]

/-- The decoder reads each operand from the bytes the encoder wrote for it. -/
theorem decodeRequest_encode {i : Instr} (hw : i.WellFormed) (hc : channel i = .request) (rest : List Byte) :
    decodeRequest (encode i ++ rest) = some (i, rest) := by
  cases i
  case autobaudInit | awaitAck | pollAwaitAck | txnGet | txnGetRps | txnGetId | txnWriteUnprotect | txnReadoutProtect
      | txnReadoutUnprotect => rfl
  case cmdFrame x | sendCommand x => exact map_read_eq_some.mpr ⟨x, readU8_cons x rest, rfl⟩
  case specialEraseFrame x | txnEraseSpecial x => exact map_read_eq_some.mpr ⟨x, readU16_be16 x rest, rfl⟩
  case addrFrame x | lenFrame x => exact map_read_eq_some.mpr ⟨x, readU32_be32 x rest, rfl⟩
  case wpPageFrame xs | checkComplement xs | checkXor xs | decodeCmdFrame xs | decodeAddrFrame xs | decodeLenFrame xs
      | decodePayloadFrame xs | decodePageListFrame xs | decodeSpecialEraseFrame xs | sendFrame xs | txnWriteProtect xs =>
    exact map_read_eq_some.mpr ⟨xs, readBytes_writeBytes hw rest, rfl⟩
  case pageListFrame xs | txnErasePages xs => exact map_read_eq_some.mpr ⟨xs, readU16s_writeU16s hw rest, rfl⟩
  case payloadFrame x xs =>
    exact bind_read_eq_some.mpr ⟨x, _, readU8_cons x _, xs, readBytes_writeBytes hw rest, rfl⟩
  case txnReadChunk x y =>
    exact bind_read_eq_some.mpr ⟨x, _, readU32_be32 x _, y, readU32_be32 y rest, rfl⟩
  case txnWriteChunk x xs =>
    exact bind_read_eq_some.mpr ⟨x, _, readU32_be32 x _, xs, readBytes_writeBytes hw rest, rfl⟩
  all_goals cases hc

/-- Each wire row is the word its channel's decoder looks for. -/
theorem decode_encode_of_link {i : Instr} (hc : channel i ≠ .request) : decode (channel i) (encode i) = some (i, []) := by
  cases i
  case wireGet | wireGetRps | wireGetId | wireReadMemory | wireWriteMemory | wireExtendedErase | wireWriteProtect
      | wireWriteUnprotect | wireReadoutProtect | wireReadoutUnprotect | wireSync | wireAck | wireNack => rfl
  all_goals exact absurd rfl hc

/-- Settles O1: at the request port by the operands' round trips (`decodeRequest_encode`), on the link by the words of the
wire rows. -/
theorem encodingReadsBack : Obligations.EncodingReadsBack := by
  intro i rest hw hrest
  by_cases hc : channel i = .request
  · rw [hc]
    exact decodeRequest_encode hw hc rest
  · obtain rfl : rest = [] := hrest.resolve_left hc
    rw [List.append_nil]
    exact decode_encode_of_link hc

/-! ## What is decoded is an encoding (R82, R83, R84, R87, R88, R95) -/

/-- A selector picks the row of that selector, whatever its operands: the decoder has one branch per selector. -/
theorem decodeOperation_selector {opsel : Byte} {bs rest : List Byte} {i : Instr}
    (h : decodeOperation opsel bs = some (i, rest)) : channel i = .request ∧ opsel = selector i := by
  have hop : opsel = BitVec.ofNat 8 opsel.toNat := by simp
  revert h
  unfold decodeOperation
  generalize opsel.toNat = n at hop ⊢
  subst hop
  split
  case h_32 => nofun
  all_goals
    -- the row of the branch, with operands of some values
    simp only [map_read_eq_some, bind_read_eq_some, Option.some.injEq, Prod.mk.injEq, forall_exists_index, and_imp]
    intros
    subst_vars
    exact ⟨rfl, rfl⟩

/-- The bytes each operand was read from are the bytes the encoder writes for it. -/
theorem decodeOperation_some {opsel : Byte} {bs rest : List Byte} {i : Instr}
    (h : decodeOperation opsel bs = some (i, rest)) : i.WellFormed ∧ opsel :: bs = encode i ++ rest := by
  obtain ⟨hc, rfl⟩ := decodeOperation_selector h
  cases i
  case autobaudInit | awaitAck | pollAwaitAck | txnGet | txnGetRps | txnGetId | txnWriteUnprotect | txnReadoutProtect
      | txnReadoutUnprotect =>
    cases h
    exact ⟨trivial, rfl⟩
  case cmdFrame | sendCommand =>
    obtain ⟨x, hx, he⟩ := map_read_eq_some.mp h
    cases he
    rw [readU8_some hx]
    exact ⟨trivial, rfl⟩
  case specialEraseFrame | txnEraseSpecial =>
    obtain ⟨x, hx, he⟩ := map_read_eq_some.mp h
    cases he
    rw [readU16_some hx]
    exact ⟨trivial, rfl⟩
  case addrFrame | lenFrame =>
    obtain ⟨x, hx, he⟩ := map_read_eq_some.mp h
    cases he
    rw [readU32_some hx]
    exact ⟨trivial, rfl⟩
  case wpPageFrame | checkComplement | checkXor | decodeCmdFrame | decodeAddrFrame | decodeLenFrame | decodePayloadFrame
      | decodePageListFrame | decodeSpecialEraseFrame | sendFrame | txnWriteProtect =>
    obtain ⟨xs, hx, he⟩ := map_read_eq_some.mp h
    cases he
    obtain ⟨hf, rfl⟩ := readBytes_some hx
    exact ⟨hf, rfl⟩
  case pageListFrame | txnErasePages =>
    obtain ⟨xs, hx, he⟩ := map_read_eq_some.mp h
    cases he
    obtain ⟨hf, rfl⟩ := readU16s_some hx
    exact ⟨hf, rfl⟩
  case payloadFrame =>
    obtain ⟨x, more, hx, ys, hy, he⟩ := bind_read_eq_some.mp h
    cases he
    obtain ⟨hf, rfl⟩ := readBytes_some hy
    rw [readU8_some hx]
    exact ⟨hf, rfl⟩
  case txnReadChunk =>
    obtain ⟨x, more, hx, y, hy, he⟩ := bind_read_eq_some.mp h
    cases he
    rw [readU32_some hx, readU32_some hy]
    exact ⟨trivial, rfl⟩
  case txnWriteChunk =>
    obtain ⟨x, more, hx, ys, hy, he⟩ := bind_read_eq_some.mp h
    cases he
    obtain ⟨hf, rfl⟩ := readBytes_some hy
    rw [readU32_some hx]
    exact ⟨hf, rfl⟩
  all_goals cases hc

theorem decodeRequest_some {bs rest : List Byte} {i : Instr} (h : decodeRequest bs = some (i, rest)) :
    i.WellFormed ∧ channel i = .request ∧ bs = encode i ++ rest := by
  cases bs with
  | nil => cases h
  | cons opsel bs =>
    obtain ⟨hw, he⟩ := decodeOperation_some h
    exact ⟨hw, (decodeOperation_selector h).1, he⟩

/-- A command's row has the command frame of its opcode (R88). -/
theorem commandRow_some {op : Byte} {i : Instr} (h : commandRow op = some i) :
    i.WellFormed ∧ channel i = .toDevice ∧ encode i = [op, cpl op] := by
  have hop : op = BitVec.ofNat 8 op.toNat := by simp
  unfold commandRow at h
  generalize op.toNat = n at h hop
  subst hop
  split at h <;> cases h <;> exact ⟨trivial, rfl, rfl⟩

theorem decodeToDevice_some {bs : List Byte} {i : Instr} (h : decodeToDevice bs = some i) :
    i.WellFormed ∧ channel i = .toDevice ∧ bs = encode i := by
  match bs, h with
  | [b], h =>
    obtain ⟨rfl, he⟩ : b = 0x7F ∧ some .wireSync = some i := by simpa [decodeToDevice] using h
    cases he
    exact ⟨trivial, rfl, rfl⟩
  | [op, check], h =>
    obtain ⟨rfl, hr⟩ : check = cpl op ∧ commandRow op = some i := by simpa [decodeToDevice] using h
    obtain ⟨hw, hc, he⟩ := commandRow_some hr
    exact ⟨hw, hc, he.symm⟩

theorem decodeFromDevice_some {bs : List Byte} {i : Instr} (h : decodeFromDevice bs = some i) :
    i.WellFormed ∧ channel i = .fromDevice ∧ bs = encode i := by
  match bs, h with
  | [b], h =>
    simp only [decodeFromDevice] at h
    split at h
    next hb => cases h; subst hb; exact ⟨trivial, rfl, rfl⟩
    next =>
      split at h
      next hb => cases h; subst hb; exact ⟨trivial, rfl, rfl⟩
      next => cases h

/-- Settles O2: one inversion per channel's decoder. -/
theorem decodedBytesAreTheirEncoding : Obligations.DecodedBytesAreTheirEncoding := by
  intro c bs rest i h
  cases c with
  | request => exact decodeRequest_some h
  | toDevice =>
    obtain ⟨j, hj, he⟩ := Option.map_eq_some_iff.mp h
    cases he
    simpa using decodeToDevice_some hj
  | fromDevice =>
    obtain ⟨j, hj, he⟩ := Option.map_eq_some_iff.mp h
    cases he
    simpa using decodeFromDevice_some hj

/-! ## Words of the spec -/

/-- Settles O3: each word is evaluated by the decoder of its channel. -/
theorem specWordsDecode : Obligations.SpecWordsDecode := by
  unfold Obligations.SpecWordsDecode
  decide

/-! ## A step and the bytes of its input (R81, R84) -/

theorem step_of_decode {s : State} {c : Channel} {bs left : List Byte} {i : Instr} {rest : List Input}
    (hi : s.inputs = .port c bs :: rest) (hd : decode c bs = some (i, left)) :
    step s = exec i { s with inputs := leftOver c left ++ rest } := by
  simp [step, hi, fetch, hd]

theorem step_of_no_request {s : State} {opsel : Byte} {more : List Byte} {rest : List Input}
    (hi : s.inputs = .port .request (opsel :: more) :: rest) (hd : decodeRequest (opsel :: more) = none) :
    step s = .next ({ s with inputs := rest }.answer opsel (.err .illegalOp (some opsel) none)) := by
  simp [step, hi, fetch, decode, hd, outside, State.illegalRequest]

/-- Settles O5: `leftOver` is the input that holds what is left, if anything is. -/
theorem stepRunsDecodedInstruction : Obligations.StepRunsDecodedInstruction := by
  intro s c bs left i rest hi hd
  rw [step_of_decode hi hd]
  cases left <;> rfl

theorem encode_eq_cons (i : Instr) : ∃ operands, encode i = selector i :: operands := by
  cases i <;> exact ⟨_, rfl⟩

/-- No request begins with an unlisted selector. -/
theorem decodeRequest_unlisted {opsel : Byte} (h : ∀ i : Instr, channel i = .request → selector i ≠ opsel)
    (more : List Byte) : decodeRequest (opsel :: more) = none := by
  refine Option.eq_none_iff_forall_ne_some.mpr fun ⟨i, rest⟩ hd => ?_
  obtain ⟨hc, hs⟩ := decodeOperation_selector hd
  exact h i hc hs.symm

/-- An encoding cut short is no request: with the missing bytes after it, the request it spelled would be read, and the
whole encoding would read back in two ways. -/
theorem decodeRequest_cutShort {i : Instr} {bs missing : List Byte} (hw : i.WellFormed) (hc : channel i = .request)
    (hm : missing ≠ []) (he : encode i = bs ++ missing) : decodeRequest bs = none := by
  refine Option.eq_none_iff_forall_ne_some.mpr fun ⟨j, rest⟩ hd => hm ?_
  obtain ⟨hwj, hcj, rfl⟩ := decodeRequest_some hd
  have hi := decodeRequest_encode hw hc []
  have hj := decodeRequest_encode hwj hcj (rest ++ missing)
  rw [List.append_nil, he, List.append_assoc, hj, Option.some.injEq, Prod.mk.injEq] at hi
  exact (List.append_eq_nil_iff.mp hi.2).2

/-- Settles O4: neither kind of bytes decodes, and bytes that do not decode are answered and change nothing. -/
theorem illegalRequestRefused : Obligations.IllegalRequestRefused := by
  refine ⟨fun s opsel more rest hu hi => step_of_no_request hi (decodeRequest_unlisted hu more), ?_⟩
  intro s i bs missing rest hw hc hb hm he hi
  obtain ⟨opsel, more, rfl⟩ := List.exists_cons_of_ne_nil hb
  obtain ⟨operands, hop⟩ := encode_eq_cons i
  obtain rfl : opsel = selector i := by
    rw [hop] at he
    exact (List.cons.inj he).1.symm
  exact step_of_no_request hi (decodeRequest_cutShort hw hc hm he)

/-! ## A frame on the link (R87, R88, R210) -/

/-- A row of the block's side of the link is its frame passing there (R87, R88, R100). -/
theorem exec_toDevice {w : Instr} (hw : channel w = .toDevice) (s : State) :
    exec w s = .next (s.frameSent (encode w)) := by
  cases w
  case wireGet | wireGetRps | wireGetId | wireReadMemory | wireWriteMemory | wireExtendedErase | wireWriteProtect
      | wireWriteUnprotect | wireReadoutProtect | wireReadoutUnprotect | wireSync => rfl
  all_goals cases hw

/-- Every row of that side but the sync byte is the command frame of its first byte (R88). -/
theorem encode_eq_commandFrame {w : Instr} {op : Byte} (hw : channel w = .toDevice) (hs : w ≠ .wireSync)
    (hop : (encode w).head? = some op) : encode w = commandFrame op := by
  cases w
  case wireGet | wireGetRps | wireGetId | wireReadMemory | wireWriteMemory | wireExtendedErase | wireWriteProtect
      | wireWriteUnprotect | wireReadoutProtect | wireReadoutUnprotect => cases hop; rfl
  case wireSync => exact absurd rfl hs
  all_goals cases hw

theorem frameSent_other {s : State} {f : List Byte} (h : s.writing ≠ some f) : s.frameSent f = s := if_neg h

/-- The operation writes `frame` in its first step, and in its second waits where nothing has been received. -/
def OpensWith (i : Instr) (frame : List Byte) : Prop :=
  ∃ site m ms, (planOf i).steps = .tx frame site :: m :: ms ∧
    ∀ s : State, s.rxq = [] → perform m (s.enter m) = .waiting s

theorem opensWith_of_openTxn {i : Instr} {op : Byte} {x : Site} {ms : List Micro}
    (h : (planOf i).steps = openTxn op x ++ ms) : OpensWith i (commandFrame op) :=
  ⟨some x, .ack x, ms, h, fun _ hs => rxByte_waits hs⟩

theorem opensWith_sendCommand (op : Byte) : OpensWith (.sendCommand op) (commandFrame op) :=
  ⟨none, .response, [], rfl, fun _ hs => rxByte_waits hs⟩

theorem opensWith_autobaudInit : OpensWith .autobaudInit [0x7F] :=
  ⟨none, .initAck, [], rfl, fun _ hs => rxByte_waits hs⟩

/-- The first frame of an operation passes: its write is done, and the operation waits for the answer (R210). -/
theorem frameSent_opening {i : Instr} {frame : List Byte} {s : State} (ho : OpensWith i frame) (hb : s.busy = true)
    (hc : s.cur = some i) (h0 : s.spc = 0) (ht : s.txq = []) (hr : s.rxq = []) :
    s.frameSent frame = { s with spc := 1, hist := s.hist ++ [.tx frame .ok] } := by
  obtain ⟨site, m, ms, hsteps, hwait⟩ := ho
  have hdrop : (planOf i).steps.drop s.spc = .tx frame site :: m :: ms := by rw [h0, hsteps, List.drop_zero]
  have hwriting : s.writing = some frame := by simp [State.writing, currentStep_of_drop hb hc hdrop]
  calc s.frameSent frame
      = (planOf i).resume { s with txq := s.txq ++ [.ok] } := by
        rw [State.frameSent, if_pos hwriting]; exact resume_busy hb hc
    _ = runSteps (planOf i).kind (m :: ms)
          (State.log (.tx frame .ok) { s with txq := [] }).nextStep := by
        rw [planResume_cons (by exact hdrop), perform, txStep_ok (q := []) (by simp [ht])]; rfl
    _ = (State.log (.tx frame .ok) { s with txq := [] }).nextStep := runSteps_waiting (hwait _ hr)
    _ = { s with spc := 1, hist := s.hist ++ [.tx frame .ok] } := by
        simp [State.nextStep, State.log, h0, ht]

/-- Settles O45: the frame is the encoding of the wire row, and it is the one the operation opens with. -/
theorem commandFramePassesOnLink : Obligations.CommandFramePassesOnLink := by
  intro s w i frame hw
  obtain ⟨hc, rfl⟩ : channel w = .toDevice ∧ frame = encode w := by
    rcases hw with ⟨rfl, rfl⟩ | ⟨rfl, rfl⟩ | ⟨rfl, rfl⟩ | ⟨rfl, rfl⟩ | ⟨rfl, rfl⟩ | ⟨rfl, rfl⟩ | ⟨rfl, rfl⟩ |
      ⟨rfl, rfl⟩ | ⟨rfl, rfl⟩ | ⟨rfl, rfl⟩ | ⟨rfl, rfl⟩ <;> exact ⟨rfl, rfl⟩
  rw [exec_toDevice hc]
  refine ⟨fun hne => by rw [frameSent_other hne], fun hb hcur h0 ht hr hi => ?_⟩
  have hopens : OpensWith i (encode w) := by
    rcases hi with ⟨rfl, rfl⟩ | ⟨rfl, rfl⟩ | ⟨rfl, rfl⟩ | ⟨rfl, a, c, rfl⟩ | ⟨rfl, a, d, rfl⟩ |
      ⟨rfl, ⟨p, rfl⟩ | ⟨c, rfl⟩⟩ | ⟨rfl, p, rfl⟩ | ⟨rfl, rfl⟩ | ⟨rfl, rfl⟩ | ⟨rfl, rfl⟩ | ⟨rfl, rfl⟩ | ⟨hs, op, hop, rfl⟩
    -- the eleven transactions, INIT, SEND_COMMAND
    iterate 11 exact opensWith_of_openTxn rfl
    · exact opensWith_autobaudInit
    · rw [encode_eq_commandFrame hc hs hop]
      exact opensWith_sendCommand op
  rw [frameSent_opening hopens hb hcur h0 ht hr]

end Sys2Proof.Proofs

end

/-! # Proofs: 41_codec_builders.md -/

section

namespace Sys2Proof.Proofs

open Sys2Proof.Machine

/-! ## A builder's answer (R121) -/

/-- In every state a builder is answered the result of its check and its frame, and nothing else changes. -/
theorem answers_built {i : Instr} {c : Option Reason} {f : List Byte} {r : Result}
    (hx : ∀ s, exec i s = .next (s.codec i (built c f))) (hr : built c f = r) : Answers i r :=
  (answers_iff hx).mpr hr.symm

theorem built_rangeCheck (n : Nat) (f : List Byte) : built (rangeCheck n) f =
    if n < 1 ∨ n > 256 then .err .range none none else .done (some (.frame f)) :=
  apply_ite (built · f) _ _ _

/-- The checks of R125 in their order: each branch is the check that fails there. -/
theorem built_pageListCheck (ps : List U16) (f : List Byte) : built (pageListCheck ps) f =
    if ps.length = 0 then .err .range none none
    else if ps.length > 65536 then .err .range none none
    else if ps.length ≥ 65533 then .err .reservedSentinel none none
    else if ∃ p ∈ ps, p = 0xFFFF ∨ p = 0xFFFE ∨ p = 0xFFFD then .err .reservedSentinel none none
    else .done (some (.frame f)) := by
  split_ifs with hempty hlong hcount hpage
  · rw [pageListCheck_range (.inl hempty)]; rfl
  · rw [pageListCheck_range (.inr hlong)]; rfl
  · rw [pageListCheck_reserved (by omega) (by omega) (.inl hcount)]; rfl
  · rw [pageListCheck_reserved (by omega) (by omega) (.inr hpage)]; rfl
  · rw [pageListCheck, if_neg hempty, if_neg hlong, if_neg hcount, if_neg (mt (any_sentinel ps).mp hpage)]; rfl

theorem built_specialCheck (c : U16) (f : List Byte) : built (specialCheck c) f =
    if c = 0xFFFF ∨ c = 0xFFFE ∨ c = 0xFFFD then .done (some (.frame f)) else .err .notSentinel none none := by
  split_ifs with h
  · rw [specialCheck, if_pos ((sentinels_contains c).mpr h)]; rfl
  · rw [specialCheck_some h]; rfl

/-! ## The frames (R88, R90, R93) -/

/-- The count byte of a `u32` count is the low byte of the count less one: the subtraction does not wrap (R97). -/
theorem countByte_eq_extractLsb' {c : U32} (h : 1 ≤ c.toNat) : countByte c.toNat = (c - 1).extractLsb' 0 8 := by
  have hsub : (c - 1).toNat = c.toNat - 1 := by bv_omega
  rw [countByte, ← hsub]
  rfl

theorem specialEraseBytes_eq (c : U16) : specialEraseBytes c =
    [c.extractLsb' 8 8, c.extractLsb' 0 8, c.extractLsb' 8 8 ^^^ c.extractLsb' 0 8] := by
  simp [specialEraseBytes, withXor, be16]

/-- A complement frame: two bytes, the second the complement of the first (R128, R130). -/
theorem complementFrame_checks (b : Byte) :
    [b, cpl b].length = 2 ∧ [b, cpl b][1]? = [b, cpl b][0]?.map (· ^^^ 0xFF) := ⟨rfl, rfl⟩

/-- A frame with an XOR checksum has the length of its body and one byte more, and its checksum holds (R128, R130). -/
theorem withXor_checks {body : List Byte} {n : Nat} (h : body.length + 1 = n) : (withXor body).length = n ∧
    (withXor body).getLast? = some (xorfold (withXor body).dropLast) ∧ xorfold (withXor body) = 0x00 :=
  h ▸ withXor_frame body

theorem pageListFrame_checks (ps : List U16) : (pageListBytes ps).length = 2 * ps.length + 3 ∧
    (pageListBytes ps).getLast? = some (xorfold (pageListBytes ps).dropLast) ∧ xorfold (pageListBytes ps) = 0x00 :=
  ⟨pageListBytes_length, (withXor_frame _).2⟩

/-! ## The statements -/

/-- Settles O11: the checks in their order (`built_pageListCheck`). -/
theorem pageListFrameBuilt : Obligations.PageListFrameBuilt := fun pages =>
  answers_built (fun _ => rfl) (built_pageListCheck pages (pageListBytes pages))

/-- Settles O14: each builder's frame is known (`builds_cmdFrame` and the others), and is a complement frame or a body
with its XOR checksum. -/
theorem builtFramesCheckAndHaveTheirLength : Obligations.BuiltFramesCheckAndHaveTheirLength := by
  refine ⟨fun op f h => ?cmd, fun count f h => ?len, fun addr f h => ?addr, fun lenByte data f h => ?payload,
    fun pages f h => ?pageList, fun code f h => ?special, fun pages f h => ?wpPage⟩
  case cmd =>
    obtain rfl := builds_cmdFrame.mp h
    exact complementFrame_checks op
  case len =>
    obtain ⟨-, rfl⟩ := builds_lenFrame.mp h
    exact complementFrame_checks (countByte count.toNat)
  case addr =>
    obtain rfl := builds_addrFrame.mp h
    exact withXor_checks rfl
  case payload =>
    obtain ⟨-, rfl⟩ := builds_payloadFrame.mp h
    exact withXor_checks rfl
  case pageList =>
    obtain ⟨-, rfl⟩ := builds_pageListFrame.mp h
    exact pageListFrame_checks pages
  case special =>
    obtain ⟨-, rfl⟩ := builds_specialEraseFrame.mp h
    exact withXor_checks rfl
  case wpPage =>
    obtain ⟨-, rfl⟩ := builds_wpPageFrame.mp h
    exact withXor_checks rfl

/-- Settles O15: a flipped bit flips the same bit of the fold (`xorfold_flipBit`), and of the exclusive-or of two bytes;
a second flip of that bit flips it back. -/
theorem singleBitFlipChangesChecksum : Obligations.SingleBitFlipChangesChecksum := by
  refine ⟨fun f k j hk hj hf => ?one, fun b0 b1 j hj hb => ?complement, fun f k l j hk hl _ _ hf => ?two⟩
  case one =>
    have hfold : xorfold (flipBit f k j) = 1#8 <<< j := by rw [xorfold_flipBit j hk, hf]; exact BitVec.zero_xor
    exact ⟨hfold, hfold ▸ mask_ne_zero hj⟩
  case complement =>
    have hflip : (b0 ^^^ b1) ^^^ (1#8 <<< j) ≠ 0xFF := hb ▸ xor_mask_ne hj (b0 ^^^ b1)
    have hfirst : (b0 ^^^ (1#8 <<< j)) ^^^ b1 = (b0 ^^^ b1) ^^^ (1#8 <<< j) := by
      rw [BitVec.xor_assoc, BitVec.xor_comm (1#8 <<< j), BitVec.xor_assoc]
    exact ⟨hfirst ▸ hflip, BitVec.xor_assoc b0 b1 _ ▸ hflip⟩
  case two =>
    rw [xorfold_flipBit j (by rwa [flipBit_length]), xorfold_flipBit j hk, hf, BitVec.xor_assoc, BitVec.xor_self]
    rfl

/-- Settles O7: CMD_FRAME has no check. -/
theorem cmdFrameBuilt : Obligations.CmdFrameBuilt := fun _ => answers_built (fun _ => rfl) rfl

/-- Settles O8: ADDR_FRAME has no check. -/
theorem addrFrameBuilt : Obligations.AddrFrameBuilt := fun _ => answers_built (fun _ => rfl) rfl

/-- Settles O9: in range, the subtraction in `u32` does not wrap (`countByte_eq_extractLsb'`). -/
theorem lenFrameBuilt : Obligations.LenFrameBuilt := fun count => answers_built (fun _ => rfl) <| by
  rw [built_rangeCheck, lengthFrame]
  split_ifs with h
  · rfl
  · rw [countByte_eq_extractLsb' (by omega)]; rfl

/-- Settles O10: the data's length is the only check (`built_rangeCheck`). -/
theorem payloadFrameBuilt : Obligations.PayloadFrameBuilt := fun lenByte data =>
  answers_built (fun _ => rfl) (built_rangeCheck data.length (payloadBytes lenByte data))

/-- Settles O12: the check passes on the sentinels alone (`built_specialCheck`). -/
theorem specialEraseFrameBuilt : Obligations.SpecialEraseFrameBuilt := fun code => answers_built (fun _ => rfl) <| by
  rw [built_specialCheck, specialEraseBytes_eq]
  rfl

/-- Settles O13: the number of pages is the only check (`built_rangeCheck`). -/
theorem wpPageFrameBuilt : Obligations.WpPageFrameBuilt := fun pages =>
  answers_built (fun _ => rfl) (built_rangeCheck pages.length (wpPageBytes pages))

end Sys2Proof.Proofs

end

/-! # Proofs: 42_codec_validators.md -/

section

namespace Sys2Proof.Proofs

open Sys2Proof.Machine

/-! ## Checks in their order (R150) -/

/-- A result of status OK is its value. -/
theorem done_some_inj {v w : Value} : Result.done (some v) = .done (some w) ↔ v = w := by simp [Result.done]

/-- A decoder that answers a value has passed its length check and its checksum. -/
theorem checks_value_iff {p q : Prop} [Decidable p] [Decidable q] {r : Result} {v : Value} :
    (if p then badLength else if q then badSum else r) = .done (some v) ↔ ¬ p ∧ ¬ q ∧ r = .done (some v) := by
  split_ifs with hlen hsum
  · exact ⟨nofun, fun h => absurd hlen h.1⟩
  · exact ⟨nofun, fun h => absurd hsum h.2.1⟩
  · exact ⟨fun h => ⟨hlen, hsum, h⟩, fun h => h.2.2⟩

/-- A content check answers a value exactly when it passes. -/
theorem content_value_iff {p : Prop} [Decidable p] {r : Reason} {i : Option Byte} {v w : Value} :
    (if p then .err r i none else .done (some v)) = Result.done (some w) ↔ ¬ p ∧ v = w := by
  split_ifs with h
  · exact ⟨fun e => absurd (congrArg Result.value e) nofun, fun hp => absurd h hp.1⟩
  · rw [done_some_inj, and_iff_right h]

/-- A frame of good length whose checksum fails is answered so, whatever its content. -/
theorem checks_badSum {p q : Prop} [Decidable p] [Decidable q] (r : Result) (hp : ¬ p) (hq : q) :
    (if p then badLength else if q then badSum else r) = badSum := by
  rw [if_neg hp, if_pos hq]

/-- An operation answers one value. -/
theorem answers_value_unique {i : Instr} {v w : Value} (hv : Answers i ⟨.ok, .none, none, none, some v⟩)
    (hw : Answers i ⟨.ok, .none, none, none, some w⟩) : v = w :=
  (done_some_inj.mp ((answers_iff hv).mp hw)).symm

/-! ## Bytes as numbers (R53, R97, R98) -/

theorem fromBe16_eq_ofNat (b0 b1 : Byte) : fromBe16 b0 b1 = BitVec.ofNat 16 (b0.toNat * 256 + b1.toNat) := by
  rw [← fromBe16_toNat, BitVec.ofNat_toNat, BitVec.setWidth_eq]

theorem fromBe32_eq_ofNat (b0 b1 b2 b3 : Byte) : fromBe32 b0 b1 b2 b3 =
    BitVec.ofNat 32 ((b0.toNat * 256 + b1.toNat) * 65536 + b2.toNat * 256 + b3.toNat) := by
  rw [← fromBe32_toNat, BitVec.ofNat_toNat, BitVec.setWidth_eq]

theorem fromBe16_inj {a0 a1 b0 b1 : Byte} (h : fromBe16 a0 a1 = fromBe16 b0 b1) : a0 = b0 ∧ a1 = b1 := by
  simpa using congrArg be16 h

/-- One more than a byte does not wrap in `u32`, so a length byte gives a count up to 256 (R153). -/
theorem zeroExtend_add_one_toNat (b : Byte) : (b.zeroExtend 32 + 1).toNat = b.toNat + 1 := by
  have := b.isLt
  simp
  omega

theorem zeroExtend_add_one_eq_ofNat (b : Byte) : b.zeroExtend 32 + 1 = BitVec.ofNat 32 (b.toNat + 1) := by
  rw [← zeroExtend_add_one_toNat, BitVec.ofNat_toNat, BitVec.setWidth_eq]

theorem countByte_succ (b : Byte) : countByte (b.toNat + 1) = b := by
  rw [countByte, Nat.add_sub_cancel, BitVec.ofNat_toNat, BitVec.setWidth_eq]

/-! ## The parts of a page-list frame (R92) -/

/-- The value of the two bytes at position `k` of a frame, the first the more significant (R98). -/
def pairAt (f : List Byte) (k : Nat) : U16 := fromBe16 (f.getD k 0) (f.getD (k + 1) 0)

/-- The number of pages that the count field of a page-list frame stands for (R92, R157). -/
def pageCount (f : List Byte) : Nat := (pairAt f 0).toNat + 1

/-- The bytes of a page-list frame between its count field and its checksum (R92). -/
def pageBytes (f : List Byte) : List Byte := (f.drop 2).dropLast

theorem pairAt_eq_ofNat (f : List Byte) (k : Nat) :
    pairAt f k = BitVec.ofNat 16 ((f.getD k 0).toNat * 256 + (f.getD (k + 1) 0).toNat) := fromBe16_eq_ofNat _ _

theorem pageBytes_length {f : List Byte} {n : Nat} (h : f.length = 2 * n + 3) : (pageBytes f).length = 2 * n := by
  simp only [pageBytes, List.length_dropLast, List.length_drop]
  omega

theorem pageBytes_getD {f : List Byte} {k : Nat} (h : k < (pageBytes f).length) :
    (pageBytes f).getD k 0 = f.getD (k + 2) 0 := by
  simp only [pageBytes, List.length_dropLast] at h
  rw [List.getD_eq_getElem?_getD, List.getD_eq_getElem?_getD, pageBytes, List.dropLast_eq_take,
    List.getElem?_take_of_lt h, List.getElem?_drop, Nat.add_comm]

/-- The pages of a frame of the right length, by position (R157). -/
theorem pairs16_pageBytes {f : List Byte} {n : Nat} (h : f.length = 2 * n + 3) :
    pairs16 (pageBytes f) = (List.range n).map fun k => pairAt f (2 * k + 2) := by
  have hlen := pageBytes_length h
  rw [pairs16_eq_map hlen]
  refine List.map_congr_left fun k hk => ?_
  have := List.mem_range.mp hk
  rw [pageBytes_getD (by omega), pageBytes_getD (by omega)]
  rfl

/-- What stands before the checksum: the count field and the page bytes. -/
theorem dropLast_eq_pairAt_append {f : List Byte} (h : 3 ≤ f.length) :
    f.dropLast = be16 (pairAt f 0) ++ pageBytes f := by
  match f, h with
  | b0 :: b1 :: b2 :: rest, _ => simp [pairAt, pageBytes]

theorem pairAt_pageListBytes (ps : List U16) : pairAt (pageListBytes ps) 0 = BitVec.ofNat 16 (ps.length - 1) := by
  rw [pageListBytes_eq]
  exact fromBe16_be16 _

theorem pageCount_pageListBytes {ps : List U16} (h : 1 ≤ ps.length ∧ ps.length ≤ 65536) :
    pageCount (pageListBytes ps) = ps.length := by
  rw [pageCount, pairAt_pageListBytes, BitVec.toNat_ofNat]
  omega

theorem pageBytes_pageListBytes (ps : List U16) : pageBytes (pageListBytes ps) = ps.flatMap be16 := by
  rw [pageListBytes_eq]
  exact List.dropLast_concat

/-! ## One equation per validator (R151 to R158) -/

theorem length_ne_two {f : List Byte} (h : ∀ b0 b1, f = [b0, b1] → False) : f.length ≠ 2 := fun hlen =>
  let ⟨b0, b1, hf⟩ := List.length_eq_two.mp hlen
  h b0 b1 hf

theorem complementResult_eq (f : List Byte) : complementResult f =
    if f.length ≠ 2 then badLength else .done (some (.bool (f.getD 1 0 = cpl (f.getD 0 0)))) := by
  unfold complementResult
  split
  next => rfl
  next hshape => exact (if_pos (length_ne_two hshape)).symm

/-- The last byte, by its position, is compared with the fold of those before it. -/
theorem xorResult_eq (f : List Byte) : xorResult f =
    if f.length = 0 then badLength
    else .done (some (.bool (f.getD (f.length - 1) 0 = xorfold (f.take (f.length - 1))))) := by
  unfold xorResult
  split_ifs with hempty
  · rfl
  · have hlast : f.getLast? = some (f.getD (f.length - 1) 0) := by
      rw [List.getLast?_eq_getElem?, List.getD_eq_getElem?_getD, List.getElem?_eq_getElem (by omega), Option.getD_some]
    simp only [hlast, List.dropLast_eq_take, Option.some.injEq]

theorem cmdFrameResult_eq (f : List Byte) : cmdFrameResult f =
    if f.length ≠ 2 then badLength
    else if f.getD 1 0 ≠ cpl (f.getD 0 0) then badSum
    else if f.getD 0 0 ∉ commandSet then .err .notACommand (some (f.getD 0 0)) none
    else .done (some (.command (f.getD 0 0))) := by
  unfold cmdFrameResult
  split
  next => simp [ite_not]
  next hshape => exact (if_pos (length_ne_two hshape)).symm

theorem lenFrameResult_eq (f : List Byte) : lenFrameResult f =
    if f.length ≠ 2 then badLength
    else if f.getD 1 0 ≠ cpl (f.getD 0 0) then badSum
    else .done (some (.count ((f.getD 0 0).zeroExtend 32 + 1))) := by
  unfold lenFrameResult
  split
  next => rfl
  next hshape => exact (if_pos (length_ne_two hshape)).symm

theorem addrFrameResult_eq (f : List Byte) : addrFrameResult f =
    if f.length ≠ 5 then badLength
    else if xorfold f ≠ 0 then badSum
    else .done (some (.address (fromBe32 (f.getD 0 0) (f.getD 1 0) (f.getD 2 0) (f.getD 3 0)))) := by
  unfold addrFrameResult
  split
  next => rfl
  next hshape =>
    refine (if_pos fun hlen => ?_).symm
    match f, hlen with
    | [b0, b1, b2, b3, b4], _ => exact hshape b0 b1 b2 b3 b4 rfl

theorem payloadFrameResult_eq (f : List Byte) : payloadFrameResult f =
    if f.length < 3 ∨ f.length > 258 then badLength
    else if xorfold f ≠ 0 then badSum
    else .done (some (.payload (f.getD 0 0) ((f.drop 1).take (f.length - 2))
      ((f.getD 0 0).toNat + 1 = ((f.drop 1).take (f.length - 2)).length))) := by
  unfold payloadFrameResult
  split_ifs with hlen hsum
  · rfl
  · rfl
  · match f with
    | [] => simp at hlen
    | b0 :: rest => simp [List.dropLast_eq_take]

theorem pagesResult_eq (n : Nat) (ps : List U16) : pagesResult n ps =
    if n ≥ 65533 then .err .reservedSentinel none none
    else if ∃ p ∈ ps, p = 0xFFFF ∨ p = 0xFFFE ∨ p = 0xFFFD then .err .reservedSentinel none none
    else .done (some (.pages ps)) := by
  simp only [pagesResult, any_sentinel]

theorem pageListFrameResult_eq (f : List Byte) : pageListFrameResult f =
    if f.length < 5 ∨ f.length ≠ 2 * pageCount f + 3 then badLength
    else if xorfold f ≠ 0 then badSum
    else pagesResult (pageCount f) (pairs16 (pageBytes f)) := by
  unfold pageListFrameResult
  by_cases hlen : f.length < 5
  · rw [if_pos hlen, if_pos (.inl hlen)]
  · match f with
    | [] | [_] => simp at hlen
    | b0 :: b1 :: rest => rw [if_neg hlen, ite_or, if_neg hlen]; rfl

/-- The pages that are checked and given stand at the positions of R157. -/
theorem pageListFrameResult_eq_pairs (f : List Byte) : pageListFrameResult f =
    if f.length < 5 ∨ f.length ≠ 2 * pageCount f + 3 then badLength
    else if xorfold f ≠ 0 then badSum
    else pagesResult (pageCount f) ((List.range (pageCount f)).map fun k => pairAt f (2 * k + 2)) := by
  rw [pageListFrameResult_eq]
  split_ifs with hlen hsum
  · rfl
  · rfl
  · rw [pairs16_pageBytes (not_not.mp (not_or.mp hlen).2)]

theorem specialFrameResult_eq (f : List Byte) : specialFrameResult f =
    if f.length ≠ 3 then badLength
    else if xorfold f ≠ 0 then badSum
    else if ¬ sentinels.contains (pairAt f 0) then .err .notSentinel none none
    else .done (some (.code (pairAt f 0))) := by
  unfold specialFrameResult
  split
  next => simp [pairAt]
  next hshape =>
    refine (if_pos fun hlen => ?_).symm
    obtain ⟨b0, b1, b2, hf⟩ := List.length_eq_three.mp hlen
    exact hshape b0 b1 b2 hf

/-! ## The frames a decoder answers a value for (R160) -/

/-- A frame folds to 0 exactly when it is its body with the XOR checksum after it. -/
theorem eq_withXor_iff {f body : List Byte} (h : f ≠ []) : f = withXor body ↔ xorfold f = 0 ∧ f.dropLast = body := by
  rw [xorfold_zero_iff h]
  constructor
  · rintro rfl
    rw [withXor, List.dropLast_concat]
    exact ⟨rfl, rfl⟩
  · rintro ⟨hf, rfl⟩
    exact hf

/-- The same, with the first byte and the bytes between it and the checksum taken apart. -/
theorem eq_withXor_cons_iff {f d : List Byte} {l : Byte} (h : 2 ≤ f.length) : f = withXor (l :: d) ↔
    xorfold f = 0 ∧ f.getD 0 0 = l ∧ (f.drop 1).take (f.length - 2) = d := by
  match f, h with
  | b0 :: b1 :: rest, _ => simp [eq_withXor_iff, List.dropLast_eq_take]

/-- Two bytes with a good complement are the complement frame of the first. -/
theorem eq_complementFrame_iff {f : List Byte} {b : Byte} :
    f = [b, cpl b] ↔ f.length = 2 ∧ f.getD 1 0 = cpl (f.getD 0 0) ∧ f.getD 0 0 = b := by
  constructor
  · rintro rfl
    exact ⟨rfl, rfl, rfl⟩
  · rintro ⟨hlen, hcpl, rfl⟩
    obtain ⟨b0, b1, rfl⟩ := List.length_eq_two.mp hlen
    rw [← hcpl]
    rfl

/-- A code is a sentinel exactly when it is at least the least of them (R38). -/
theorem sentinels_contains_iff_le {c : U16} : sentinels.contains c = true ↔ 65533 ≤ c.toNat := by
  rw [← specialCheck_none, specialCheck, ite_eq_left_iff]
  simp

theorem cmdFrameResult_value_iff {f : List Byte} {op : Byte} :
    cmdFrameResult f = .done (some (.command op)) ↔ op ∈ commandSet ∧ f = [op, cpl op] := by
  rw [cmdFrameResult_eq, checks_value_iff, content_value_iff, eq_complementFrame_iff]
  simp only [not_not, Value.command.injEq]
  constructor
  · rintro ⟨hlen, hcpl, hmem, rfl⟩
    exact ⟨hmem, hlen, hcpl, rfl⟩
  · rintro ⟨hmem, hlen, hcpl, rfl⟩
    exact ⟨hlen, hcpl, hmem, rfl⟩

theorem addrFrameResult_value_iff {f : List Byte} {a : U32} :
    addrFrameResult f = .done (some (.address a)) ↔ f = withXor (be32 a) := by
  rw [addrFrameResult_eq, checks_value_iff, done_some_inj]
  simp only [not_not, Value.address.injEq]
  constructor
  · rintro ⟨hlen, hsum, rfl⟩
    match f, hlen with
    | [b0, b1, b2, b3, b4], _ => exact (eq_withXor_iff (by simp)).mpr ⟨hsum, (be32_fromBe32 b0 b1 b2 b3).symm⟩
  · rintro rfl
    exact ⟨rfl, xorfold_withXor _, fromBe32_be32 a⟩

theorem lenFrameResult_value_iff {f : List Byte} {c : U32} : lenFrameResult f = .done (some (.count c)) ↔
    (1 ≤ c.toNat ∧ c.toNat ≤ 256) ∧ f = [countByte c.toNat, cpl (countByte c.toNat)] := by
  rw [lenFrameResult_eq, checks_value_iff, done_some_inj, eq_complementFrame_iff]
  simp only [not_not, Value.count.injEq]
  constructor
  · rintro ⟨hlen, hcpl, rfl⟩
    rw [zeroExtend_add_one_toNat, countByte_succ]
    exact ⟨⟨by omega, by omega⟩, hlen, hcpl, rfl⟩
  · rintro ⟨hrange, hlen, hcpl, hbyte⟩
    exact ⟨hlen, hcpl, hbyte ▸ countByte_back hrange⟩

theorem payloadFrameResult_value_iff {f d : List Byte} {l : Byte} {c : Bool} :
    payloadFrameResult f = .done (some (.payload l d c)) ↔
      ((1 ≤ d.length ∧ d.length ≤ 256) ∧ f = withXor (l :: d)) ∧ decide (l.toNat + 1 = d.length) = c := by
  rw [payloadFrameResult_eq, checks_value_iff, done_some_inj]
  simp only [not_not, Value.payload.injEq]
  constructor
  · rintro ⟨hlen, hsum, rfl, rfl, rfl⟩
    refine ⟨⟨?_, (eq_withXor_cons_iff (by omega)).mpr ⟨hsum, rfl, rfl⟩⟩, rfl⟩
    simp only [List.length_take, List.length_drop]
    omega
  · rintro ⟨⟨hrange, hf⟩, rfl⟩
    have hlen : f.length = d.length + 2 := by rw [hf]; exact (withXor_frame _).1
    obtain ⟨hsum, rfl, rfl⟩ := (eq_withXor_cons_iff (by omega)).mp hf
    exact ⟨by omega, hsum, rfl, rfl, rfl⟩

theorem pagesResult_value_iff {n : Nat} {ps qs : List U16} : pagesResult n ps = .done (some (.pages qs)) ↔
    (n < 65533 ∧ ∀ x ∈ ps, x.toNat < 65533) ∧ ps = qs := by
  rw [pagesResult, ← ite_or, content_value_iff]
  simp only [List.any_eq_true, sentinels_contains_iff_le, Value.pages.injEq, not_or, not_exists, not_and, not_le]

/-- The pages of a frame of the right length, written again, are its bytes; so the frame is built from its pages. -/
theorem pageListFrameResult_value_iff {f : List Byte} {ps : List U16} :
    pageListFrameResult f = .done (some (.pages ps)) ↔
      (1 ≤ ps.length ∧ ps.length ≤ 65532 ∧ ∀ x ∈ ps, x.toNat < 65533) ∧ f = pageListBytes ps := by
  rw [pageListFrameResult_eq, checks_value_iff, pagesResult_value_iff]
  simp only [not_or, not_not]
  constructor
  · rintro ⟨⟨hshort, hlen⟩, hsum, ⟨hcount, hpages⟩, rfl⟩
    obtain ⟨hpairs, hbytes⟩ := flatMap_pairs16 (pageBytes_length hlen)
    refine ⟨⟨by omega, by omega, hpages⟩, ?_⟩
    have hbody : f.dropLast = be16 (pairAt f 0) ++ pageBytes f := dropLast_eq_pairAt_append (by omega)
    have hfield : BitVec.ofNat 16 (pageCount f - 1) = pairAt f 0 := by
      rw [pageCount, Nat.add_sub_cancel, BitVec.ofNat_toNat, BitVec.setWidth_eq]
    rw [pageListBytes, hpairs, hbytes, hfield]
    exact (eq_withXor_iff (List.ne_nil_of_length_pos (by omega))).mpr ⟨hsum, hbody⟩
  · rintro ⟨⟨hpos, hcount, hpages⟩, rfl⟩
    rw [pageCount_pageListBytes ⟨hpos, by omega⟩, pageListBytes_length, pageBytes_pageListBytes, pairs16_flatMap]
    exact ⟨⟨by omega, rfl⟩, xorfold_withXor _, ⟨by omega, hpages⟩, rfl⟩

theorem specialFrameResult_value_iff {f : List Byte} {c : U16} : specialFrameResult f = .done (some (.code c)) ↔
    65533 ≤ c.toNat ∧ f = withXor (be16 c) := by
  rw [specialFrameResult_eq, checks_value_iff, content_value_iff]
  simp only [not_not, sentinels_contains_iff_le, Value.code.injEq]
  constructor
  · rintro ⟨hlen, hsum, hcode, rfl⟩
    obtain ⟨b0, b1, b2, rfl⟩ := List.length_eq_three.mp hlen
    exact ⟨hcode, (eq_withXor_iff (by simp)).mpr ⟨hsum, (be16_fromBe16 b0 b1).symm⟩⟩
  · rintro ⟨hcode, rfl⟩
    have hread : pairAt (withXor (be16 c)) 0 = c := fromBe16_be16 c
    exact ⟨rfl, xorfold_withXor _, hread.symm ▸ hcode, hread⟩

/-! ## A decoder answers operands exactly for the frame they build (R159, R160) -/

theorem decodeCmdFrame_iff_builds {f : List Byte} {op : Byte} :
    Answers (.decodeCmdFrame f) ⟨.ok, .none, none, none, some (.command op)⟩ ↔
      op ∈ commandSet ∧ Builds (.cmdFrame op) f := by
  rw [builds_cmdFrame, ← cmdFrameResult_value_iff]
  exact answers_decodeCmdFrame.trans eq_comm

theorem decodeAddrFrame_iff_builds {f : List Byte} {a : U32} :
    Answers (.decodeAddrFrame f) ⟨.ok, .none, none, none, some (.address a)⟩ ↔ Builds (.addrFrame a) f := by
  rw [builds_addrFrame, ← addrFrameResult_value_iff]
  exact answers_decodeAddrFrame.trans eq_comm

theorem decodeLenFrame_iff_builds {f : List Byte} {c : U32} :
    Answers (.decodeLenFrame f) ⟨.ok, .none, none, none, some (.count c)⟩ ↔ Builds (.lenFrame c) f := by
  rw [builds_lenFrame, ← lenFrameResult_value_iff]
  exact answers_decodeLenFrame.trans eq_comm

theorem decodePayloadFrame_iff_builds {f d : List Byte} {l : Byte} {c : Bool} :
    Answers (.decodePayloadFrame f) ⟨.ok, .none, none, none, some (.payload l d c)⟩ ↔
      Builds (.payloadFrame l d) f ∧ decide (l.toNat + 1 = d.length) = c := by
  rw [builds_payloadFrame, ← payloadFrameResult_value_iff]
  exact answers_decodePayloadFrame.trans eq_comm

theorem decodePageListFrame_iff_builds {f : List Byte} {ps : List U16} :
    Answers (.decodePageListFrame f) ⟨.ok, .none, none, none, some (.pages ps)⟩ ↔ Builds (.pageListFrame ps) f := by
  rw [builds_pageListFrame, ← pageListFrameResult_value_iff]
  exact answers_decodePageListFrame.trans eq_comm

theorem decodeSpecialEraseFrame_iff_builds {f : List Byte} {c : U16} :
    Answers (.decodeSpecialEraseFrame f) ⟨.ok, .none, none, none, some (.code c)⟩ ↔
      Builds (.specialEraseFrame c) f := by
  rw [builds_specialEraseFrame, ← specialFrameResult_value_iff]
  exact answers_decodeSpecialEraseFrame.trans eq_comm

/-! ## Built frames under the other answers of R159 -/

theorem cmdFrameResult_notACommand {op : Byte} (h : op ∉ commandSet) :
    cmdFrameResult [op, cpl op] = .err .notACommand (some op) none := by
  simp [cmdFrameResult, h]

theorem checkComplement_complementFrame {f : List Byte} {b : Byte} (h : f = [b, cpl b]) :
    Answers (.checkComplement f) ⟨.ok, .none, none, none, some (.bool true)⟩ := by
  have hgood : complementResult [b, cpl b] = .done (some (.bool true)) := by simp [complementResult]
  exact answers_checkComplement.mpr (h ▸ hgood.symm)

theorem checkXor_withXor {f body : List Byte} (h : f = withXor body) :
    Answers (.checkXor f) ⟨.ok, .none, none, none, some (.bool true)⟩ := by
  have hgood : xorResult (withXor body) = .done (some (.bool true)) := by simp [xorResult, withXor]
  exact answers_checkXor.mpr (h ▸ hgood.symm)

/-! ## One flipped bit (R129, R161) -/

/-- Checks whose second is the XOR checksum refuse a frame with a flipped bit. -/
theorem checks_flipBit_withXor {body : List Byte} {k j : Nat} {p : Prop} [Decidable p] (r : Result) (hp : ¬ p)
    (hk : k < (withXor body).length) (hj : j < 8) :
    (if p then badLength else if xorfold (flipBit (withXor body) k j) ≠ 0 then badSum else r) = badSum := by
  obtain ⟨hflip, -⟩ := singleBitFlipChangesChecksum
  exact checks_badSum r hp (hflip _ k j hk hj (xorfold_withXor body)).2

/-- A complement is good exactly when the two bytes fold to 0xFF. -/
theorem complement_iff_xorfold {f : List Byte} (h : f.length = 2) :
    f.getD 1 0 = cpl (f.getD 0 0) ↔ xorfold f = 0xFF := by
  obtain ⟨b0, b1, rfl⟩ := List.length_eq_two.mp h
  suffices b1 = b0 ^^^ 0xFF ↔ b0 ^^^ b1 = 0xFF by simpa [cpl] using this
  constructor
  · rintro rfl
    rw [← BitVec.xor_assoc, BitVec.xor_self, BitVec.zero_xor]
  · intro hfold
    rw [← hfold, ← BitVec.xor_assoc, BitVec.xor_self, BitVec.zero_xor]

/-- Checks whose second is the complement refuse a frame with a flipped bit: its bytes no longer fold to 0xFF. -/
theorem checks_flipBit_complementFrame {b : Byte} {k j : Nat} (r : Result) (hk : k < [b, cpl b].length) (hj : j < 8) :
    (if (flipBit [b, cpl b] k j).length ≠ 2 then badLength
      else if (flipBit [b, cpl b] k j).getD 1 0 ≠ cpl ((flipBit [b, cpl b] k j).getD 0 0) then badSum else r) =
    badSum := by
  have hlen : (flipBit [b, cpl b] k j).length = 2 := flipBit_length _ _ _
  have hfold : xorfold [b, cpl b] = 0xFF := (complement_iff_xorfold rfl).mp rfl
  refine checks_badSum r (not_not.mpr hlen) ?_
  rw [ne_eq, complement_iff_xorfold hlen, xorfold_flipBit j hk, hfold]
  exact xor_mask_ne hj 0xFF

theorem flipBit_getD {f : List Byte} {k : Nat} (i j : Nat) (hk : k < f.length) :
    (flipBit f k j).getD i 0 = if i = k then f.getD i 0 ^^^ (1#8 <<< j) else f.getD i 0 := by
  rw [List.getD_eq_getElem?_getD, List.getD_eq_getElem?_getD, flipBit, List.getElem?_modify]
  by_cases h : i = k
  · subst h
    simp [hk]
  · simp [h, Ne.symm h]

/-- A flipped bit of the count field changes the count. -/
theorem pageCount_flipBit_ne {f : List Byte} {k j : Nat} (hlen : k < f.length) (hk : k < 2) (hj : j < 8) :
    pageCount (flipBit f k j) ≠ pageCount f := by
  intro h
  obtain ⟨h0, h1⟩ := fromBe16_inj (BitVec.eq_of_toNat_eq (Nat.succ.inj h))
  have hbyte : (flipBit f k j).getD k 0 = f.getD k 0 := by
    match k, hk with
    | 0, _ => exact h0
    | 1, _ => exact h1
  rw [flipBit_getD k j hlen, if_pos rfl] at hbyte
  exact xor_mask_ne hj _ hbyte

theorem pageCount_flipBit_of_le {f : List Byte} {k : Nat} (j : Nat) (hlen : k < f.length) (hk : 2 ≤ k) :
    pageCount (flipBit f k j) = pageCount f := by
  rw [pageCount, pairAt, flipBit_getD _ _ hlen, flipBit_getD _ _ hlen, if_neg (by omega), if_neg (by omega)]
  rfl

/-- A flip in the count field is answered by the length check, a flip after it by the checksum. -/
theorem pageListFrameResult_flipBit {ps : List U16} {k j : Nat} (hps : 1 ≤ ps.length ∧ ps.length ≤ 65536)
    (hk : k < (pageListBytes ps).length) (hj : j < 8) :
    pageListFrameResult (flipBit (pageListBytes ps) k j) = if k < 2 then badLength else badSum := by
  have hcount := pageCount_pageListBytes hps
  rw [pageListFrameResult_eq, flipBit_length, pageListBytes_length]
  by_cases hfield : k < 2
  · have hne := pageCount_flipBit_ne hk hfield hj
    rw [if_pos hfield]
    exact if_pos (by omega)
  · have heq := pageCount_flipBit_of_le j hk (not_lt.mp hfield)
    rw [if_neg hfield]
    exact checks_flipBit_withXor _ (by omega) hk hj

/-! ## The statements -/

/-- Settles O24: a decoder answers operands exactly for the frame they build (`decodeAddrFrame_iff_builds` and the
others), so a frame built from two operands is decoded to both; a command frame and a write-protect frame show their
operand as it is. -/
theorem decodersAcceptOnlyBuiltFrames : Obligations.DecodersAcceptOnlyBuiltFrames := by
  refine ⟨fun _ _ h => (decodeCmdFrame_iff_builds.mp h).2, fun _ _ => decodeAddrFrame_iff_builds.mp,
    fun _ _ => decodeLenFrame_iff_builds.mp, fun _ _ _ _ h => (decodePayloadFrame_iff_builds.mp h).1,
    fun _ _ => decodePageListFrame_iff_builds.mp, fun _ _ => decodeSpecialEraseFrame_iff_builds.mp,
    fun f a b ha hb => ?cmd, fun f a b ha hb => ?addr, fun f a b ha hb => ?len, fun f l d l' d' h h' => ?payload,
    fun f p q hp hq => ?pageList, fun f a b ha hb => ?special, fun f p q hp hq => ?wpPage⟩
  case cmd => exact List.head_eq_of_cons_eq ((builds_cmdFrame.mp ha).symm.trans (builds_cmdFrame.mp hb))
  case addr =>
    exact Value.address.inj
      (answers_value_unique (decodeAddrFrame_iff_builds.mpr ha) (decodeAddrFrame_iff_builds.mpr hb))
  case len =>
    exact Value.count.inj (answers_value_unique (decodeLenFrame_iff_builds.mpr ha) (decodeLenFrame_iff_builds.mpr hb))
  case payload =>
    obtain ⟨hl, hd, -⟩ := Value.payload.inj (answers_value_unique (decodePayloadFrame_iff_builds.mpr ⟨h, rfl⟩)
      (decodePayloadFrame_iff_builds.mpr ⟨h', rfl⟩))
    exact ⟨hl, hd⟩
  case pageList =>
    exact Value.pages.inj
      (answers_value_unique (decodePageListFrame_iff_builds.mpr hp) (decodePageListFrame_iff_builds.mpr hq))
  case special =>
    exact Value.code.inj
      (answers_value_unique (decodeSpecialEraseFrame_iff_builds.mpr ha) (decodeSpecialEraseFrame_iff_builds.mpr hb))
  case wpPage =>
    obtain ⟨-, hp⟩ := builds_wpPageFrame.mp hp
    obtain ⟨-, hq⟩ := builds_wpPageFrame.mp hq
    exact List.tail_eq_of_cons_eq (withXor_inj (hp.symm.trans hq))

/-- Settles O20: `payloadFrameResult_eq` is the rule's checks and value. -/
theorem decodePayloadFrameResult : Obligations.DecodePayloadFrameResult := fun f =>
  answers_decodePayloadFrame.mpr (payloadFrameResult_eq f).symm

/-- Settles O21: the two length checks of the rule are one disjunction in `pageListFrameResult_eq_pairs`. -/
theorem decodePageListFrameResult : Obligations.DecodePageListFrameResult := fun f =>
  answers_decodePageListFrame.mpr <| by
    simp only [← pairAt_eq_ofNat]
    rw [pageListFrameResult_eq_pairs, ite_or, pagesResult_eq]
    rfl

/-- Settles O23: the other direction of the equivalences that settle O24; CMD_FRAME alone builds frames that its decoder
refuses, and the bare checks look at the checksum alone. -/
theorem decodersReadBuiltFrames : Obligations.DecodersReadBuiltFrames := by
  refine ⟨fun op f h => ?cmd, fun _ _ => decodeAddrFrame_iff_builds.mpr, fun _ _ => decodeLenFrame_iff_builds.mpr,
    fun _ _ _ h => decodePayloadFrame_iff_builds.mpr ⟨h, rfl⟩, fun _ _ => decodePageListFrame_iff_builds.mpr,
    fun _ _ => decodeSpecialEraseFrame_iff_builds.mpr, fun i f hi h => ?xor, fun i f hi h => ?complement⟩
  case cmd =>
    split_ifs with hop
    · exact decodeCmdFrame_iff_builds.mpr ⟨hop, h⟩
    · obtain rfl := builds_cmdFrame.mp h
      exact answers_decodeCmdFrame.mpr (cmdFrameResult_notACommand hop).symm
  case xor =>
    obtain ⟨a, rfl⟩ | ⟨l, d, rfl⟩ | ⟨p, rfl⟩ | ⟨c, rfl⟩ | ⟨p, rfl⟩ := hi
    · exact checkXor_withXor (builds_addrFrame.mp h)
    · exact checkXor_withXor (builds_payloadFrame.mp h).2
    · exact checkXor_withXor (builds_pageListFrame.mp h).2
    · exact checkXor_withXor (builds_specialEraseFrame.mp h).2
    · exact checkXor_withXor (builds_wpPageFrame.mp h).2
  case complement =>
    obtain ⟨op, rfl⟩ | ⟨c, rfl⟩ := hi
    · exact checkComplement_complementFrame (builds_cmdFrame.mp h)
    · exact checkComplement_complementFrame (builds_lenFrame.mp h).2

/-- Settles O25: a flip keeps the length and breaks either checksum (`checks_flipBit_withXor`,
`checks_flipBit_complementFrame`); in a page-list frame it may change the count first (`pageListFrameResult_flipBit`). -/
theorem decodersReportSingleBitCorruption : Obligations.DecodersReportSingleBitCorruption := by
  refine fun f k j hk hj => ⟨fun op h => ?cmd, fun addr h => ?addr, fun count h => ?len, fun l d h => ?payload,
    fun pages h => ?pageList, fun code h => ?special⟩
  case cmd =>
    obtain rfl := builds_cmdFrame.mp h
    rw [answers_decodeCmdFrame, cmdFrameResult_eq]
    exact (checks_flipBit_complementFrame _ hk hj).symm
  case addr =>
    obtain rfl := builds_addrFrame.mp h
    rw [answers_decodeAddrFrame, addrFrameResult_eq]
    exact (checks_flipBit_withXor _ (not_not.mpr (flipBit_length _ k j)) hk hj).symm
  case len =>
    obtain ⟨-, rfl⟩ := builds_lenFrame.mp h
    rw [answers_decodeLenFrame, lenFrameResult_eq]
    exact (checks_flipBit_complementFrame _ hk hj).symm
  case payload =>
    obtain ⟨hrange, rfl⟩ := builds_payloadFrame.mp h
    have hlen : (flipBit (withXor (l :: d)) k j).length = d.length + 2 := by
      rw [flipBit_length, (withXor_frame _).1, List.length_cons]
    rw [answers_decodePayloadFrame, payloadFrameResult_eq]
    exact (checks_flipBit_withXor _ (by omega) hk hj).symm
  case pageList =>
    obtain ⟨⟨hpos, hcount, -⟩, rfl⟩ := builds_pageListFrame.mp h
    exact answers_decodePageListFrame.mpr (pageListFrameResult_flipBit ⟨hpos, by omega⟩ hk hj).symm
  case special =>
    obtain ⟨-, rfl⟩ := builds_specialEraseFrame.mp h
    rw [answers_decodeSpecialEraseFrame, specialFrameResult_eq]
    exact (checks_flipBit_withXor _ (not_not.mpr (flipBit_length _ k j)) hk hj).symm

/-- Settles O16: `complementResult_eq` and `xorResult_eq` are the two rules. -/
theorem bareChecksumChecks : Obligations.BareChecksumChecks :=
  ⟨fun f => answers_checkComplement.mpr (complementResult_eq f).symm,
    fun f => answers_checkXor.mpr (xorResult_eq f).symm⟩

/-- Settles O17: `cmdFrameResult_eq` is the rule's checks and value. -/
theorem decodeCmdFrameResult : Obligations.DecodeCmdFrameResult := fun f =>
  answers_decodeCmdFrame.mpr (cmdFrameResult_eq f).symm

/-- Settles O18: the four bytes as a sum (`fromBe32_eq_ofNat`). -/
theorem decodeAddrFrameResult : Obligations.DecodeAddrFrameResult := fun f => answers_decodeAddrFrame.mpr <| by
  rw [addrFrameResult_eq, fromBe32_eq_ofNat]
  rfl

/-- Settles O19: one more than a byte does not wrap in `u32` (`zeroExtend_add_one_eq_ofNat`). -/
theorem decodeLenFrameResult : Obligations.DecodeLenFrameResult := fun f => answers_decodeLenFrame.mpr <| by
  rw [lenFrameResult_eq, zeroExtend_add_one_eq_ofNat]
  rfl

/-- Settles O22: a code that is no sentinel is none of the three (`sentinels_contains`). -/
theorem decodeSpecialEraseFrameResult : Obligations.DecodeSpecialEraseFrameResult := fun f =>
  answers_decodeSpecialEraseFrame.mpr <| by
    simp only [specialFrameResult_eq, sentinels_contains, not_or, pairAt_eq_ofNat]
    rfl

end Sys2Proof.Proofs

end

/-! # Proofs: 43_handshake.md -/

section

namespace Sys2Proof.Proofs

open Sys2Proof.Machine

/-! ## Link operations as requests (R184, R216) -/

/-- What an operation asks of SYNC before it is accepted (R180, R216). -/
def dutyOf (i : Instr) : SyncDuty := if i = .autobaudInit then .unsynced else .synced

/-- A link operation is a request for its step list; its own check passes where it is admissible. -/
theorem exec_linkOp {i : Instr} (hi : isLinkOp i = true) : ∃ c, (Admissible i → c = none) ∧
    ∀ s, exec i s = .next (s.request i (dutyOf i) c (planOf i)) := by
  cases i
  case autobaudInit | awaitAck | pollAwaitAck | txnGet | txnGetRps | txnGetId | txnWriteUnprotect | txnReadoutProtect
      | txnReadoutUnprotect =>
    exact ⟨none, fun _ => rfl, fun _ => rfl⟩
  case sendCommand op =>
    exact ⟨commandCheck op, fun h => if_pos (List.contains_iff_mem.mpr h), fun _ => rfl⟩
  case sendFrame frame =>
    exact ⟨checked (nonEmptyCheck frame), fun h => congrArg checked (if_neg (mt List.eq_nil_of_length_eq_zero h)),
      fun _ => rfl⟩
  case txnReadChunk => exact ⟨_, fun h => congrArg checked (rangeCheck_none h), fun _ => rfl⟩
  case txnWriteChunk =>
    exact ⟨_, fun h => congrArg checked ((writeChunkCheck_aligned _ h.1).trans (rangeCheck_none h.2)), fun _ => rfl⟩
  case txnErasePages => exact ⟨_, fun h => congrArg checked (pageListCheck_none.mpr h), fun _ => rfl⟩
  case txnEraseSpecial => exact ⟨_, fun h => congrArg checked (specialCheck_none.mpr h), fun _ => rfl⟩
  case txnWriteProtect => exact ⟨_, fun h => congrArg checked (rangeCheck_none h), fun _ => rfl⟩
  all_goals cases hi

theorem isLinkOp_of_admissible {i : Instr} (h : Admissible i) : isLinkOp i = true := by
  cases i
  case autobaudInit | sendCommand | awaitAck | pollAwaitAck | sendFrame | txnGet | txnGetRps | txnGetId | txnReadChunk
      | txnWriteChunk | txnErasePages | txnEraseSpecial | txnWriteProtect | txnWriteUnprotect | txnReadoutProtect
      | txnReadoutUnprotect => rfl
  all_goals exact absurd h not_false

/-- A link operation the flags refuse is answered with their reason, whatever its operands. -/
theorem exec_refused {i : Instr} {s : State} {r : Reason} (hi : isLinkOp i = true)
    (h : s.admission (dutyOf i) = some r) : exec i s = .next (s.answer (selector i) (.err r none none)) := by
  obtain ⟨c, -, hx⟩ := exec_linkOp hi
  rw [hx, request_refused h]

/-- An admissible operation that comes to an idle block with the SYNC it asks for runs its steps from acceptance. -/
theorem exec_accepted {i : Instr} {s : State} (ha : Admissible i) (hb : s.busy = false)
    (hs : s.sync = false ↔ i = .autobaudInit) :
    exec i s = .next (runSteps (planOf i).kind (planOf i).steps (s.accept i)) := by
  have admitted : s.admission (dutyOf i) = none := by
    by_cases hinit : i = .autobaudInit
    · rw [dutyOf, if_pos hinit, admission_unsynced hb, hs.mpr hinit]; rfl
    · rw [dutyOf, if_neg hinit, admission_synced hb, if_pos (by simpa using mt hs.mp hinit)]
  obtain ⟨c, hc, hx⟩ := exec_linkOp (isLinkOp_of_admissible ha)
  rw [hx, hc ha, request_runs admitted]

/-- Settles O32: the flags are looked at first, BUSY before SYNC, and a refusal is an answer alone (`exec_refused`). -/
theorem linkOperationsRefusedByFlags : Obligations.LinkOperationsRefusedByFlags := by
  intro i s hi
  refine ⟨fun hb => exec_refused (r := .busy) hi (admission_busy hb),
    fun hb hs h => exec_refused (r := .alreadySynced) hi ?init,
    fun hb hs h => exec_refused (r := .notSynced) hi ?other⟩
  case init => rw [dutyOf, if_pos h, admission_unsynced hb, hs]; rfl
  case other => rw [dutyOf, if_neg h, admission_synced hb, hs]; rfl

/-! ## An accepted primitive against answers already held (R180 to R182, R185, R186) -/

theorem runSteps_tx_ok {k : ValueKind} {frame : List Byte} {site : Option Site} {ms : List Micro} {s : State}
    {q : List TxOutcome} (h : s.txq = .ok :: q) : runSteps k (.tx frame site :: ms) s =
      runSteps k ms ({ s with txq := q }.log (.tx frame .ok)).nextStep := runSteps_completed (txStep_ok h)

theorem runSteps_tx_fail {k : ValueKind} {frame : List Byte} {site : Option Site} {ms : List Micro} {s : State}
    {q : List TxOutcome} (h : s.txq = .fail :: q) : runSteps k (.tx frame site :: ms) s =
      ({ s with txq := q }.log (.tx frame .fail)).finish ⟨.transportFailure, .txFail, none, site, none⟩ :=
  runSteps_ended (txStep_fail h)

theorem runSteps_initAck_fails {k : ValueKind} {ms : List Micro} {s : State} {q : List (Option Byte)}
    (h : s.rxq = none :: q) : runSteps k (.initAck :: ms) s =
      ({ s with rxq := q }.log (.rx 1 .fail)).finish ⟨.protocolViolation, .initReadFailed, none, none, none⟩ :=
  runSteps_ended (m := .initAck) (rxByte_fails h)

theorem runSteps_initAck_other {k : ValueKind} {ms : List Micro} {s : State} {b : Byte} {q : List (Option Byte)}
    (h : s.rxq = some b :: q) (hb : b ≠ 0x79) : runSteps k (.initAck :: ms) s =
      ({ s with rxq := q }.log (.rx 1 (.ok [b]))).finish ⟨.protocolViolation, .initNoAck, some b, none, none⟩ :=
  runSteps_ended (m := .initAck) ((rxByte_gets h).trans (if_neg hb))

theorem runSteps_initAck_ack {k : ValueKind} {ms : List Micro} {s : State} {q : List (Option Byte)}
    (h : s.rxq = some 0x79 :: q) : runSteps k (.initAck :: ms) s =
      runSteps k ms { ({ s with rxq := q }.log (.rx 1 (.ok [0x79]))).nextStep with sync := true } :=
  runSteps_completed (m := .initAck) (rxByte_gets h)

/-- What a primitive makes of a response byte: ACK and NACK are values, any other byte is a violation (R181, R183). -/
def responseResult (b : Byte) : Result :=
  if b = 0x79 then ⟨.ok, .none, none, none, some (.response .ack)⟩
  else if b = 0x1F then ⟨.ok, .none, none, none, some (.response .nack)⟩
  else ⟨.protocolViolation, .unexpectedByte, some b, none, none⟩

theorem responseByte_eq (b : Byte) (s : State) : responseByte b s = .ended (responseResult b) s := by
  unfold responseByte classify responseResult
  split_ifs <;> rfl

theorem runSteps_response_fails {k : ValueKind} {ms : List Micro} {s : State} {q : List (Option Byte)}
    (h : s.rxq = none :: q) : runSteps k (.response :: ms) s =
      ({ s with rxq := q }.log (.rx 1 .fail)).finish ⟨.transportFailure, .rxFail, none, none, none⟩ :=
  runSteps_ended (m := .response) (rxByte_fails h)

theorem runSteps_response_gets {k : ValueKind} {ms : List Micro} {s : State} {b : Byte} {q : List (Option Byte)}
    (h : s.rxq = some b :: q) : runSteps k (.response :: ms) s =
      ({ s with rxq := q }.log (.rx 1 (.ok [b]))).finish (responseResult b) :=
  runSteps_ended (m := .response) ((rxByte_gets h).trans (responseByte_eq b _))

/-- A poll counts the failed reads before the first byte, which ends it whatever its value (R186). -/
theorem perform_pollResponse_gets {s : State} {n : Nat} {b : Byte} {q : List (Option Byte)} (hn : n < s.budget)
    (h : s.rxq = List.replicate n none ++ some b :: q) :
    perform .pollResponse (s.enter .pollResponse) = .ended (responseResult b) { s with
      att := n, rxq := q, hist := s.hist ++ List.replicate n (.rx 1 .fail) ++ [.rx 1 (.ok [b])] } := by
  rw [perform, enter_rxq, h, pollLoop_fails n _ _ (by simpa [State.enter] using hn), pollLoop, responseByte_eq]
  simp [State.log, State.enter]

/-- As many failed reads as the budget end a poll (R186). -/
theorem perform_pollResponse_exhausts {s : State} {q : List (Option Byte)} (hn : 1 ≤ s.budget)
    (h : s.rxq = List.replicate s.budget none ++ q) :
    perform .pollResponse (s.enter .pollResponse) =
      .ended ⟨.transportFailure, .pollBudgetExhausted, none, none, none⟩ { s with
        att := s.budget, rxq := q, hist := s.hist ++ List.replicate s.budget (.rx 1 .fail) } := by
  rw [perform, enter_rxq, h, pollLoop_exhausts s.budget _ _ hn (by simp [State.enter])]
  simp [State.enter, Result.err, Reason.status]

/-- The end of an operation that began in the idle block `s`: BUSY is what it was before. -/
theorem finish_idle {s : State} (hb : s.busy = false) (u : State) (r : Result) : u.finish r = { u with
    sync := if r.status = .protocolViolation then false else u.sync, busy := s.busy, cur := none
    results := u.results ++ [⟨u.txn, r⟩] } := by
  rw [hb]
  rfl

/-- SYNC, set before a response byte, stays set on ACK and NACK alone (R181, R184). -/
theorem finish_responseResult {s u : State} (hb : s.busy = false) (hs : u.sync = true) (b : Byte) :
    u.finish (responseResult b) = { u with
      sync := decide (b = 0x79 ∨ b = 0x1F), busy := s.busy, cur := none
      results := u.results ++ [⟨u.txn, responseResult b⟩] } := by
  have hsync : (if (responseResult b).status = .protocolViolation then false else u.sync) =
      decide (b = 0x79 ∨ b = 0x1F) := by
    rw [hs, responseResult]
    split_ifs <;> simp_all
  rw [finish_idle hb, hsync]

/-- An admitted primitive other than INIT runs the steps of its plan. -/
theorem exec_primitive {i : Instr} {s : State} {ms : List Micro} (ha : Admissible i) (hi : i ≠ .autobaudInit)
    (hp : planOf i = ⟨ms, .nothing⟩) (hb : s.busy = false) (hs : s.sync = true) :
    exec i s = .next (runSteps .nothing ms (s.accept i)) := by
  rw [exec_accepted ha hb (by simp [hs, hi]), hp]

/-- Settles O27: after the sync byte INIT's answer is a failed read, ACK, or another byte (`runSteps_initAck_fails` and
the others). -/
theorem initOutcomes : Obligations.InitOutcomes := by
  intro s tq rq b
  obtain ⟨busy, alreadySynced, -⟩ := linkOperationsRefusedByFlags .autobaudInit s rfl
  have accepted (hb : s.busy = false) (hs : s.sync = false) : exec .autobaudInit s =
      .next (runSteps .nothing [.tx [0x7F] none, .initAck] (s.accept .autobaudInit)) :=
    exec_accepted trivial hb (by simp [hs])
  refine ⟨busy, fun hb hs => alreadySynced hb hs rfl, fun hb hs ht => ?txFails, fun hb hs ht hr => ?rxFails,
    fun hb hs ht hr hne => ?noAck, fun hb hs ht hr => ?ack⟩
  case txFails =>
    rw [accepted hb hs, runSteps_tx_fail (by exact ht), finish_idle hb]
    simp [selector]
  case rxFails =>
    rw [accepted hb hs, runSteps_tx_ok (by exact ht), runSteps_initAck_fails (by exact hr), finish_idle hb]
    simp [selector, hs]
  case noAck =>
    rw [accepted hb hs, runSteps_tx_ok (by exact ht), runSteps_initAck_other (by exact hr) hne, finish_idle hb]
    simp [selector, hs]
  case ack =>
    rw [accepted hb hs, runSteps_tx_ok (by exact ht), runSteps_initAck_ack (by exact hr), runSteps_nil, finish_idle hb]
    simp [selector, Result.done, ValueKind.value]

/-- Settles O28: a command is written and one response byte read (`responseResult`). -/
theorem sendCommandOutcomes : Obligations.SendCommandOutcomes := by
  intro s op b tq rq
  obtain ⟨busy, -, notSynced⟩ := linkOperationsRefusedByFlags (.sendCommand op) s rfl
  have accepted (hop : op ∈ commandSet) := exec_primitive (i := .sendCommand op) (s := s) hop nofun rfl
  refine ⟨busy, fun hb hs => notSynced hb hs nofun, fun hb hs hop => ?unknown, fun hb hs hop ht => ?txFails,
    fun hb hs hop ht hr => ?rxFails, fun hb hs hop ht hr => ?gets⟩
  case unknown =>
    have hcheck : commandCheck op = some (.err .unknownCommand (some op) none) := if_neg (by simpa using hop)
    have admitted : s.admission .synced = none := by rw [admission_synced hb, if_pos hs]
    rw [exec, execSendCommand, hcheck, request_checked admitted]
    rfl
  case txFails =>
    rw [accepted hop hb hs, runSteps_tx_fail (by exact ht), finish_idle hb]
    simp [selector, commandFrame, cpl]
  case rxFails =>
    rw [accepted hop hb hs, runSteps_tx_ok (by exact ht), runSteps_response_fails (by exact hr), finish_idle hb]
    simp [selector, commandFrame, cpl]
  case gets =>
    rw [accepted hop hb hs, runSteps_tx_ok (by exact ht), runSteps_response_gets (by exact hr),
      finish_responseResult hb (by exact hs)]
    simp [selector, commandFrame, cpl, responseResult]

/-- Settles O31: the poll ends at its first byte (`perform_pollResponse_gets`) or when its budget is used up
(`perform_pollResponse_exhausts`). -/
theorem pollAwaitAckOutcomes : Obligations.PollAwaitAckOutcomes := by
  intro s fails b rq
  obtain ⟨busy, -, notSynced⟩ := linkOperationsRefusedByFlags .pollAwaitAck s rfl
  have accepted := exec_primitive (i := .pollAwaitAck) (s := s) trivial nofun rfl
  refine ⟨busy, fun hb hs => notSynced hb hs nofun, fun hb hs hn hr => ?gets, fun hb hs hn hr => ?exhausts⟩
  case gets =>
    rw [accepted hb hs, runSteps_ended (perform_pollResponse_gets (s := s.accept _) hn hr),
      finish_responseResult hb (by exact hs)]
    simp [selector, responseResult]
  case exhausts =>
    rw [accepted hb hs, runSteps_ended (perform_pollResponse_exhausts (s := s.accept _) hn hr),
      finish_idle hb]
    simp [selector]

/-- Settles O29: one response byte is read (`responseResult`) and nothing is written. -/
theorem awaitAckOutcomes : Obligations.AwaitAckOutcomes := by
  intro s b rq
  obtain ⟨busy, -, notSynced⟩ := linkOperationsRefusedByFlags .awaitAck s rfl
  have accepted := exec_primitive (i := .awaitAck) (s := s) trivial nofun rfl
  refine ⟨busy, fun hb hs => notSynced hb hs nofun, fun hb hs hr => ?fails, fun hb hs hr => ?gets⟩
  case fails =>
    rw [accepted hb hs, runSteps_response_fails (by exact hr), finish_idle hb]
    simp [selector]
  case gets =>
    rw [accepted hb hs, runSteps_response_gets (by exact hr), finish_responseResult hb (by exact hs)]
    simp [selector, responseResult]

/-- Settles O30: an empty frame fails the operation's own check (`exec_check_fails`); any other is one write. -/
theorem sendFrameOutcomes : Obligations.SendFrameOutcomes := by
  intro s frame tq
  obtain ⟨busy, -, notSynced⟩ := linkOperationsRefusedByFlags (.sendFrame frame) s rfl
  have accepted (hf : frame ≠ []) := exec_primitive (i := .sendFrame frame) (s := s) hf nofun rfl
  refine ⟨busy, fun hb hs => notSynced hb hs nofun, fun hb hs hf => ?empty, fun hb hs hf ht => ?fails,
    fun hb hs hf ht => ?sent⟩
  case empty =>
    have hcheck : nonEmptyCheck frame = some .range := if_pos (congrArg List.length hf)
    exact exec_check_fails hb hs rfl hcheck
  case fails =>
    rw [accepted hf hb hs, runSteps_tx_fail (by exact ht), finish_idle hb]
    simp [selector]
  case sent =>
    rw [accepted hf hb hs, runSteps_tx_ok (by exact ht), runSteps_nil, finish_idle hb]
    simp [selector, Result.done, ValueKind.value]

/-! ## An answer that comes to a waiting step (R183, R187, R210, R271) -/

theorem step_of_no_instr {s : State} {inp : Input} {rest : List Input} (hi : s.inputs = inp :: rest)
    (hf : fetch inp = none) : step s = outside inp { s with inputs := rest } := by simp [step, hi, hf]

theorem step_txAnswer {s : State} {o : TxOutcome} {rest : List Input} (hi : s.inputs = .txAnswer o :: rest) :
    step s = .next (State.more [o] [] { s with inputs := rest }).resume := by
  rw [step_of_no_instr hi rfl, ← txAnswered_eq_more]
  rfl

theorem step_readFails {s : State} {rest : List Input} (hi : s.inputs = .readFails :: rest) :
    step s = .next (State.more [] [none] { s with inputs := rest }).resume := by
  rw [step_of_no_instr hi rfl, ← readFails_eq_more]
  rfl

theorem decodeFromDevice_other {b : Byte} (h : b ≠ 0x79) (h' : b ≠ 0x1F) : decodeFromDevice [b] = none :=
  (if_neg h).trans (if_neg h')

/-- A byte of the device that is no row of the table arrives as it is. -/
theorem step_otherByte {s : State} {b : Byte} {rest : List Input} (h : b ≠ 0x79) (h' : b ≠ 0x1F)
    (hi : s.inputs = .port .fromDevice [b] :: rest) :
    step s = .next (State.more [] [some b] { s with inputs := rest }).resume := by
  have hf : fetch (.port .fromDevice [b]) = none := by
    simp only [fetch, decode, decodeFromDevice_other h h', Option.map_none]
  rw [step_of_no_instr hi hf]
  exact congrArg _ (bytesArrive_eq_more [b] _)

theorem exec_wireAck (s : State) : exec .wireAck s = .next (s.more [] [some 0x79]).resume :=
  congrArg _ (bytesArrive_eq_more [0x79] s)

theorem currentStep_eq_some {s : State} {m : Micro} (h : s.currentStep = some m) :
    s.busy = true ∧ ∃ i, s.cur = some i ∧ (planOf i).steps[s.spc]? = some m := by
  unfold State.currentStep at h
  split at h
  · exact ⟨‹_›, Option.bind_eq_some_iff.mp h⟩
  · cases h

/-- Where the step it waits in ends it, the operation in flight is finished with that result. -/
theorem resume_ended {s u : State} {m : Micro} {r : Result} (hm : s.currentStep = some m)
    (hp : perform m s = .ended r u) : s.resume = u.finish r := by
  obtain ⟨hb, i, hc, hi⟩ := currentStep_eq_some hm
  rw [resume_busy hb hc, resume_step hi, hp]

/-! ### The one answer held -/

theorem more_sent {s : State} (ht : s.txq = []) (o : TxOutcome) : { s.more [o] [] with txq := [] } = s := by
  simp [State.more, ← ht]

theorem more_taken {s : State} (hr : s.rxq = []) (a : Option Byte) : { s.more [] [a] with rxq := [] } = s := by
  simp [State.more, ← hr]

theorem more_rxq {s : State} (hr : s.rxq = []) (a : Option Byte) : (s.more [] [a]).rxq = [a] := by
  simp [State.more, hr]

theorem perform_tx_more_fail {s : State} (ht : s.txq = []) (frame : List Byte) (site : Option Site) :
    perform (.tx frame site) (s.more [.fail] []) = .ended (.err .txFail none site) (s.log (.tx frame .fail)) := by
  have hq : (s.more [.fail] []).txq = [.fail] := by simp [State.more, ht]
  rw [perform, txStep_fail hq, more_sent ht]

theorem rxStep_fails {n : Nat} {r : Result} {g : List Byte → State → Progress} {s : State} {q : List (Option Byte)}
    (hn : n ≠ 0) (h : s.rxq = none :: q) : rxStep n r g s = .ended r ({ s with rxq := q }.log (.rx n .fail)) := by
  obtain ⟨k, rfl⟩ := Nat.exists_eq_succ_of_ne_zero hn
  simp [rxStep, h, takeRx]

theorem rxByte_more_gets {s : State} (hr : s.rxq = []) (r : Result) (g : Byte → State → Progress) (b : Byte) :
    rxByte r g (s.more [] [some b]) = g b (s.log (.rx 1 (.ok [b]))) := by
  rw [rxByte_gets (more_rxq hr _), more_taken hr]

theorem pollLoop_more_gets {s : State} (hr : s.rxq = []) (r : Result) (g : Byte → State → Progress) (b : Byte) :
    pollLoop r g (s.more [] [some b]).rxq (s.more [] [some b]) = g b (s.log (.rx 1 (.ok [b]))) := by
  rw [more_rxq hr, pollLoop, more_taken hr]

/-- A step in which a transaction reads its handshake byte (R210). -/
def IsHandshake (site : Site) (m : Micro) : Prop := m = .ack site ∨ m = .poll site

theorem handshake_of_currentStep {s : State} {site : Site}
    (h : s.currentStep = some (.ack site) ∨ s.currentStep = some (.poll site)) :
    ∃ m, s.currentStep = some m ∧ IsHandshake site m :=
  h.elim (fun h => ⟨_, h, .inl rfl⟩) (fun h => ⟨_, h, .inr rfl⟩)

theorem perform_handshake_more {s : State} {m : Micro} {site : Site} (hm : IsHandshake site m) (hr : s.rxq = [])
    (b : Byte) : perform m (s.more [] [some b]) = ackByte site b (s.log (.rx 1 (.ok [b]))) := by
  rcases hm with rfl | rfl
  · exact rxByte_more_gets hr _ _ b
  · exact pollLoop_more_gets hr _ _ b

theorem perform_response_more {s : State} {m : Micro} (hm : m = .response ∨ m = .pollResponse) (hr : s.rxq = [])
    (b : Byte) : perform m (s.more [] [some b]) = .ended (responseResult b) (s.log (.rx 1 (.ok [b]))) := by
  rw [← responseByte_eq]
  rcases hm with rfl | rfl
  · exact rxByte_more_gets hr _ _ b
  · exact pollLoop_more_gets hr _ _ b

/-- Settles O26: at a handshake site the byte's class is all that counts (`perform_handshake_more`). -/
theorem responseByteOutcomes : Obligations.ResponseByteOutcomes := by
  refine fun b => ⟨rfl, fun s site rest h h' hr hm hi => ?_⟩
  obtain ⟨m, hcur, hsite⟩ := handshake_of_currentStep hm
  have hp := perform_handshake_more (s := { s with inputs := rest }) hsite hr b
  rw [ackByte, classify_other h h'] at hp
  rw [step_otherByte h h' hi, resume_ended (by exact hcur) hp]
  rfl

/-- In state `s`, step `m` reads `n` bytes, and a failed read ends the operation with `r`: every read but a poll's
(R180, R187, R210). -/
inductive ReadEnds (s : State) : Micro → Nat → Result → Prop
  | ack (site : Site) : ReadEnds s (.ack site) 1 (.err .rxFail none (some site))
  | len : ReadEnds s .len 1 (.err .rxFail none (some .lenByte))
  | data (n : DataCount) (hn : n.bytes s ≠ 0) : ReadEnds s (.data n) (n.bytes s) (.err .rxFail none (some .data))
  | response : ReadEnds s .response 1 (.err .rxFail none none)
  | initAck : ReadEnds s .initAck 1 (.err .initReadFailed none none)

theorem perform_more_readFails {s : State} {m : Micro} {n : Nat} {r : Result} (h : ReadEnds s m n r)
    (hr : s.rxq = []) : perform m (s.more [] [none]) = .ended r (s.log (.rx n .fail)) := by
  have hq := more_rxq hr none
  cases h with
  | ack | len | response | initAck => rw [perform, rxByte_fails hq, more_taken hr]
  | data n hn =>
    have hbytes : n.bytes (s.more [] [none]) = n.bytes s := by cases n <;> rfl
    rw [perform, hbytes, dataStep, if_neg hn, rxStep_fails hn hq, more_taken hr]

/-- A failed read ends the operation that waits for it. -/
theorem step_readFails_ends {s : State} {m : Micro} {n : Nat} {r : Result} {rest : List Input}
    (hm : s.currentStep = some m) (h : ReadEnds s m n r) (hr : s.rxq = []) (hi : s.inputs = .readFails :: rest) :
    step s = .next ((State.log (.rx n .fail) { s with inputs := rest }).finish r) := by
  have taken : ReadEnds { s with inputs := rest } m n r := by
    cases h with
    | ack site => exact .ack site
    | len => exact .len
    | data n hn => cases n <;> exact .data _ hn
    | response => exact .response
    | initAck => exact .initAck
  rw [step_readFails hi, resume_ended (by exact hm) (perform_more_readFails taken hr)]

/-- Settles O46: the write's failure, and one kind of failed read for each read that is no poll's (`ReadEnds`). -/
theorem transportFailureEndsOperation : Obligations.TransportFailureEndsOperation := by
  intro s m rest hm
  refine ⟨fun frame site h ht hi => ?write, fun site h hr hi => ?handshake, fun n h hn hr hi => ?data,
    fun h hr hi => ?response, fun h hr hi => ?init⟩
  case write =>
    subst h
    rw [step_txAnswer hi, resume_ended (by exact hm) (perform_tx_more_fail (by exact ht) frame site)]
    rfl
  case handshake =>
    rcases h with rfl | ⟨rfl, rfl⟩
    · exact step_readFails_ends hm (.ack site) hr hi
    · exact step_readFails_ends hm .len hr hi
  case data => subst h; exact step_readFails_ends hm (.data n hn) hr hi
  case response => subst h; exact step_readFails_ends hm .response hr hi
  case init => subst h; exact step_readFails_ends hm .initAck hr hi

/-! ## Steps that wait for an answer that is not there (R227) -/

/-- With nothing held, the step waits as soon as it starts, and changes nothing. -/
def WaitsAtOnce (m : Micro) : Prop :=
  ∀ s : State, s.txq = [] → s.rxq = [] → perform m (s.enter m) = .waiting s

theorem waitsAtOnce_tx (frame : List Byte) (site : Option Site) : WaitsAtOnce (.tx frame site) :=
  fun _ ht _ => txStep_waits ht

theorem waitsAtOnce_ack (site : Site) : WaitsAtOnce (.ack site) := fun _ _ hr => rxByte_waits hr

theorem waitsAtOnce_len : WaitsAtOnce .len := fun _ _ hr => rxByte_waits hr

theorem waitsAtOnce_response : WaitsAtOnce .response := fun _ _ hr => rxByte_waits hr

theorem waitsAtOnce_data {n : Nat} (hn : 1 ≤ n) : WaitsAtOnce (.data (.fixed n)) := by
  intro s _ hr
  obtain ⟨k, rfl⟩ : ∃ k, n = k + 1 := ⟨n - 1, by omega⟩
  have hq : takeRx (k + 1) s.rxq = .nothing := by rw [hr]; rfl
  show dataStep (k + 1) s = .waiting s
  rw [dataStep, if_neg k.succ_ne_zero, rxStep_waits hq]

/-- The step `m'`, which follows `m`, waits at once if `m` is a handshake. -/
def HandshakeThenWaits (m m' : Micro) : Prop := (∃ site, IsHandshake site m) → WaitsAtOnce m'

/-- After a handshake an admissible operation writes a frame, reads another handshake, or reads at least one byte (R212
to R225). -/
theorem planOf_handshakeThenWaits {i : Instr} (ha : Admissible i) :
    (planOf i).steps.IsChain HandshakeThenWaits := by
  have one : WaitsAtOnce (.data (.fixed 1)) := waitsAtOnce_data le_rfl
  cases i
  case autobaudInit | sendCommand | awaitAck | pollAwaitAck | sendFrame =>
    simp [planOf, planInit, planSendCommand, planAwaitAck, planPollAwaitAck, planSendFrame, HandshakeThenWaits,
      IsHandshake]
  case txnGet | txnGetRps | txnGetId =>
    simp [planOf, planTxnGet, planTxnGetRps, planTxnGetId, openTxn, HandshakeThenWaits, IsHandshake,
      waitsAtOnce_len, one]
  case txnReadChunk addr count =>
    have chunk : WaitsAtOnce (.data (.fixed count.toNat)) := waitsAtOnce_data ha.1
    simp [planOf, planTxnReadChunk, openTxn, HandshakeThenWaits, IsHandshake, waitsAtOnce_tx, chunk]
  case txnWriteChunk | txnErasePages | txnEraseSpecial | txnWriteProtect =>
    simp [planOf, planTxnWriteChunk, planTxnErasePages, planTxnEraseSpecial, planTxnWriteProtect, openTxn,
      HandshakeThenWaits, IsHandshake, waitsAtOnce_tx]
  case txnWriteUnprotect | txnReadoutProtect | txnReadoutUnprotect =>
    simp [planOf, planTxnWriteUnprotect, planTxnReadoutProtect, planTxnReadoutUnprotect, openTxn, HandshakeThenWaits,
      IsHandshake, waitsAtOnce_ack]
  all_goals exact absurd ha not_false

/-- With an ACK as the one byte held, a handshake step completes, and the run goes on with the steps `ms` after it. -/
theorem resume_handshake_ack {s : State} {i : Instr} {m : Micro} {ms : List Micro} {site : Site} (hb : s.busy = true)
    (hc : s.cur = some i) (hd : (planOf i).steps.drop s.spc = m :: ms) (hm : IsHandshake site m) (hr : s.rxq = []) :
    (s.more [] [some 0x79]).resume = runSteps (planOf i).kind ms (s.log (.rx 1 (.ok [0x79]))).nextStep := by
  rw [resume_busy (by exact hb) (by exact hc), planResume_cons (by exact hd), perform_handshake_more hm hr]
  rfl

/-- Settles O44: a handshake step completes (`resume_handshake_ack`), and the step after it, if any, waits
(`planOf_handshakeThenWaits`). -/
theorem ackCompletesHandshake : Obligations.AckCompletesHandshake := by
  refine ⟨fun s i site hinv hb hc hr ht hm => ?transaction, fun s hr hb hc hspc => ?init, fun s hr hm => ?primitive,
    fun s hb => ?idle⟩
  case transaction =>
    obtain ⟨j, hj, ha, -⟩ := hinv.inFlight hb
    obtain rfl : i = j := by simpa [hc] using hj
    obtain ⟨m, hcur, hsite⟩ := handshake_of_currentStep hm
    obtain ⟨m', ms, hd⟩ := drop_spc_eq_cons (hinv.spc_inRange i hb hc)
    obtain rfl : m' = m := by simpa [currentStep_of_drop hb hc hd] using hcur
    have hlen : (planOf i).steps.length - s.spc = ms.length + 1 := by rw [← List.length_drop, hd, List.length_cons]
    rw [exec_wireAck, resume_handshake_ack hb hc hd hsite hr]
    cases ms with
    | nil =>
      rw [List.length_nil] at hlen
      exact ⟨fun h => by omega, fun _ => rfl⟩
    | cons n ms =>
      have hchain := hd ▸ (planOf_handshakeThenWaits ha).drop s.spc
      have hwaits : WaitsAtOnce n := (List.isChain_cons_cons.mp hchain).1 ⟨site, hsite⟩
      rw [List.length_cons] at hlen
      exact ⟨fun _ => congrArg _ (runSteps_waiting (hwaits _ ht hr)), fun h => by omega⟩
  case init =>
    have hd : (planOf .autobaudInit).steps.drop s.spc = [.initAck] := by rw [hspc]; rfl
    have hends : (s.more [] [some 0x79]).resume = { s with
        sync := true, busy := false, cur := none, spc := s.spc + 1, hist := s.hist ++ [.rx 1 (.ok [0x79])]
        results := s.results ++ [⟨s.txn, ⟨.ok, .none, none, none, none⟩⟩] } := by
      rw [resume_busy (by exact hb) (by exact hc), planResume_cons (by exact hd), perform, rxByte_more_gets hr]
      rfl
    rw [exec_wireAck, hends, hspc]
  case primitive =>
    obtain ⟨m, hcur, hres⟩ : ∃ m, s.currentStep = some m ∧ (m = .response ∨ m = .pollResponse) :=
      hm.elim (fun h => ⟨_, h, .inl rfl⟩) (fun h => ⟨_, h, .inr rfl⟩)
    rw [exec_wireAck, resume_ended (by exact hcur) (perform_response_more hres hr _)]
    rfl
  case idle => exact congrArg _ (bytesArrive_idle [0x79] hb)

/-- With nothing held, an admissible operation waits in its first step; a poll has set ATT to 0 (R29). -/
theorem firstStep_waits {i : Instr} (ha : Admissible i) : ∃ m ms, (planOf i).steps = m :: ms ∧
    ∀ s : State, s.txq = [] → s.rxq = [] →
      perform m (s.enter m) = .waiting { s with att := if i = .pollAwaitAck then 0 else s.att } := by
  cases i
  case pollAwaitAck =>
    refine ⟨_, _, rfl, fun s _ hr => ?_⟩
    have hq : (s.enter .pollResponse).rxq = [] := hr
    rw [perform, hq]
    rfl
  case awaitAck => exact ⟨_, _, rfl, waitsAtOnce_response⟩
  case autobaudInit | sendCommand | sendFrame | txnGet | txnGetRps | txnGetId | txnReadChunk | txnWriteChunk
      | txnErasePages | txnEraseSpecial | txnWriteProtect | txnWriteUnprotect | txnReadoutProtect
      | txnReadoutUnprotect =>
    exact ⟨_, _, rfl, waitsAtOnce_tx _ _⟩
  all_goals exact absurd ha not_false

/-- Settles O47: the operation is accepted and waits in its first step (`firstStep_waits`); with no input left the block
is looked at by BUSY alone. -/
theorem withheldAnswerLeavesOperationInFlight : Obligations.WithheldAnswerLeavesOperationInFlight := by
  refine ⟨fun s i ha hb hs ht hr => ?accepted, fun s hi hb => ?stuck, fun s hi hb => ?waits⟩
  case accepted =>
    obtain ⟨m, ms, hsteps, hwait⟩ := firstStep_waits ha
    rw [exec_accepted ha hb hs, hsteps, runSteps_waiting (hwait (s.accept i) ht hr)]
    rfl
  case stuck => simp [step, hi, noInput, hb]
  case waits => simp [step, hi, noInput, hb]

end Sys2Proof.Proofs

end

/-! # Proofs: 44_sequencer.md -/

section

namespace Sys2Proof.Proofs

open Sys2Proof.Machine

/-! ## A transaction under way, against answers already held (R210)

The steps of a transaction are run in one form of state, `underway`: each step takes its answer off the queues and adds
its event, and the state the transaction began in stays as it was. -/

/-- Operation `i`, accepted in state `s`, at step `n`: `tq` and `rq` are left of the oracle's answers, `bs` has been
collected, and the events `es` are new. -/
def underway (i : Instr) (s : State) (n : Nat) (tq : List TxOutcome) (rq : List (Option Byte)) (bs : List Byte)
    (es : List Event) : State :=
  { s.accept i with spc := n, txq := tq, rxq := rq, rxbuf := bs, hist := s.hist ++ es }

/-- How an operation that began in an idle block ends. -/
theorem finish_underway {s : State} (hb : s.busy = false) (r : Result) (i : Instr) (n : Nat) (tq : List TxOutcome)
    (rq : List (Option Byte)) (bs : List Byte) (es : List Event) :
    (underway i s n tq rq bs es).finish r = { s with
      sync := if r.status = .protocolViolation then false else s.sync
      txn := selector i, spc := n, rxbuf := bs, cur := none, budget := s.pollBudget, txq := tq, rxq := rq
      hist := s.hist ++ es, results := s.results ++ [⟨selector i, r⟩] } :=
  finish_idle hb _ r

section

variable {i : Instr} {s : State} {n : Nat} {tq : List TxOutcome} {rq : List (Option Byte)} {bs : List Byte}
  {es : List Event} {k : ValueKind} {ms : List Micro} {site : Site}

theorem runSteps_done (hb : s.busy = false) : runSteps k [] (underway i s n tq rq bs es) = { s with
    txn := selector i, spc := n, rxbuf := bs, cur := none, budget := s.pollBudget, txq := tq, rxq := rq
    hist := s.hist ++ es, results := s.results ++ [⟨selector i, ⟨.ok, .none, none, none, k.value bs⟩⟩] } :=
  finish_underway hb _ i n tq rq bs es

theorem log_underway (e : Event) :
    (underway i s n tq rq bs es).log e = underway i s n tq rq bs (es ++ [e]) := by
  simp [underway, State.log]

theorem rxByte_underway (r : Result) (g : Byte → State → Progress) (b : Byte) :
    rxByte r g (underway i s n tq (some b :: rq) bs es) = g b (underway i s n tq rq bs (es ++ [.rx 1 (.ok [b])])) :=
  (rxByte_gets rfl).trans (congrArg (g b) (log_underway (rq := rq) _))

/-- A step that completes; a LEN step and a poll also write a field of the state the transaction began in. -/
theorem runSteps_underway {m : Micro} {s' : State} {tq' : List TxOutcome} {rq' : List (Option Byte)} {bs' : List Byte}
    {es' : List Event}
    (h : perform m ((underway i s n tq rq bs es).enter m) = .completed (underway i s' n tq' rq' bs' es')) :
    runSteps k (m :: ms) (underway i s n tq rq bs es) = runSteps k ms (underway i s' (n + 1) tq' rq' bs' es') :=
  runSteps_completed h

theorem runSteps_tx {frame : List Byte} {x : Option Site} :
    runSteps k (.tx frame x :: ms) (underway i s n (.ok :: tq) rq bs es) =
      runSteps k ms (underway i s (n + 1) tq rq bs (es ++ [.tx frame .ok])) := by
  have sent := txStep_ok (f := frame) (x := x) (s := underway i s n (.ok :: tq) rq bs es) rfl
  exact runSteps_underway (sent.trans (congrArg _ (log_underway (tq := tq) _)))

theorem runSteps_ack : runSteps k (.ack site :: ms) (underway i s n tq (some 0x79 :: rq) bs es) =
    runSteps k ms (underway i s (n + 1) tq rq bs (es ++ [.rx 1 (.ok [0x79])])) :=
  runSteps_underway (rxByte_underway _ _ _)

theorem runSteps_nack : runSteps k (.ack site :: ms) (underway i s n tq (some 0x1F :: rq) bs es) =
    (underway i s n tq rq bs (es ++ [.rx 1 (.ok [0x1F])])).finish (nackMeaning site) :=
  runSteps_ended (m := .ack site) (rxByte_underway _ _ _)

theorem runSteps_len {b : Byte} : runSteps k (.len :: ms) (underway i s n tq (some b :: rq) bs es) =
    runSteps k ms (underway i (setNvar b s) (n + 1) tq rq bs (es ++ [.rx 1 (.ok [b])])) :=
  runSteps_underway (rxByte_underway _ _ _)

theorem runSteps_rejectZeroLen (h : s.nvar ≠ 0) :
    runSteps k (.rejectZeroLen :: ms) (underway i s n tq rq bs es) =
      runSteps k ms (underway i s (n + 1) tq rq bs es) :=
  runSteps_underway (if_neg h)

theorem runSteps_rejectZeroLen_zero (h : s.nvar = 0) :
    runSteps k (.rejectZeroLen :: ms) (underway i s n tq rq bs es) =
      (underway i s n tq rq bs es).finish ⟨.protocolViolation, .badLength, some 0x00, some .lenByte, none⟩ :=
  runSteps_ended (m := .rejectZeroLen) (if_pos h)

/-- A DATA step collects its bytes; for no bytes it makes no read. -/
theorem runSteps_data {count : DataCount} (ds : List Byte) (hn : ds.length = count.bytes s) :
    runSteps k (.data count :: ms) (underway i s n tq (ds.map some ++ rq) bs es) =
      runSteps k ms (underway i s (n + 1) tq rq (bs ++ ds)
        (es ++ if ds = [] then [] else [.rx ds.length (.ok ds)])) := by
  have hcount : count.bytes (underway i s n tq (ds.map some ++ rq) bs es) = ds.length := by
    rw [hn]
    cases count <;> rfl
  refine runSteps_underway ((congrArg (dataStep · _) hcount).trans ?_)
  rw [dataStep_gets rfl rfl]
  by_cases hds : ds = [] <;> simp [hds, underway, State.enter]

theorem runSteps_data_one {b : Byte} :
    runSteps k (.data (.fixed 1) :: ms) (underway i s n tq (some b :: rq) bs es) =
      runSteps k ms (underway i s (n + 1) tq rq (bs ++ [b]) (es ++ [.rx 1 (.ok [b])])) :=
  runSteps_data [b] rfl

/-- A poll starts with ATT = 0. -/
theorem enter_poll_underway :
    (underway i s n tq rq bs es).enter (.poll site) = underway i (setAtt 0 s) n tq rq bs es := rfl

/-- An ACK after fewer failed reads than the budget completes a poll (R186). -/
theorem runSteps_poll_ack {fails : Nat} (h : fails < s.pollBudget) :
    runSteps k (.poll site :: ms) (underway i s n tq (List.replicate fails none ++ some 0x79 :: rq) bs es) =
      runSteps k ms (underway i (setAtt fails s) (n + 1) tq rq bs
        (es ++ List.replicate fails (.rx 1 .fail) ++ [.rx 1 (.ok [0x79])])) := by
  refine runSteps_underway ?_
  have hatt : (underway i (setAtt 0 s) n tq (List.replicate fails none ++ some 0x79 :: rq) bs es).att + fails <
      s.pollBudget := (Nat.zero_add fails).trans_lt h
  rw [enter_poll_underway]
  refine (pollLoop_fails fails _ _ hatt).trans ?_
  simp [pollLoop, underway, setAtt, State.accept, State.log, ackByte]

/-- As many failed reads as the budget end a poll as exhausted (R186). -/
theorem runSteps_poll_exhausts (h : 1 ≤ s.pollBudget) :
    runSteps k (.poll site :: ms) (underway i s n tq (List.replicate s.pollBudget none ++ rq) bs es) =
      (underway i (setAtt s.pollBudget s) n tq rq bs (es ++ List.replicate s.pollBudget (.rx 1 .fail))).finish
        ⟨.transportFailure, .pollBudgetExhausted, none, some site, none⟩ := by
  refine runSteps_ended (m := .poll site) ?_
  have hatt : (underway i (setAtt 0 s) n tq (List.replicate s.pollBudget none ++ rq) bs es).att + s.pollBudget =
      s.pollBudget := Nat.zero_add _
  rw [enter_poll_underway]
  refine (pollLoop_exhausts s.pollBudget _ _ h hatt).trans ?_
  simp [underway, setAtt, State.accept, Result.err, Reason.status]

/-! ## The opening of a transaction (R210) -/

/-- An admissible operation whose step list opens with a command frame runs it in an idle, synchronized block. -/
theorem exec_opening {op : Byte} (ha : Admissible i) (hp : planOf i = ⟨openTxn op site ++ ms, k⟩) (hb : s.busy = false)
    (hs : s.sync = true) :
    exec i s = .next
      (runSteps k (.tx (commandFrame op) (some site) :: .ack site :: ms) (underway i s 0 s.txq s.rxq [] [])) := by
  have hi : i ≠ .autobaudInit := by
    rintro rfl
    exact nomatch hp
  have start : underway i s 0 s.txq s.rxq [] [] = s.accept i := by simp [underway, State.accept]
  rw [exec_accepted ha hb (by simp [hs, hi]), hp, start]
  rfl

/-- ACK at the first handshake: the run goes on with step 2. -/
theorem exec_opened {op : Byte} (ha : Admissible i) (hp : planOf i = ⟨openTxn op site ++ ms, k⟩) (hb : s.busy = false)
    (hs : s.sync = true) (ht : s.txq = .ok :: tq) (hr : s.rxq = some 0x79 :: rq) :
    exec i s = .next (runSteps k ms (underway i s 2 tq rq [] [.tx (commandFrame op) .ok, .rx 1 (.ok [0x79])])) := by
  rw [exec_opening ha hp hb hs, ht, hr, runSteps_tx, runSteps_ack]
  rfl

end

/-! ## The transactions (R212 to R225) -/

/-- Settles O34: the length byte is 0 (`runSteps_rejectZeroLen_zero`), or it counts the version and the opcodes. -/
theorem txnGetCompletes : Obligations.TxnGetCompletes := by
  intro s n version opcodes tq rq hb hs ht
  have opened {q : List (Option Byte)} := exec_opened (i := .txnGet) (s := s) (rq := q) trivial rfl hb hs ht
  refine ⟨fun hn hr => ?completes, fun hr => ?zeroLength⟩
  case completes =>
    have hne : (setNvar n s).nvar ≠ 0 := by rintro rfl; simp at hn
    have hcount : opcodes.length = DataCount.nvarLessOne.bytes (setNvar n s) := (Nat.sub_eq_of_eq_add hn).symm
    rw [opened hr, runSteps_len, runSteps_rejectZeroLen hne, runSteps_data_one, runSteps_data opcodes hcount,
      runSteps_ack, runSteps_done (by exact hb)]
    rfl
  case zeroLength =>
    rw [opened hr, runSteps_len, runSteps_rejectZeroLen_zero rfl, finish_underway (by exact hb)]
    rfl

/-- Settles O35: three reads of one byte. -/
theorem txnGetRpsCompletes : Obligations.TxnGetRpsCompletes := by
  intro s version disable enable tq rq hb hs ht hr
  rw [exec_opened (i := .txnGetRps) trivial rfl hb hs ht hr, runSteps_data_one, runSteps_data_one, runSteps_data_one,
    runSteps_ack, runSteps_done hb]
  rfl

/-- Settles O36: the count of the read is made from the length byte just latched (`runSteps_len`). -/
theorem txnGetIdCompletes : Obligations.TxnGetIdCompletes := by
  intro s n identity tq rq hb hs ht hn hr
  have hne : identity ≠ [] := List.ne_nil_of_length_eq_add_one hn
  rw [exec_opened (i := .txnGetId) trivial rfl hb hs ht hr, runSteps_len, runSteps_data identity (by exact hn),
    runSteps_ack, runSteps_done (by exact hb), if_neg hne]
  rfl

/-- Settles O37: two more frames and their ACKs, then one read, the last event. -/
theorem txnReadChunkCompletes : Obligations.TxnReadChunkCompletes := by
  intro s addr count data tq rq hb hs h1 h256 hlen ht hr
  have hne : data ≠ [] := List.ne_nil_of_length_pos (hlen ▸ h1)
  rw [exec_opened (i := .txnReadChunk addr count) ⟨h1, h256⟩ rfl hb hs ht hr, runSteps_tx, runSteps_ack, runSteps_tx,
    runSteps_ack, runSteps_data data (by exact hlen), runSteps_done hb, if_neg hne, hlen]
  rfl

/-- Settles O38: two more frames and their ACKs. -/
theorem txnWriteChunkCompletes : Obligations.TxnWriteChunkCompletes := by
  intro s addr data tq rq hb hs haligned h1 h256 ht hr
  rw [exec_opened (i := .txnWriteChunk addr data) ⟨haligned, h1, h256⟩ rfl hb hs ht hr, runSteps_tx, runSteps_ack,
    runSteps_tx, runSteps_ack, runSteps_done hb]
  rfl

/-- The two erases have one step list, but for the frame that says what to erase (R220, R221). -/
theorem erase_plan {i : Instr} {opsel : Byte} {frame : List Byte}
    (h : (∃ pages, i = .txnErasePages pages ∧ opsel = 0x45 ∧ Builds (.pageListFrame pages) frame) ∨
      ∃ code, i = .txnEraseSpecial code ∧ opsel = 0x46 ∧ Builds (.specialEraseFrame code) frame) :
    Admissible i ∧ selector i = opsel ∧ planOf i =
      ⟨openTxn 0x44 .cmdGated ++ [.tx frame (some .eraseFinal), .poll .eraseFinal], .nothing⟩ := by
  rcases h with ⟨pages, rfl, rfl, hf⟩ | ⟨code, rfl, rfl, hf⟩
  · obtain ⟨ha, rfl⟩ := builds_pageListFrame.mp hf
    exact ⟨ha, rfl, rfl⟩
  · obtain ⟨ha, rfl⟩ := builds_specialEraseFrame.mp hf
    exact ⟨ha, rfl, rfl⟩

/-- Settles O39: the final wait is a poll, which ends at the ACK (`runSteps_poll_ack`) or when its budget is used up
(`runSteps_poll_exhausts`). -/
theorem txnErasesComplete : Obligations.TxnErasesComplete := by
  intro s i opsel frame fails tq rq hb hs hi ht
  obtain ⟨ha, rfl, hp⟩ := erase_plan hi
  have opened {q : List (Option Byte)} := exec_opened (s := s) (rq := q) ha hp hb hs ht
  refine ⟨fun hn hr => ?completes, fun hn hr => ?exhausts⟩
  case completes =>
    rw [opened hr, runSteps_tx, runSteps_poll_ack hn, runSteps_done (by exact hb)]
    rfl
  case exhausts =>
    rw [opened hr, runSteps_tx, runSteps_poll_exhausts hn, finish_underway (by exact hb)]
    rfl

/-- Settles O40: one more frame and its ACK. -/
theorem txnWriteProtectCompletes : Obligations.TxnWriteProtectCompletes := by
  intro s pages tq rq hb hs h1 h256 ht hr
  rw [exec_opened (i := .txnWriteProtect pages) ⟨h1, h256⟩ rfl hb hs ht hr, runSteps_tx, runSteps_ack, runSteps_done hb]
  rfl

/-- Settles O41: after the opening the three toggles have one step list, a second handshake. -/
theorem protectionTogglesComplete : Obligations.ProtectionTogglesComplete := by
  intro s i op tq rq hb hs ht hr hi
  obtain ⟨ha, site, hp⟩ : Admissible i ∧ ∃ site, planOf i = ⟨openTxn op site ++ [.ack .trail], .nothing⟩ := by
    rcases hi with ⟨rfl, rfl⟩ | ⟨rfl, rfl⟩ | ⟨rfl, rfl⟩ <;> exact ⟨trivial, _, rfl⟩
  rw [exec_opened ha hp hb hs ht hr, runSteps_ack, runSteps_done hb]
  rfl

/-! ## NACK (R211, R218) -/

/-- Settles O42: every transaction opens with its command frame, and the site of the handshake after it, gated or not,
gives the NACK its meaning. -/
theorem firstHandshakeNack : Obligations.FirstHandshakeNack := by
  intro s i op gated tq rq hb hs ha ht hr hi
  obtain ⟨ms, k, hp⟩ : ∃ ms k, planOf i = ⟨openTxn op (if gated then .cmdGated else .cmdUngated) ++ ms, k⟩ := by
    rcases hi with ⟨rfl, rfl, rfl⟩ | ⟨rfl, rfl, rfl⟩ | ⟨rfl, rfl, rfl⟩ | ⟨_, _, rfl, rfl, rfl⟩ | ⟨_, _, rfl, rfl, rfl⟩ |
      ⟨_, rfl, rfl, rfl⟩ | ⟨_, rfl, rfl, rfl⟩ | ⟨_, rfl, rfl, rfl⟩ | ⟨rfl, rfl, rfl⟩ | ⟨rfl, rfl, rfl⟩ |
      ⟨rfl, rfl, rfl⟩ <;> exact ⟨_, _, rfl⟩
  rw [exec_opening ha hp hb hs, ht, hr, runSteps_tx, runSteps_nack, finish_underway hb, hs]
  cases gated <;> rfl

theorem exec_wireNack (s : State) : exec .wireNack s = .next (s.more [] [some 0x1F]).resume :=
  congrArg _ (bytesArrive_eq_more [0x1F] s)

theorem resume_handshake_nack {s : State} {site : Site} (hr : s.rxq = [])
    (hm : s.currentStep = some (.ack site) ∨ s.currentStep = some (.poll site)) :
    (s.more [] [some 0x1F]).resume = (s.log (.rx 1 (.ok [0x1F]))).finish (nackMeaning site) := by
  obtain ⟨m, hcur, hsite⟩ := handshake_of_currentStep hm
  exact resume_ended (by exact hcur) (perform_handshake_more hsite hr 0x1F)

theorem resume_response_byte {s : State} (hr : s.rxq = [])
    (hm : s.currentStep = some .response ∨ s.currentStep = some .pollResponse) (b : Byte) :
    (s.more [] [some b]).resume = (s.log (.rx 1 (.ok [b]))).finish (responseResult b) := by
  rcases hm with h | h
  · exact resume_ended (by exact h) (perform_response_more (.inl rfl) hr b)
  · exact resume_ended (by exact h) (perform_response_more (.inr rfl) hr b)

/-- Settles O43: the step that waits ends the operation, with the meaning of its site (`resume_handshake_nack`), with
INIT's violation, or with the byte as a value (`resume_response_byte`). -/
theorem nackMeaningPerSite : Obligations.NackMeaningPerSite := by
  refine ⟨fun s site hr hm => ?transaction, fun s hr hm => ?init, fun s hr hm => ?primitive, fun s hb => ?idle⟩
  case transaction =>
    rw [exec_wireNack, resume_handshake_nack hr hm]
    cases site <;> simp [State.finish, State.log, nackMeaning, Site.nackReason, Result.err, Reason.status]
  case init =>
    have hp : perform .initAck (s.more [] [some 0x1F]) =
        .ended (.err .initNoAck (some 0x1F) none) (s.log (.rx 1 (.ok [0x1F]))) := rxByte_more_gets hr _ _ 0x1F
    rw [exec_wireNack, resume_ended (by exact hm) hp]
    rfl
  case primitive =>
    rw [exec_wireNack, resume_response_byte hr hm]
    rfl
  case idle => exact congrArg _ (bytesArrive_idle [0x1F] hb)

/-! ## Frames follow acknowledgments (R228) -/

/-- The step writes a frame. -/
def WritesFrame (m : Micro) : Prop := ∃ frame site, m = .tx frame site

/-- If step `m'`, which follows `m`, writes a frame, then `m` is a handshake. -/
def WritesAfterAck (m m' : Micro) : Prop := WritesFrame m' → ∃ site, m = .ack site

/-- If event `e'`, which follows `e`, is a frame, then `e` is an ACK. -/
def FrameAfterAck (e e' : Event) : Prop := ¬ e'.IsRx → e = .rx 1 (.ok [0x79])

/-- In every step list a frame is first or comes straight after a handshake (R180 to R186, R212 to R225). -/
theorem planOf_writesAfterAck (i : Instr) : (planOf i).steps.IsChain WritesAfterAck := by
  cases i
  case autobaudInit | sendCommand | awaitAck | pollAwaitAck | sendFrame =>
    simp [planOf, planInit, planSendCommand, planAwaitAck, planPollAwaitAck, planSendFrame, WritesAfterAck, WritesFrame]
  case txnGet | txnGetRps | txnGetId | txnWriteUnprotect | txnReadoutProtect | txnReadoutUnprotect =>
    simp [planOf, planTxnGet, planTxnGetRps, planTxnGetId, planTxnWriteUnprotect, planTxnReadoutProtect,
      planTxnReadoutUnprotect, openTxn, WritesAfterAck, WritesFrame]
  case txnReadChunk | txnWriteChunk | txnErasePages | txnEraseSpecial | txnWriteProtect =>
    simp [planOf, planTxnReadChunk, planTxnWriteChunk, planTxnErasePages, planTxnEraseSpecial, planTxnWriteProtect,
      openTxn, WritesAfterAck, WritesFrame]
  all_goals exact .nil

/-- From `s` to `t` events are added to HIST in which every frame but the first event comes straight after an ACK; and
the first is a frame only where `first` holds. -/
def FramesAfterAcks (first : Prop) (s t : State) : Prop :=
  ∃ es, t.hist = s.hist ++ es ∧ es.IsChain FrameAfterAck ∧ ∀ e ∈ es.head?, ¬ e.IsRx → first

theorem framesAfterAcks_of_same {first : Prop} {s t : State} (h : t.hist = s.hist) : FramesAfterAcks first s t :=
  ⟨[], by rw [h, List.append_nil], .nil, by simp⟩

theorem framesAfterAcks_of_reads {first : Prop} {s t : State} {es : List Event} (h : t.hist = s.hist ++ es)
    (hrx : ∀ e ∈ es, e.IsRx) : FramesAfterAcks first s t :=
  ⟨es, h, List.isChain_iff_forall_rel_of_append_cons_cons.mpr fun _ e _ _ hes hn => absurd (hrx e (by simp [hes])) hn,
    fun e he hn => absurd (hrx e (List.mem_of_mem_head? he)) hn⟩

theorem framesAfterAcks_mono {first first' : Prop} {s t : State} (hf : first → first') (h : FramesAfterAcks first s t) :
    FramesAfterAcks first' s t := by
  obtain ⟨es, ht, hes, hfirst⟩ := h
  exact ⟨es, ht, hes, fun e he hn => hf (hfirst e he hn)⟩

/-- The state a run starts from matters by its history alone. -/
theorem framesAfterAcks_from {first : Prop} {s u t : State} (hu : u.hist = s.hist) (h : FramesAfterAcks first u t) :
    FramesAfterAcks first s t := by
  obtain ⟨es, ht, hes⟩ := h
  exact ⟨es, by rw [ht, hu], hes⟩

/-- A step writes a frame, its only event, or it reads. -/
theorem framesAfterAcks_perform (m : Micro) (s : State) : FramesAfterAcks (WritesFrame m) s (perform m s).state := by
  by_cases hm : WritesFrame m
  · obtain ⟨frame, site, rfl⟩ := hm
    have single {u : State} {o : TxOutcome} (h : u.hist = s.hist ++ [.tx frame o]) :
        FramesAfterAcks (WritesFrame (.tx frame site)) s u := ⟨_, h, .singleton _, fun _ _ _ => ⟨frame, site, rfl⟩⟩
    rw [perform]
    rcases txStep_events frame site s with ⟨q, h⟩ | ⟨q, h⟩ | h <;> rw [h]
    · exact single rfl
    · exact single rfl
    · exact framesAfterAcks_of_same rfl
  · obtain ⟨es, hh, hrx⟩ := perform_reads (fun f x e => hm ⟨f, x, e⟩) s
    exact framesAfterAcks_of_reads hh hrx

/-- A step completes, and the events `h` tells of come after it: at their start a frame can stand only if the step is a
handshake, which then has completed on ACK. -/
theorem framesAfterAcks_completed {m : Micro} {first : Prop} {s u t : State} (hp : perform m s = .completed u)
    (hm : first → ∃ site, m = .ack site) (h : FramesAfterAcks first u t) : FramesAfterAcks (WritesFrame m) s t := by
  obtain ⟨es', ht, hes', hfirst⟩ := h
  by_cases hack : ∃ site, m = .ack site
  · obtain ⟨site, rfl⟩ := hack
    obtain ⟨q, rfl⟩ := ack_completed hp
    have hchain := List.isChain_cons.mpr ⟨fun _ _ _ => rfl, hes'⟩
    exact ⟨.rx 1 (.ok [0x79]) :: es', by simp [ht], hchain, by simp [Event.IsRx]⟩
  · have reads : ∀ e ∈ es'.head?, e.IsRx := fun e he => by_contra fun hn => hack (hm (hfirst e he hn))
    obtain ⟨es, hu, hes, hfirst'⟩ : FramesAfterAcks (WritesFrame m) s u := by
      simpa only [hp, Progress.state] using framesAfterAcks_perform m s
    refine ⟨es ++ es', by rw [ht, hu, List.append_assoc], hes.append hes' fun _ _ e he hn => absurd (reads e he) hn, ?_⟩
    intro e he hn
    cases es with
    | nil => exact absurd (reads e he) hn
    | cons e' es => exact hfirst' e he hn

theorem framesAfterAcks_runSteps (k : ValueKind) (ms : List Micro) (s : State) (h : ms.IsChain WritesAfterAck) :
    FramesAfterAcks (∃ m ∈ ms.head?, WritesFrame m) s (runSteps k ms s) := by
  induction ms generalizing s with
  | nil => exact framesAfterAcks_of_same (finish_hist s _)
  | cons m ms ih =>
    obtain ⟨hnext, hms⟩ := List.isChain_cons.mp h
    have hstep := framesAfterAcks_perform m (s.enter m)
    rw [runSteps_cons]
    refine framesAfterAcks_from (enter_hist s m) (framesAfterAcks_mono (fun hm => ⟨m, rfl, hm⟩) ?_)
    cases hp : perform m (s.enter m) with
    | completed u => exact framesAfterAcks_completed hp (fun ⟨m', hm', hw⟩ => hnext m' hm' hw) (ih u.nextStep hms)
    | ended r u => rw [hp] at hstep; exact hstep
    | waiting u => rw [hp] at hstep; exact hstep

/-- Settles O55: every step list keeps the rule (`planOf_writesAfterAck`), and so does a run of it
(`framesAfterAcks_runSteps`); in an idle block an event of the link adds nothing to HIST. -/
theorem framesFollowAcknowledgments : Obligations.FramesFollowAcknowledgments := by
  intro i s t before after frame o _ hb hexec ht
  have hframes : FramesAfterAcks True s t := by
    cases exec_next hexec with
    | answers r _ _ => exact framesAfterAcks_of_same (answer_hist s _ _)
    | runs _ _ _ =>
      have hrun := framesAfterAcks_runSteps (planOf i).kind _ (s.accept i) (planOf_writesAfterAck i)
      exact framesAfterAcks_mono (fun _ => trivial) hrun
    | sends f _ => exact framesAfterAcks_of_same (by rw [frameSent_idle f hb])
    | receives bs _ => exact framesAfterAcks_of_same (by rw [bytesArrive_idle bs hb])
  obtain ⟨es, hes, hchain, -⟩ := hframes
  obtain rfl : es = before ++ .tx frame o :: after := List.append_cancel_left (hes.symm.trans ht)
  rcases List.eq_nil_or_concat before with rfl | ⟨earlier, e, rfl⟩
  · exact .inl rfl
  · rw [List.concat_eq_append, List.append_assoc] at hchain
    have hack : e = .rx 1 (.ok [0x79]) := (List.isChain_append_cons_cons.mp hchain).2.1 id
    exact .inr ⟨earlier, by rw [hack, List.concat_eq_append]⟩

end Sys2Proof.Proofs

end

/-! # Proofs: 45_caller_sequences.md -/

section

namespace Sys2Proof.Proofs

open Sys2Proof.Machine

/-! ## The chunks of a region (R251) -/

/-- The offset and size of chunk `k` of a region of `len` bytes. -/
def chunkAt (len k : Nat) : Nat × Nat := (256 * k, min (len - 256 * k) 256)

theorem chunksFrom_of_le {fuel off len : Nat} (h : len ≤ off) : chunksFrom fuel off len = [] := by
  cases fuel with
  | zero => rfl
  | succ fuel => exact if_neg h.not_gt

/-- A turn of the loop: from chunk `j`'s offset it cuts chunk `j`, and goes on from the next one's. Past the last chunk
it stops, though that chunk may be short and its end no chunk's offset. -/
theorem chunksFrom_eq_map_range' (fuel j len : Nat) (h : len ≤ 256 * j + fuel) : chunksFrom fuel (256 * j) len =
    (List.range' j ((len - 256 * j + 255) / 256)).map (chunkAt len) := by
  induction fuel generalizing j with
  | zero =>
    rw [chunksFrom_of_le (by omega), show (len - 256 * j + 255) / 256 = 0 by omega]
    rfl
  | succ fuel ih =>
    by_cases hj : len ≤ 256 * j
    · rw [chunksFrom_of_le hj, show (len - 256 * j + 255) / 256 = 0 by omega]
      rfl
    · have hcount : (len - 256 * j + 255) / 256 = (len - 256 * (j + 1) + 255) / 256 + 1 := by omega
      have hrest : chunksFrom fuel (256 * j + min (len - 256 * j) 256) len = chunksFrom fuel (256 * (j + 1)) len := by
        by_cases hlast : len ≤ 256 * (j + 1)
        · rw [chunksFrom_of_le hlast, chunksFrom_of_le (by omega)]
        · rw [show 256 * j + min (len - 256 * j) 256 = 256 * (j + 1) by omega]
      rw [hcount, List.range'_succ, List.map_cons, ← ih (j + 1) (by omega), ← hrest]
      exact if_pos (by omega)

theorem regionChunks_eq_map_range (len : Nat) : regionChunks len =
    (List.range ((len + 255) / 256)).map (chunkAt len) := by
  rw [List.range_eq_range']
  exact chunksFrom_eq_map_range' len 0 len (by omega)

theorem chunksFrom_sum (fuel off len : Nat) (h : len ≤ off + fuel) :
    ((chunksFrom fuel off len).map Prod.snd).sum = len - off := by
  induction fuel generalizing off with
  | zero => exact (Nat.sub_eq_zero_of_le h).symm
  | succ fuel ih =>
    by_cases hoff : len ≤ off
    · rw [chunksFrom_of_le hoff, Nat.sub_eq_zero_of_le hoff]; rfl
    · rw [chunksFrom, if_pos (by omega), List.map_cons, List.sum_cons, ih _ (by simp only [maxChunk]; omega)]
      omega

/-- The chunks of a region together have all its bytes. -/
theorem regionChunks_sum (len : Nat) : ((regionChunks len).map Prod.snd).sum = len :=
  chunksFrom_sum len 0 len (by omega)

theorem regionChunks_size_le {len : Nat} {chunk : Nat × Nat} (h : chunk ∈ regionChunks len) : chunk.2 ≤ 256 := by
  rw [regionChunks_eq_map_range, List.mem_map] at h
  obtain ⟨k, -, rfl⟩ := h
  exact min_le_right _ _

/-- Before a chunk stand as many chunks as its offset has 256s. -/
theorem regionChunks_offset {len : Nat} {done rest : List (Nat × Nat)} {chunk : Nat × Nat}
    (h : regionChunks len = done ++ chunk :: rest) : chunk.1 = 256 * done.length := by
  have hchunk : (regionChunks len)[done.length]? = some chunk := by simp [h]
  rw [regionChunks_eq_map_range, List.getElem?_map, Option.map_eq_some_iff] at hchunk
  obtain ⟨k, hk, rfl⟩ := hchunk
  obtain ⟨hlt, rfl⟩ := List.getElem?_eq_some_iff.mp hk
  simp [chunkAt]

/-- The size of chunk `k`: 256 bytes, but for the last of them what is left. -/
theorem chunkAt_eq {len k : Nat} (h : k < (len + 255) / 256) : chunkAt len k = (256 * k,
    if k + 1 < (len + 255) / 256 then 256 else if len % 256 = 0 then 256 else len % 256) := by
  refine congrArg (Prod.mk (256 * k)) ?_
  split_ifs <;> omega

/-! ## What a chunk that succeeds has read (R215) -/

/-- The bytes a step adds to RXBUF where its count is a number of its own (R210). -/
def fixedCount : Micro → Nat
  | .data (.fixed n) => n
  | _ => 0

/-- A step that completes from `s` has added `n` bytes to RXBUF, and one that ends the operation does so with an
error. -/
def Collects (n : Nat) (s : State) : Progress → Prop
  | .completed u => u.rxbuf.length = s.rxbuf.length + n
  | .ended r _ => r.status ≠ .ok
  | .waiting _ => True

/-- The step collects its own count of bytes wherever it is performed. -/
def CollectsCount (m : Micro) : Prop := ∀ s, Collects (fixedCount m) s (perform m s)

theorem collectsCount_tx (frame : List Byte) (site : Option Site) : CollectsCount (.tx frame site) := by
  intro s
  rcases txStep_events frame site s with ⟨q, h⟩ | ⟨q, h⟩ | h <;> simp only [perform, h]
  · rfl
  · exact nofun
  · trivial

theorem collectsCount_ack (site : Site) : CollectsCount (.ack site) := by
  intro s
  rcases rxByte_events (.err .rxFail none (some site)) (ackByte site) s with ⟨b, q, h⟩ | ⟨q, h⟩ | h <;>
    simp only [perform, h]
  · unfold ackByte
    cases classify b with
    | ack => rfl
    | nack => cases site <;> exact nofun
    | other => exact nofun
  · exact nofun
  · trivial

theorem collectsCount_data (n : Nat) : CollectsCount (.data (.fixed n)) := by
  intro s
  by_cases h0 : n = 0
  · subst h0; rfl
  · have hread : perform (.data (.fixed n)) s = rxStep n (.err .rxFail none (some .data))
      (fun bs u => .completed { u with rxbuf := u.rxbuf ++ bs }) s := if_neg h0
    rw [hread]
    rcases rxStep_events n (.err .rxFail none (some .data))
      (fun bs u => .completed { u with rxbuf := u.rxbuf ++ bs }) s with ⟨bs, q, hn, h⟩ | ⟨q, h⟩ | h <;> rw [h]
    · simp [Collects, fixedCount, hn]
    · exact nofun
    · trivial

/-- A run of such steps that answers OK returns what RXBUF held and the bytes of every step. -/
theorem runSteps_bytes_length {ms : List Micro} {s : State} {a : Answer} (hms : ∀ m ∈ ms, CollectsCount m)
    (h : (runSteps .data ms s).results = s.results ++ [a]) (ok : a.result.status = .ok) :
    a.result.bytes.length = s.rxbuf.length + (ms.map fixedCount).sum := by
  induction ms generalizing s with
  | nil =>
    obtain rfl : ⟨s.txn, _⟩ = a := by simpa using h
    rfl
  | cons m ms ih =>
    have hm := hms m List.mem_cons_self (s.enter m)
    have hres := ((enter_frame m s).1.trans (perform_frame m (s.enter m))).results
    cases hp : perform m (s.enter m) <;> rw [hp] at hm hres
    case completed u =>
      rw [runSteps_completed hp] at h
      have hrest := ih (fun m' hm' => hms m' (List.mem_cons_of_mem m hm')) (s := u.nextStep) (by rw [h, ← hres]; rfl)
      simp only [Collects, enter_rxbuf] at hm
      rw [hrest, nextStep_rxbuf, hm, List.map_cons, List.sum_cons, Nat.add_assoc]
    case ended r u =>
      rw [runSteps_ended hp, finish_results, ← hres] at h
      obtain rfl : ⟨u.txn, r⟩ = a := by simpa [Progress.state] using h
      exact absurd ok hm
    case waiting u =>
      rw [runSteps_waiting hp, ← hres] at h
      simp [Progress.state] at h

theorem planTxnReadChunk_collects (addr count : U32) : ∀ m ∈ (planTxnReadChunk addr count).steps, CollectsCount m := by
  simp [planTxnReadChunk, openTxn, collectsCount_tx, collectsCount_ack, collectsCount_data]

/-- The result a caller takes is the one the request's operation has added. -/
theorem callBlock_some {i : Instr} {s t : State} {r : Result} (h : callBlock i s = (t, some r)) :
    exec i s = .next t ∧ ∃ opsel, t.results = s.results ++ [⟨opsel, r⟩] := by
  obtain ⟨u, hu, -⟩ := exec_does i s
  simp only [callBlock, hu, Prod.mk.injEq] at h
  obtain ⟨rfl, hr⟩ := h
  refine ⟨hu, ?_⟩
  rcases (exec_frame hu).results with hsame | ⟨⟨opsel, r'⟩, hadd⟩
  · simp [hsame] at hr
  · obtain rfl : r' = r := by simpa [hadd] using hr
    exact ⟨opsel, hadd⟩

/-- TXN_READ_CHUNK answers OK only after all its bytes (R215): the flags and the check answer errors, and the step list
reads the count. -/
theorem callBlock_txnReadChunk_bytes {addr count : U32} {s t : State} {r : Result}
    (h : callBlock (.txnReadChunk addr count) s = (t, some r)) (ok : r.status = .ok) :
    r.bytes.length = count.toNat := by
  obtain ⟨hexec, opsel, hres⟩ := callBlock_some h
  obtain rfl : s.request (.txnReadChunk addr count) .synced (checked (rangeCheck count.toNat))
    (planTxnReadChunk addr count) = t := Host.Outcome.next.inj hexec
  rcases request_cases (.txnReadChunk addr count) .synced (checked (rangeCheck count.toNat))
    (planTxnReadChunk addr count) s with ⟨x, hx, hr⟩ | ⟨-, x, hx, hr⟩ | ⟨-, -, hr⟩ <;> rw [hr] at hres
  · obtain ⟨-, rfl⟩ : _ ∧ Result.err x none none = r := by simpa using hres
    have := admission_status hx
    simp [this] at ok
  · obtain ⟨-, rfl⟩ : _ ∧ x = r := by simpa using hres
    obtain ⟨y, hy, rfl⟩ := Option.map_eq_some_iff.mp hx
    simp [rangeCheck_reason hy, Reason.status] at ok
  · have := runSteps_bytes_length (planTxnReadChunk_collects addr count) hres ok
    simpa [planTxnReadChunk, openTxn, fixedCount] using this

/-- Read chunks that all succeed have returned as many bytes as they ask for. -/
theorem chunksDone_bytes_length {addr : U32} {chunks : List (Nat × Nat)} {s t : State} {rs : List Result}
    (h : ChunksDone (readChunk addr) chunks s t rs) (hsize : ∀ chunk ∈ chunks, chunk.2 ≤ 256) :
    (rs.flatMap Result.bytes).length = (chunks.map Prod.snd).sum := by
  induction h with
  | nil => rfl
  | @cons chunk _ _ _ _ _ _ hcall ok _ ih =>
    obtain ⟨hchunk, hrest⟩ := List.forall_mem_cons.mp hsize
    have hbytes := callBlock_txnReadChunk_bytes hcall ok
    rw [BitVec.toNat_ofNat, Nat.mod_eq_of_lt (by omega)] at hbytes
    rw [List.flatMap_cons, List.length_append, hbytes, ih hrest, List.map_cons, List.sum_cons]

/-! ## The expansions once their checks pass (R250, R252) -/

theorem chunkAddr_toNat {addr : U32} {off : Nat} (h : addr.toNat + off < 2 ^ 32) :
    (chunkAddr addr off).toNat = addr.toNat + off := by
  rw [chunkAddr, BitVec.toNat_add, BitVec.toNat_ofNat, Nat.mod_eq_of_lt (a := off) (by omega), Nat.mod_eq_of_lt h]

theorem readRegion_range {addr len : U32} (stop : Option Nat) (s : State)
    (h : len = 0 ∨ addr.toNat + len.toNat > 2 ^ 32) :
    readRegion addr len stop s = (s, .finished (.err .range none none)) := by
  have hcheck : readRegionCheck addr len = some .range := by
    by_cases h0 : len = 0
    · exact if_pos h0
    · rw [readRegionCheck, if_neg h0, if_pos (h.resolve_left h0)]
  simp only [readRegion, hcheck]

theorem readRegion_runs {addr len : U32} (h0 : len ≠ 0) (hend : addr.toNat + len.toNat ≤ 2 ^ 32) (stop : Option Nat)
    {s t : State} {run : ChunkRun}
    (h : runChunks (readChunk addr) (regionChunks len.toNat) (stop.map (· + 1)) s = (t, run)) :
    readRegion addr len stop s = (t, readOutcome run) := by
  have hcheck : readRegionCheck addr len = none := by rw [readRegionCheck, if_neg h0, if_neg hend.not_gt]
  simp only [readRegion, hcheck, h]

theorem writeRegion_refused {addr : U32} {data : List Byte} {r : Reason} (stop : Option Nat) (s : State)
    (h : writeRegionCheck addr data.length = some r) :
    writeRegion addr data stop s = (s, .finished (.err r none none)) := by
  simp only [writeRegion, h]

theorem writeRegion_runs {addr : U32} {data : List Byte} (h : writeRegionCheck addr data.length = none)
    (stop : Option Nat) {s t : State} {run : ChunkRun}
    (hrun : runChunks (writeChunk addr data) (regionChunks data.length) (stop.map (· + 1)) s = (t, run)) :
    writeRegion addr data stop s = (t, writeOutcome addr run) := by
  simp only [writeRegion, h, hrun]

/-- The check of data that is there, at an aligned address: only its end and its length are left to refuse. -/
theorem writeRegionCheck_aligned {addr : U32} {data : List Byte} (hd : data ≠ []) (ha : addr.toNat % 4 = 0) :
    writeRegionCheck addr data.length =
      if 2 ^ 32 < addr.toNat + data.length ∨ 2 ^ 32 ≤ data.length then some .range else none := by
  rw [writeRegionCheck, if_neg (by simpa using hd), if_neg (by simpa using ha)]

/-- What holds of one more than `stopAfter` holds of the chunks the loop lets run (R253). -/
theorem forall_chunks_let_run {stop : Option Nat} {p : Nat → Prop} (h : ∀ k, stop = some k → p (k + 1)) :
    ∀ n, stop.map (· + 1) = some n → p n := by
  intro n hn
  obtain ⟨k, hk, rfl⟩ := Option.map_eq_some_iff.mp hn
  exact h k hk

/-- Settles O60: chunk `k` is `chunkAt len k` (`regionChunks_eq_map_range`); what the loop over the chunks does is
`runChunks_completed`, `runChunks_failed` and `runChunks_stopped`; that a whole read gives all the data rests on
`callBlock_txnReadChunk_bytes`. -/
theorem regionChunkSequence : Obligations.RegionChunkSequence := by
  refine ⟨fun len => ⟨?_, ?_, regionChunks_sum len⟩, ?_, fun _ _ stop s h => readRegion_range stop s h, ?_, ?_, ?_⟩
  · rw [regionChunks_eq_map_range, List.length_map, List.length_range]
  · intro k hk
    rw [regionChunks_eq_map_range, List.getElem?_map, List.getElem?_range hk, Option.map_some, chunkAt_eq hk]
  · intro addr data k c haddr hc
    exact ⟨_, _, rfl, rfl, rfl, chunkAddr_toNat haddr, by rw [BitVec.toNat_ofNat, Nat.mod_eq_of_lt (by omega)]⟩
  · intro addr len s h0 hend
    refine ⟨?_, ?_, ?_⟩
    · intro stop t rs hstop hdone
      refine ⟨?_, readRegion_runs h0 hend stop (runChunks_completed hdone _ (forall_chunks_let_run hstop))⟩
      rw [chunksDone_bytes_length hdone fun _ => regionChunks_size_le, regionChunks_sum]
    · intro stop done chunk rest u t rs r hstop hsplit hdone hcall hr
      refine readRegion_runs h0 hend stop (run := .failed chunk.1 r) ?_
      rw [hsplit]
      exact runChunks_failed hdone hcall hr _ (forall_chunks_let_run fun k hk => Nat.lt_succ_of_le (hstop k hk))
    · intro done chunk rest u rs k hsplit hlen hdone
      refine readRegion_runs h0 hend (some k) (run := .stopped chunk.1) ?_
      rw [hsplit, Option.map_some, ← hlen]
      exact runChunks_stopped hdone
  · intro addr data stop s
    refine ⟨?_, ?_, ?_⟩
    · rintro rfl
      exact writeRegion_refused (r := .range) stop s rfl
    · intro hd ha
      exact writeRegion_refused stop s (by rw [writeRegionCheck, if_neg (by simpa using hd), if_pos ha])
    · intro hd ha hend
      exact writeRegion_refused stop s (by rw [writeRegionCheck_aligned hd ha, if_pos hend])
  · intro addr data s hd ha hend hlen32
    have hcheck : writeRegionCheck addr data.length = none := by
      rw [writeRegionCheck_aligned hd ha, if_neg (by omega)]
    refine ⟨?_, ?_, ?_⟩
    · intro stop t rs hstop hdone
      exact writeRegion_runs hcheck stop (runChunks_completed hdone _ (forall_chunks_let_run hstop))
    · intro stop done chunk rest u t rs r hstop hsplit hdone hcall hr
      rw [writeRegion_runs hcheck stop (run := .failed chunk.1 r) (t := t)]
      · simp [writeOutcome, regionChunks_offset hsplit]
      · rw [hsplit]
        exact runChunks_failed hdone hcall hr _ (forall_chunks_let_run fun k hk => Nat.lt_succ_of_le (hstop k hk))
    · intro done chunk rest u rs k hsplit hlen hdone
      rw [← regionChunks_offset hsplit]
      refine writeRegion_runs hcheck (some k) (run := .stopped chunk.1) ?_
      rw [hsplit, Option.map_some, ← hlen]
      exact runChunks_stopped hdone

end Sys2Proof.Proofs

end

/-! # Proofs: 70_reset_and_hazards.md -/

section

namespace Sys2Proof.Proofs

open Sys2Proof.Machine

/-! ## Link histories (R317) -/

theorem initSucceeded_append {h : List Event} (es : List Event) (hi : InitSucceeded h) : InitSucceeded (h ++ es) :=
  hi.trans (List.prefix_append h es).isInfix

/-- One more event keeps a history safe where it is the sync byte, no frame, or comes after INIT's success. -/
theorem noFrameBeforeInit_concat {h : List Event} {e : Event} (hn : NoFrameBeforeInit h)
    (he : ∀ frame o, e = .tx frame o → frame = [0x7F] ∨ InitSucceeded h) : NoFrameBeforeInit (h ++ [e]) := by
  intro before frame o after hsplit
  rcases List.eq_nil_or_concat after with rfl | ⟨after', e', rfl⟩
  · obtain ⟨rfl, hlast⟩ := List.append_inj' hsplit rfl
    exact he frame o (List.singleton_inj.mp hlast)
  · rw [List.concat_eq_append, ← List.cons_append, ← List.append_assoc] at hsplit
    exact hn before frame o after' (List.append_inj' hsplit rfl).1

theorem noFrameBeforeInit_append {h : List Event} (es : List Event) (hn : NoFrameBeforeInit h) (hi : InitSucceeded h) :
    NoFrameBeforeInit (h ++ es) := by
  induction es generalizing h with
  | nil => rwa [List.append_nil]
  | cons e es ih =>
    rw [List.append_cons]
    exact ih (noFrameBeforeInit_concat hn fun _ _ _ => .inr hi) (initSucceeded_append [e] hi)

theorem noFrameBeforeInit_read {h : List Event} (n : Nat) (o : RxOutcome) (hn : NoFrameBeforeInit h) :
    NoFrameBeforeInit (h ++ [.rx n o]) := noFrameBeforeInit_concat hn fun _ _ e => nomatch e

/-- The sync byte was written last, and ACK is read. -/
theorem initSucceeded_ack (h : List Event) : InitSucceeded (h ++ [.tx [0x7F] .ok] ++ [.rx 1 (.ok [0x79])]) :=
  ⟨h, [], by simp⟩

/-! ## Safe states (R22, R317) -/

theorem linkSafe_of_cur_ne {s : State} (hc : s.cur ≠ some .autobaudInit) (hn : NoFrameBeforeInit s.hist)
    (hs : s.sync = true → InitSucceeded s.hist) : s.LinkSafe := ⟨hn, hs, fun _ h => absurd h hc⟩

theorem linkSafe_finish {s : State} (r : Result) (hn : NoFrameBeforeInit s.hist)
    (hs : s.sync = true → InitSucceeded s.hist) : (s.finish r).LinkSafe := by
  refine linkSafe_of_cur_ne (by simp) hn fun h => hs ?_
  rw [finish_sync] at h
  split at h
  · cases h
  · exact h

/-- After INIT's success a run of another operation may write what it likes. -/
theorem linkSafe_of_runFrame {s t : State} (hf : RunFrame s t) (hc : s.cur ≠ some .autobaudInit)
    (hn : NoFrameBeforeInit s.hist) (hi : InitSucceeded s.hist) : t.LinkSafe := by
  obtain ⟨es, ht⟩ := hf.hist
  refine linkSafe_of_cur_ne ?_ (ht ▸ noFrameBeforeInit_append es hn hi) fun _ => ht ▸ initSucceeded_append es hi
  rcases hf.outcome with ⟨_, e, _⟩ | ⟨_, e, _⟩ <;> rw [e]
  · exact hc
  · exact nofun

/-! ## INIT's two steps (R180) -/

/-- INIT reads its answer after the sync byte: on ACK it has succeeded, and SYNC is set by nothing else. -/
theorem linkSafe_initAnswer {s : State} {h : List Event} (hs : s.sync = false)
    (hh : s.hist = h ++ [.tx [0x7F] .ok]) (hn : NoFrameBeforeInit s.hist) :
    (afterStep planInit.kind [] (perform .initAck s)).LinkSafe := by
  have unset {p : Prop} (ht : s.sync = true) : p := by simp [hs] at ht
  rcases rxByte_events (.err .initReadFailed none none) initByte s with ⟨b, q, e⟩ | ⟨q, e⟩ | e <;> rw [perform, e]
  case inl =>
    unfold initByte
    split
    case isTrue hb =>
      subst hb
      refine linkSafe_finish _ (noFrameBeforeInit_read _ _ hn) fun _ => ?_
      exact hh ▸ initSucceeded_ack h
    case isFalse => exact linkSafe_finish _ (noFrameBeforeInit_read _ _ hn) unset
  case inr.inl => exact linkSafe_finish _ (noFrameBeforeInit_read _ _ hn) unset
  case inr.inr => exact ⟨hn, unset, fun _ _ _ => ⟨h, hh⟩⟩

/-- INIT writes the sync byte, and reads its answer if the write succeeds. -/
theorem linkSafe_initSync {s : State} (hs : s.sync = false) (h0 : s.spc = 0) (hn : NoFrameBeforeInit s.hist) :
    (afterStep planInit.kind [.initAck] (perform (.tx [0x7F] none) s)).LinkSafe := by
  have unset {p : Prop} (ht : s.sync = true) : p := by simp [hs] at ht
  have sent (o : TxOutcome) : NoFrameBeforeInit (s.hist ++ [.tx [0x7F] o]) :=
    noFrameBeforeInit_concat hn fun _ _ e => .inl (Event.tx.inj e).1.symm
  rcases txStep_events [0x7F] none s with ⟨q, e⟩ | ⟨q, e⟩ | e <;> rw [perform, e]
  case inl =>
    rw [afterStep, runSteps_cons]
    exact linkSafe_initAnswer hs rfl (sent .ok)
  case inr.inl => exact linkSafe_finish _ (sent .fail) unset
  case inr.inr => exact ⟨hn, unset, fun _ _ h1 => absurd (h0.symm.trans h1) Nat.zero_ne_one⟩

/-- INIT goes on from the step it waits in. -/
theorem linkSafe_initResume {s : State} (hs : s.sync = false) (hspc : s.spc < 2) (hn : NoFrameBeforeInit s.hist)
    (hwaits : s.spc = 1 → ∃ h, s.hist = h ++ [.tx [0x7F] .ok]) : (planInit.resume s).LinkSafe := by
  obtain h0 | h1 : s.spc = 0 ∨ s.spc = 1 := by omega
  · rw [planResume_cons (m := .tx [0x7F] none) (ms := [.initAck]) (congrArg planInit.steps.drop h0)]
    exact linkSafe_initSync hs h0 hn
  · obtain ⟨h, hh⟩ := hwaits h1
    rw [planResume_cons (m := .initAck) (ms := []) (congrArg planInit.steps.drop h1)]
    exact linkSafe_initAnswer hs hh hn

/-! ## Every move keeps the link safe (R317) -/

theorem linkSafe_runs {i : Instr} {s : State} (h : s.LinkSafe) (hs : s.sync = false ↔ i = .autobaudInit) :
    (runSteps (planOf i).kind (planOf i).steps (s.accept i)).LinkSafe := by
  by_cases hi : i = .autobaudInit
  · subst hi
    rw [planOf, planInit, runSteps_cons]
    exact linkSafe_initSync (hs.mpr rfl) rfl h.noFrameBeforeInit
  · have hsync : s.sync = true := by simpa using mt hs.mp hi
    exact linkSafe_of_runFrame (runSteps_frame _ _ _) (by simpa using hi) h.noFrameBeforeInit (h.synced hsync)

/-- Answers of the oracle, and what the operation in flight does with them: INIT goes on in one of its two steps, and
any other operation runs with SYNC = 1. -/
theorem linkSafe_more_resume {s : State} (hinv : s.Inv) (h : s.LinkSafe) (a : List TxOutcome) (b : List (Option Byte)) :
    (s.more a b).resume.LinkSafe := by
  cases hb : s.busy with
  | false =>
    rw [resume_idle (by exact hb)]
    exact ⟨h.noFrameBeforeInit, h.synced, h.initWaits⟩
  | true =>
    obtain ⟨i, hc, _, _⟩ := hinv.inFlight hb
    have hduty := hinv.syncDuty i hb hc
    by_cases hi : i = .autobaudInit
    · subst hi
      rw [resume_busy (s := s.more a b) hb hc]
      exact linkSafe_initResume (hduty.mpr rfl) (hinv.spc_inRange _ hb hc) h.noFrameBeforeInit (h.initWaits hb hc)
    · have hsync : s.sync = true := by simpa using mt hduty.mp hi
      exact linkSafe_of_runFrame (s := s.more a b) (resume_frame _) (by simpa [State.more, hc] using hi)
        h.noFrameBeforeInit (h.synced hsync)

theorem moves_linkSafe {next : Option Instr} {s t : State} (hinv : s.Inv) (h : s.LinkSafe) (hm : Moves next s t) :
    t.LinkSafe := by
  cases hm with
  | stays | configures | answers => exact ⟨h.noFrameBeforeInit, h.synced, h.initWaits⟩
  | runs i _ _ hs _ => exact linkSafe_runs h hs
  | goesOn a b => exact linkSafe_more_resume hinv h a b

theorem linkSafe_blockReset (s : State) : s.blockReset.LinkSafe :=
  linkSafe_of_cur_ne (by simp) (fun before _ _ _ e => by simp at e) (by simp)

/-- Settles O52: a block reset empties the history, and every move keeps it safe: INIT writes the sync byte alone, and
any other operation runs with SYNC = 1, so after INIT's success (`moves_linkSafe`). -/
theorem noFrameReachesLinkBeforeInit : Obligations.NoFrameReachesLinkBeforeInit := by
  intro s t hinv h hstep
  rcases step_moves hstep with ⟨rest, _, _, rfl⟩ | ⟨x, hm⟩
  · exact linkSafe_blockReset _
  · have taken : State.Inv { s with inputs := x } := inv_of_unread hinv x hinv.pollBudget_pos hinv.results_wf
    exact moves_linkSafe taken ⟨h.noFrameBeforeInit, h.synced, h.initWaits⟩ hm

/-! ## Late answers (R326) -/

/-- A byte of the device arrives, whether it is a row of the table or not. -/
theorem step_deviceByte {s : State} {b : Byte} {rest : List Input} (hi : s.inputs = .port .fromDevice [b] :: rest) :
    step s = .next (State.more [] [some b] { s with inputs := rest }).resume := by
  by_cases hack : b = 0x79
  · subst hack
    rw [step_of_decode (i := .wireAck) hi rfl]
    exact exec_wireAck _
  · by_cases hnack : b = 0x1F
    · subst hnack
      rw [step_of_decode (i := .wireNack) hi rfl]
      exact exec_wireNack _
    · exact step_otherByte hack hnack hi

/-- Where the step after a request only brings answers of the oracle, it leads where the request would have led with
them held. -/
theorem step_after_request {i : Instr} {s t : State} {inp : Input} {rest : List Input} {a : List TxOutcome}
    {b : List (Option Byte)} (hc : channel i = .request) (hb : s.busy = false)
    (h : exec i { s with inputs := inp :: rest } = .next t)
    (hstep : t.inputs = inp :: rest → step t = .next (State.more a b { t with inputs := rest }).resume) :
    step t = exec i (State.more a b { s with inputs := rest }) := by
  obtain ⟨u, hu, hmore⟩ := exec_more (a := a) (b := b) (s := { s with inputs := rest }) hc hb
  have hrest := exec_inputs rest hc h
  obtain rfl : u = { t with inputs := rest } := Host.Outcome.next.inj (hu.symm.trans hrest)
  rw [hstep (exec_frame h).inputs, hmore]

/-- Settles O48: each of the three inputs brings one answer (`step_deviceByte`, `step_readFails`, `step_txAnswer`), and
an answer is taken late as it is when held before (`step_after_request`). -/
theorem lateAnswersLeadToTheSameState : Obligations.LateAnswersLeadToTheSameState := by
  intro i s t rest hc hb
  refine ⟨fun b h => ?byte, fun h => ?fails, fun o h => ?answer⟩
  case byte => simpa [State.more] using step_after_request hc hb h step_deviceByte
  case fails => simpa [State.more] using step_after_request hc hb h step_readFails
  case answer => simpa [State.more] using step_after_request hc hb h step_txAnswer

end Sys2Proof.Proofs

end
